-- ==== Sys2Proof/Word.lean ====
section
/-! DEFINITION. The bit-vector types of the block: bytes, register values, operand fields and command
words (00_scope.md R13, 30_encoding.md R81). All values are unsigned. -/

namespace Sys2Proof

/-- One byte: a wire byte, a buffer byte, a byte operand (R68, R82). -/
abbrev Byte := BitVec 8

/-- A register value as WRREG and RDREG move it, and the DATA field of a response (R41, R84). -/
abbrev Word := BitVec 32

/-- The A field of a command word: a register number or a buffer index (R81, R82). -/
abbrev Addr := BitVec 24

/-- A command word (R81, R90). -/
abbrev CmdWord := BitVec 64

end Sys2Proof
end

