-- ==== Sys2Proof/Syntax.lean ====
section
/-! DEFINITION. The nine commands of TF-CMD64 (30_encoding.md R83), one constructor for each row of
spec/opcode_table.json. Operands are the unsigned fields of R82, each typed at its own width, so the
operand ranges of R91 are the ranges of the types. -/

namespace Sys2Proof

/-- A command. -/
inductive Instr where
  /-- INIT p (R240) -/
  | init (p : Bool)
  /-- ACCEPT b (R186) -/
  | accept (b : Byte)
  /-- TICK (R201) -/
  | tick
  /-- COMPOSE e (R144): `e = true` uses the explicit ID in TX_ID -/
  | compose (e : Bool)
  /-- WRREG r, v (R241) -/
  | wrreg (r : Addr) (v : Word)
  /-- RDREG r (R242) -/
  | rdreg (r : Addr)
  /-- TXP_WR i, b (R151) -/
  | txpWr (i : Addr) (b : Byte)
  /-- TXB_RD i (R152) -/
  | txbRd (i : Addr)
  /-- RXB_RD i (R203) -/
  | rxbRd (i : Addr)
  deriving DecidableEq, Repr

end Sys2Proof
end

