-- ==== Sys2Proof/Decode.lean ====
section
/-! DEFINITION. Decoding a command word (30_encoding.md R81-R83, R86-R90; spec/opcode_table.json), total
on all 64-bit words and rejecting by name, then the encoder and the host's table-word entry. -/

namespace Sys2Proof

/-- Why a word is no command. The block answers either with status ILLEGAL (R87, R88). -/
inductive Reject where
  /-- the OP field is 0x00 or 0x0A-0xFF (R87) -/
  | reservedOpcode
  /-- the opcode is assigned and a reserved field holds a non-zero bit (R88) -/
  | reservedField
  deriving DecidableEq, Repr

/-- The nine assigned opcodes (R83). -/
inductive Op where
  | init
  | accept
  | tick
  | compose
  | wrreg
  | rdreg
  | txpWr
  | txbRd
  | rxbRd
  deriving DecidableEq, Repr

/-- All assigned opcodes, in table order. -/
def Op.all : List Op := [.init, .accept, .tick, .compose, .wrreg, .rdreg, .txpWr, .txbRd, .rxbRd]

/-- The OP value of an opcode (R83). -/
def Op.byte : Op → BitVec 8
  | .init => 0x01
  | .accept => 0x02
  | .tick => 0x03
  | .compose => 0x04
  | .wrreg => 0x05
  | .rdreg => 0x06
  | .txpWr => 0x07
  | .txbRd => 0x08
  | .rxbRd => 0x09

/-- The `mask` of an opcode's row (R88): the bits the encoding fixes. -/
def Op.mask : Op → CmdWord
  | .init => 0xFFFFFFFFFFFFFFFE
  | .accept => 0xFFFFFFFFFFFFFF00
  | .tick => 0xFFFFFFFFFFFFFFFF
  | .compose => 0xFFFFFFFEFFFFFFFF
  | .wrreg => 0xFF00000000000000
  | .rdreg => 0xFF000000FFFFFFFF
  | .txpWr => 0xFF000000FFFFFF00
  | .txbRd => 0xFF000000FFFFFFFF
  | .rxbRd => 0xFF000000FFFFFFFF

/-- The `match` of an opcode's row (R88): the values of the fixed bits. -/
def Op.pattern : Op → CmdWord
  | .init => 0x0100000000000000
  | .accept => 0x0200000000000000
  | .tick => 0x0300000000000000
  | .compose => 0x0400000000000000
  | .wrreg => 0x0500000000000000
  | .rdreg => 0x0600000000000000
  | .txpWr => 0x0700000000000000
  | .txbRd => 0x0800000000000000
  | .rxbRd => 0x0900000000000000

/-- OP, bits [63:56] (R81). -/
def opField (w : CmdWord) : BitVec 8 := w.extractLsb' 56 8

/-- A, bits [55:32] (R81). -/
def aField (w : CmdWord) : Addr := w.extractLsb' 32 24

/-- D, bits [31:0] (R81). -/
def dField (w : CmdWord) : Word := w.extractLsb' 0 32

/-- A byte operand is D[7:0] (R82). -/
def byteOperand (w : CmdWord) : Byte := w.extractLsb' 0 8

/-- The opcode an OP value assigns, if any (R83, R87). -/
def Op.ofByte (b : BitVec 8) : Option Op := Op.all.find? fun o => o.byte == b

/-- The command of opcode `o` whose operands stand in `w` (R82, R83). -/
def operands (o : Op) (w : CmdWord) : Instr :=
  match o with
  | .init => .init (w.getLsbD 0)
  | .accept => .accept (byteOperand w)
  | .tick => .tick
  | .compose => .compose (w.getLsbD 32)
  | .wrreg => .wrreg (aField w) (dField w)
  | .rdreg => .rdreg (aField w)
  | .txpWr => .txpWr (aField w) (byteOperand w)
  | .txbRd => .txbRd (aField w)
  | .rxbRd => .rxbRd (aField w)

/-- Decoding (R86): the opcode first, then the reserved fields. -/
def decode (w : CmdWord) : Except Reject Instr :=
  match Op.ofByte (opField w) with
  | none => .error .reservedOpcode
  | some o => if w &&& o.mask = o.pattern then .ok (operands o w) else .error .reservedField

/-- The opcode of a command. -/
def Instr.op : Instr → Op
  | .init _ => .init
  | .accept _ => .accept
  | .tick => .tick
  | .compose _ => .compose
  | .wrreg _ _ => .wrreg
  | .rdreg _ => .rdreg
  | .txpWr _ _ => .txpWr
  | .txbRd _ => .txbRd
  | .rxbRd _ => .rxbRd

/-- A command word from its three fields (R81). -/
def pack (op : BitVec 8) (a : Addr) (d : Word) : CmdWord := op ++ a ++ d

/-- The A field of a command (R83). -/
def Instr.aOperand : Instr → Addr
  | .init _ => 0
  | .accept _ => 0
  | .tick => 0
  | .compose e => if e then 1 else 0
  | .wrreg r _ => r
  | .rdreg r => r
  | .txpWr i _ => i
  | .txbRd i => i
  | .rxbRd i => i

/-- The D field of a command (R83). -/
def Instr.dOperand : Instr → Word
  | .init p => if p then 1 else 0
  | .accept b => b.setWidth 32
  | .tick => 0
  | .compose _ => 0
  | .wrreg _ v => v
  | .rdreg _ => 0
  | .txpWr _ b => b.setWidth 32
  | .txbRd _ => 0
  | .rxbRd _ => 0

/-- The word of a command (R83, R91). -/
def encode (i : Instr) : CmdWord := pack i.op.byte i.aOperand i.dOperand

/-- The command word whose low `nbits` bits are those of `w` and whose other bits are 0. The block has
no byte-addressed view of a command word (R67), so no byte order enters (log 19). -/
def tableWord (nbits w : Nat) : CmdWord := BitVec.ofNat 64 (w % 2 ^ nbits)

/-- What the decoder reads from a row of spec/opcode_table.json, numbered as the table numbers it. -/
def decodeTableWord (nbits w : Nat) : Option Instr :=
  match decode (tableWord nbits w) with
  | .ok i => some i
  | .error _ => none

end Sys2Proof
end

