-- ==== Sys2Proof/Machine/Bits.lean ====
section
/-! DEFINITION. Truncation and the byte helpers (00_scope.md R13, R14, R16). Field registers of up to 32
bits are held in 32-bit containers, zero above their width (log 10). -/

namespace Sys2Proof

/-- `trunc_bits(v)`: v modulo 2^bits (R13). -/
def trunc (bits : Nat) (v : Word) : Word := BitVec.ofNat 32 (v.toNat % 2 ^ bits)

/-- `shiftIn_n(acc, b)`: append byte b as least significant, in an n-byte field (R16). -/
def shiftIn (n : Nat) (acc : Word) (b : Byte) : Word := trunc (8 * n) ((acc <<< 8) ||| b.setWidth 32)

/-- `be_n(v)`: the low n bytes of v, most significant first (R16). -/
def beBytes : Nat → Word → List Byte
  | 0, _ => []
  | n + 1, v => (v >>> (8 * n)).setWidth 8 :: beBytes n v

/-- A one-bit value as a register value. -/
def bitWord (b : Bool) : Word := if b then 1 else 0

end Sys2Proof
end

