-- ==== Sys2Proof/Config.lean ====
section
/-! DEFINITION. The synthesis-time parameters of one block (00_scope.md R5-R9, D40-D47). The spec leaves
every value OPEN ("parameter"), so the model takes the configuration as data: every statement is about
all well-formed configurations. Derived quantities stand in Machine/Layout.lean, the ranges in
WellFormed.lean. -/

namespace Sys2Proof

/-- The checksum variant CK_MODE (R7). -/
inductive CkMode where
  | none
  | xor8
  | crc16
  | crc32
  deriving DecidableEq, Repr

/-- The configuration record (R5-R9). The three widths are byte counts; a value outside the ranges of
R5-R9 can be written down here and is refused by `Config.wf` (R11). -/
structure Config where
  /-- SOF_EN (R5) -/
  sofEn : Bool
  /-- SOF_VAL, used only when SOF_EN = 1 (R5) -/
  sofVal : Byte
  /-- IDW, bytes (R6) -/
  idw : Nat
  /-- LENW, bytes (R6) -/
  lenw : Nat
  /-- TYPEW, bytes (R6) -/
  typew : Nat
  /-- CK_MODE (R7) -/
  ckMode : CkMode
  /-- MAX_PAYLOAD (R8) -/
  maxPayload : Nat
  /-- TIMEOUT_TICKS (R9) -/
  timeoutTicks : Nat
  deriving DecidableEq, Repr

/-- CFG-A of 95_test_vectors.md section 2. DESIGN CHOICE (log 2), unsafe: it is the configuration of
`State.reset` only, because a reset state has to name some configuration. The spec gives no default, and
no statement rests on these values. -/
def Config.cfgA : Config :=
  { sofEn := true, sofVal := 0x01, idw := 1, lenw := 2, typew := 1, ckMode := .xor8,
    maxPayload := 8, timeoutTicks := 3 }

end Sys2Proof
end

