-- ==== Sys2Proof/Machine/Layout.lean ====
section
/-! DEFINITION. Derived quantities of the configuration (00_scope.md R7, R10; 30_encoding.md R100). -/

namespace Sys2Proof

/-- CKW, the checksum byte width that the variant fixes (R7, C1). -/
def CkMode.width : CkMode → Nat
  | .none => 0
  | .xor8 => 1
  | .crc16 => 2
  | .crc32 => 4

/-- The CK_MODE code of CFG0 (R41). -/
def CkMode.code : CkMode → Nat
  | .none => 0
  | .xor8 => 1
  | .crc16 => 2
  | .crc32 => 3

namespace Config

/-- CKW (R7) -/
def ckw (c : Config) : Nat := c.ckMode.width

/-- SOFB (R10) -/
def sofb (c : Config) : Nat := if c.sofEn then 1 else 0

/-- IDB (R10) -/
def idBits (c : Config) : Nat := 8 * c.idw

/-- LENB (R10) -/
def lenBits (c : Config) : Nat := 8 * c.lenw

/-- TYPEB (R10) -/
def typeBits (c : Config) : Nat := 8 * c.typew

/-- CKB (R10) -/
def ckBits (c : Config) : Nat := 8 * c.ckw

/-- HDR_BYTES: the bytes of a frame before its payload (R10). -/
def hdrBytes (c : Config) : Nat := c.sofb + c.idw + c.lenw + c.typew + c.ckw

/-- OVERHEAD_BYTES: header plus payload checksum (R10). -/
def overheadBytes (c : Config) : Nat := c.hdrBytes + c.ckw

/-- TXBUF_SIZE (R10, R62) -/
def txbufSize (c : Config) : Nat := c.maxPayload + c.overheadBytes

/-- The length of a frame with `len` payload bytes (R100). -/
def frameLen (c : Config) (len : Nat) : Nat := c.hdrBytes + len + (if 0 < len then c.ckw else 0)

end Config

end Sys2Proof
end

