-- ==== Sys2Proof/Machine/Checksum.lean ====
section
/-! DEFINITION. The checksum generators (40_checksum.md R110-R126). They are pure functions; their
accumulator lives in RX_CK for the parser and in transient values inside COMPOSE. Accumulators and values
stand in 32-bit containers whose bits above the variant's width are 0 (10_state.md R28). -/

namespace Sys2Proof

/-- The reflected CRC-16 constant (R116). UNVERIFIED against the original repository (log 12): the spec
reads the source's 0x8005 as a normal-form polynomial (D11, C2, U17). The one place it is named. -/
def P16 : BitVec 16 := 0xA001

/-- The reflected CRC-32 constant (R120). -/
def P32 : BitVec 32 := 0xEDB88320

/-- One reflected shift step (R117). -/
def crcStep {w : Nat} (poly c : BitVec w) : BitVec w :=
  if c.getLsbD 0 then (c >>> 1) ^^^ poly else c >>> 1

/-- `r8`: eight shift steps (R117). -/
def crcSteps8 {w : Nat} (poly c : BitVec w) : BitVec w :=
  let s := crcStep poly
  s (s (s (s (s (s (s (s c)))))))

/-- A table entry, T16[i] or T32[i] (R117, R121). UNVERIFIED (log 13): the construction is general
knowledge (G1, G2). -/
def crcTable {w : Nat} (poly : BitVec w) (i : Byte) : BitVec w := crcSteps8 poly (i.setWidth w)

/-- One table-driven update (R118, R122). UNVERIFIED (log 13): the formula is general knowledge (G3). -/
def crcAdd {w : Nat} (poly acc : BitVec w) (b : Byte) : BitVec w :=
  (acc >>> 8) ^^^ crcTable poly (acc.setWidth 8 ^^^ b)

/-- `ckReset()` (R113, R114, R118, R122). -/
def ckReset : CkMode → Word
  | .none => 0
  | .xor8 => 0
  | .crc16 => 0
  | .crc32 => 0xFFFFFFFF

/-- `ckAdd(acc, b)` (R113, R114, R118, R122). -/
def ckAdd (m : CkMode) (acc : Word) (b : Byte) : Word :=
  match m with
  | .none => acc
  | .xor8 => (acc.setWidth 8 ^^^ b).setWidth 32
  | .crc16 => (crcAdd P16 (acc.setWidth 16) b).setWidth 32
  | .crc32 => crcAdd P32 acc b

/-- `ckFinal(acc)` (R113, R114, R118, R122). -/
def ckFinal (m : CkMode) (acc : Word) : Word :=
  match m with
  | .none => 0
  | .xor8 => (~~~ (acc.setWidth 8)).setWidth 32
  | .crc16 => (acc.setWidth 16).setWidth 32
  | .crc32 => ~~~ acc

/-- `ckOf(bs)` (R124). -/
def ckOf (m : CkMode) (bs : List Byte) : Word := ckFinal m (bs.foldl (ckAdd m) (ckReset m))

end Sys2Proof
end

