-- ==== Sys2Proof/WellFormed.lean ====
section
/-! DEFINITION. Well-formedness. The configuration is the one piece of data that can be ill formed
(00_scope.md R11): its checks are here, one for each range of R6, R8 and R9. SOF_EN, SOF_VAL and CK_MODE
are in range by their types (R5, R7). A command has no check of its own: every operand of `Instr` is typed
at the exact width of its field (R82), so every term of `Instr` is well formed. -/

namespace Sys2Proof

/-- A field width is 1, 2 or 4 bytes (R6, D7). -/
def widthOk (n : Nat) : Bool := n == 1 || n == 2 || n == 4

/-- The configuration is in the ranges of R5-R9 (R11). -/
def Config.wf (c : Config) : Bool :=
  widthOk c.idw && widthOk c.lenw && widthOk c.typew
    && decide (1 ≤ c.maxPayload) && decide (c.maxPayload ≤ 2 ^ c.lenBits - 1)
    && decide (c.maxPayload + c.overheadBytes ≤ 2 ^ 24)
    && decide (1 ≤ c.timeoutTicks) && decide (c.timeoutTicks ≤ 2 ^ 32 - 1)

end Sys2Proof
end

