-- ==== Sys2Proof/Machine/State.lean ====
section
/-! DEFINITION. The state of the block (10_state.md R20, 20_memory.md R60-R64), its two ports
(30_encoding.md R80), its outcomes that are not a next state, and reset (R43, R290). Plain data. -/

namespace Sys2Proof.Machine

/-- The three byte memories (R60-R62, R64): separate, not overlapping. -/
inductive Space where
  /-- RXBUF, the receive payload buffer (R60) -/
  | rxbuf
  /-- TXP, the transmit payload buffer (R61) -/
  | txp
  /-- TXBUF, the send-staging buffer (R62) -/
  | txbuf
  deriving DecidableEq, Repr

/-- The contents of one byte memory: (index, byte) pairs, indices strictly rising, no byte equal to what an
unlisted index reads as (`Memory.wf`). -/
abbrev Memory := List Host.Cell

/-- What an unlisted index reads as: "every byte of RXBUF, TXP and TXBUF is 0" after reset (R43, log 9). -/
def Memory.unlisted : Byte := 0

/-- The canonical form: strictly rising indices, no listed byte equal to `unlisted`. -/
def Memory.wf : Memory → Bool
  | [] => true
  | (i, b) :: rest => (b != Memory.unlisted) && rest.all (fun e => i < e.1) && Memory.wf rest

/-- The parser's state-machine state PSTATE: exactly seven values (R25, U18). -/
inductive PState where
  | sof
  | id
  | len
  | type
  | headCksum
  | data
  | dataCksum
  deriving DecidableEq, Repr

/-- The parser session (R20 (a), (b)). -/
structure Parser where
  /-- PSTATE (R25) -/
  pstate : PState
  /-- RXI (R26) -/
  rxi : Word
  /-- RX_ID, IDB bits (R27) -/
  rxId : Word
  /-- RX_LEN, LENB bits (R27) -/
  rxLen : Word
  /-- RX_TYPE, TYPEB bits (R27) -/
  rxType : Word
  /-- RX_CK (R28) -/
  rxCk : Word
  /-- RX_REF, CKB bits (R29) -/
  rxRef : Word
  /-- DISCARD (R32) -/
  discard : Bool
  /-- TICKS (R33) -/
  ticks : Word
  /-- RXBUF (R60) -/
  rxbuf : Memory
  deriving DecidableEq, Repr

/-- The ID generator (R20 (c)). -/
structure IdGen where
  /-- PEER (R34) -/
  peer : Bool
  /-- NEXT_ID, IDB bits (R35) -/
  nextId : Word
  deriving DecidableEq, Repr

/-- The composer's registers and buffers (R20 (d), (e)). -/
structure Composer where
  /-- TX_TYPE, TYPEB bits (R36) -/
  txType : Word
  /-- TX_LEN (R37) -/
  txLen : Word
  /-- TX_ID, IDB bits (R38) -/
  txId : Word
  /-- TX_COUNT (R39) -/
  txCount : Word
  /-- TX_LAST_ID, IDB bits (R40) -/
  txLastId : Word
  /-- TXP (R61) -/
  txp : Memory
  /-- TXBUF (R62) -/
  txbuf : Memory
  deriving DecidableEq, Repr

/-- The status of a response (R85). -/
inductive Status where
  | ok
  | payloadTooLarge
  | illegal
  | badReg
  | badAddr
  deriving DecidableEq, Repr

/-- A response: STATUS and DATA (R84). -/
structure Response where
  status : Status
  data : Word
  deriving DecidableEq, Repr

/-- What a FRAME event carries (R206). -/
structure Frame where
  /-- id, IDB bits -/
  id : Word
  /-- type, TYPEB bits -/
  typ : Word
  /-- len, LENB bits -/
  len : Word
  /-- the payload, by value -/
  payload : List Byte
  deriving DecidableEq, Repr

/-- A FRAME event on the frame port, "tagged with the index of the ACCEPT that emitted it" (R305). The
index counts the responses before that command's own (DEDUCED, log 7). -/
structure FrameEvent where
  index : Nat
  frame : Frame
  deriving DecidableEq, Repr

/-- The ports (R80), the model's own fields (DESIGN CHOICE, log 4): what the host has still to send, and
what the block has answered and emitted, so that a run's observation (R305) is in the state it ends in. -/
structure Port where
  /-- command words the host has still to issue, the next one first -/
  pending : List CmdWord
  /-- responses returned, oldest first -/
  responses : List Response
  /-- FRAME events emitted, oldest first (R206) -/
  frames : List FrameEvent
  deriving DecidableEq, Repr

/-- The machine: the instance's configuration, constant (log 1); the block's state, R20; the ports. -/
structure State where
  cfg : Config
  parser : Parser
  idgen : IdGen
  composer : Composer
  port : Port
  deriving DecidableEq, Repr

/-- The machine stops. The block itself never traps: its errors are response statuses (R260), so no
command of a run from reset ends here. -/
inductive Fault where
  /-- The parser or the composer would touch index `i` outside buffer `s`. Raised by ACCEPT's payload
  store and FRAME emission and by COMPOSE's buffer accesses, in states that no run reaches (R153, R205,
  R208). Safe (log 8): the spec gives such an access no meaning. -/
  | outsideBuffer (s : Space) (i : Nat)
  deriving DecidableEq, Repr

/-- No meaning. -/
inductive Refusal where
  /-- Raised by every command, and by a step with no command pending, when the configuration is not well
  formed: "It must not give such a configuration a meaning" (R11, U2; log 3). Safe. -/
  | configIllFormed
  /-- Raised by `exec` for an instruction not modelled yet. Safe. No arm is left. -/
  | notModelled (mnemonic : String)
  deriving DecidableEq, Repr

/-- The parser session after reset (R43, R240). -/
def Parser.reset (c : Config) : Parser :=
  { pstate := .sof, rxi := 0, rxId := 0, rxLen := 0, rxType := 0, rxCk := ckReset c.ckMode,
    rxRef := 0, discard := false, ticks := 0, rxbuf := [] }

/-- The ID generator after reset with peer bit p (R43, R240). -/
def IdGen.reset (p : Bool) : IdGen := { peer := p, nextId := 0 }

/-- The composer after reset (R43, R240). -/
def Composer.reset : Composer :=
  { txType := 0, txLen := 0, txId := 0, txCount := 0, txLastId := 0, txp := [], txbuf := [] }

/-- The ports before any command: nothing issued, nothing answered (DESIGN CHOICE, log 4). -/
def Port.reset : Port := { pending := [], responses := [], frames := [] }

/-- Power-on reset of a block of configuration `c` (R43, R290): the state that INIT 0 gives. -/
def State.resetWith (c : Config) : State :=
  { cfg := c, parser := Parser.reset c, idgen := IdGen.reset false, composer := Composer.reset,
    port := Port.reset }

/-- Power-on reset, at the configuration CFG-A (DESIGN CHOICE, log 2). -/
def State.reset : State := State.resetWith Config.cfgA

end Sys2Proof.Machine
end

