-- ==== Sys2Proof/Machine/Ops.lean ====
section
/-! DEFINITION. The shared operations: one byte and one run of a memory, the response and event ports,
the one form of exception (`raise`), the configuration check, and taking a command from the port. -/

namespace Sys2Proof.Machine

/-- The outcome of a command. -/
abbrev Result := Host.Outcome State Fault Refusal

/-! ## Memories -/

/-- `MemRead` (R14): the byte at index `i`. -/
def Memory.read : Memory → Nat → Byte
  | [], _ => Memory.unlisted
  | (k, v) :: rest, i => if i = k then v else Memory.read rest i

/-- `MemWrite` (R14): the memory with byte `b` at index `i`, in canonical form. -/
def Memory.write : Memory → Nat → Byte → Memory
  | [], i, b => if b = Memory.unlisted then [] else [(i, b)]
  | (k, v) :: rest, i, b =>
    if i < k then
      if b = Memory.unlisted then (k, v) :: rest else (i, b) :: (k, v) :: rest
    else if i = k then
      if b = Memory.unlisted then rest else (i, b) :: rest
    else
      (k, v) :: Memory.write rest i b

/-- The `n` bytes from index `i` on. -/
def Memory.readRun (m : Memory) : Nat → Nat → List Byte
  | _, 0 => []
  | i, n + 1 => m.read i :: Memory.readRun m (i + 1) n

/-- The memory with the bytes of a list written from index `i` on, one after the other. -/
def Memory.writeRun : Memory → Nat → List Byte → Memory
  | m, _, [] => m
  | m, i, b :: bs => Memory.writeRun (m.write i b) (i + 1) bs

/-- The size of a memory (R60-R62). -/
def Space.size (c : Config) : Space → Nat
  | .rxbuf => c.maxPayload
  | .txp => c.maxPayload
  | .txbuf => c.txbufSize

/-- The block's own write of one byte. An index outside the buffer faults: the spec gives it no meaning
(log 8), and R208 says it never happens. -/
def storeByte (c : Config) (sp : Space) (m : Memory) (i : Nat) (b : Byte) : Except Fault Memory :=
  if i < sp.size c then .ok (m.write i b) else .error (.outsideBuffer sp i)

/-- The block's own read of bytes 0..n-1. The first index outside the buffer faults (log 8). -/
def loadRun (c : Config) (sp : Space) (m : Memory) (n : Nat) : Except Fault (List Byte) :=
  if n ≤ sp.size c then .ok (m.readRun 0 n) else .error (.outsideBuffer sp (sp.size c))

/-- The block's own write of a list of bytes from index 0. The first index outside the buffer faults
(log 8); R153 says it never happens. -/
def storeRun (c : Config) (sp : Space) (m : Memory) (bs : List Byte) : Except Fault Memory :=
  if bs.length ≤ sp.size c then .ok (m.writeRun 0 bs) else .error (.outsideBuffer sp (sp.size c))

/-! ## The ports -/

/-- The STATUS code (R85). -/
def Status.code : Status → BitVec 8
  | .ok => 0x00
  | .payloadTooLarge => 0x01
  | .illegal => 0x02
  | .badReg => 0x03
  | .badAddr => 0x04

/-- The 40 bits of a response: STATUS in [39:32], DATA in [31:0] (R84). -/
def Response.bits (r : Response) : BitVec 40 := r.status.code ++ r.data

/-- `respond(status, data)` (R15): one response on the command port. -/
def State.respond (s : State) (st : Status) (data : Word) : State :=
  { s with port := { s.port with responses := s.port.responses ++ [{ status := st, data := data }] } }

/-- `emit FRAME(...)` (R15, R206): at most one event, tagged with the index of the command that is
running (R305, log 7). -/
def State.emit (s : State) (ev : Option Frame) : State :=
  match ev with
  | none => s
  | some f =>
    { s with port := { s.port with
        frames := s.port.frames ++ [{ index := s.port.responses.length, frame := f }] } }

/-- The end of a command that succeeds. -/
def finish (s : State) (data : Word) : Result := .next (s.respond .ok data)

/-- Taking the block's one form of exception (R15, R260): the command ends with a non-OK status, DATA 0,
nothing else changed and no event. There is no saved state, no vector and no return (R267, R268). -/
def raise (s : State) (st : Status) : Result := .next (s.respond st 0)

/-- A configuration that is not well formed is refused, whatever the command (R11, log 3). -/
def whenConfigured (s : State) (r : Result) : Result :=
  if s.cfg.wf then r else .refused .configIllFormed

/-- Taking the next command word from the command port (R80). -/
def State.takeCommand (s : State) : Option (CmdWord × State) :=
  match s.port.pending with
  | [] => none
  | w :: rest => some (w, { s with port := { s.port with pending := rest } })

/-- A word that is no command: status ILLEGAL, nothing else (R86-R88). -/
def answerIllegal (s : State) : Result := whenConfigured s (raise s .illegal)

/-- No command pending: "the block holds its state unchanged" (R275, log 6). -/
def hold (s : State) : Result := whenConfigured s (.next s)

end Sys2Proof.Machine
end

