-- ==== Sys2Proof/Machine/Flags.lean ====
section
/-! DEFINITION. The one flag, DISCARD (10_state.md R23, R32), and the comparisons that decide one
transition and are stored nowhere (R23, R125). -/

namespace Sys2Proof.Machine

/-- The value DISCARD takes on entry to DATA: RX_LEN > MAX_PAYLOAD (R184). -/
def oversized (c : Config) (len : Word) : Bool := decide (c.maxPayload < len.toNat)

/-- The timeout comparison, TICKS >= TIMEOUT_TICKS (R187). -/
def timedOut (c : Config) (p : Parser) : Bool := decide (c.timeoutTicks ≤ p.ticks.toNat)

/-- The checksum comparison, `ckFinal(RX_CK) = RX_REF` (R125, R194, R196). -/
def ckMatches (c : Config) (p : Parser) : Bool := ckFinal c.ckMode p.rxCk == p.rxRef

/-- The length comparison of COMPOSE, TX_LEN > MAX_PAYLOAD, 32-bit unsigned (R145). -/
def payloadTooLarge (c : Config) (k : Composer) : Bool := decide (c.maxPayload < k.txLen.toNat)

end Sys2Proof.Machine
end

