-- ==== Sys2Proof/Machine/Operands.lean ====
section
/-! DEFINITION. The operand forms (30_encoding.md R82): a register number resolved through the register
map (10_state.md R41, R63), with the value each register reads as and the effect of a write to it, and a
buffer index checked against its buffer (60_exceptions.md R262). -/

namespace Sys2Proof.Machine

/-- The registers of the map (R41). -/
inductive Reg where
  | cfg0
  | cfg1
  | cfg2
  | cfg3
  | peer
  | nextId
  | txType
  | txLen
  | txId
  | txCount
  | txLastId
  | rxState
  | rxRxi
  | rxId
  | rxLen
  | rxType
  | rxCk
  | rxRef
  | rxDiscard
  | rxTicks
  deriving DecidableEq, Repr

/-- Every register of the map, in its order (R41). -/
def Reg.all : List Reg :=
  [.cfg0, .cfg1, .cfg2, .cfg3, .peer, .nextId, .txType, .txLen, .txId, .txCount, .txLastId,
    .rxState, .rxRxi, .rxId, .rxLen, .rxType, .rxCk, .rxRef, .rxDiscard, .rxTicks]

/-- The number of a register (R41). -/
def Reg.number : Reg → Addr
  | .cfg0 => 0x000000
  | .cfg1 => 0x000001
  | .cfg2 => 0x000002
  | .cfg3 => 0x000003
  | .peer => 0x000010
  | .nextId => 0x000011
  | .txType => 0x000020
  | .txLen => 0x000021
  | .txId => 0x000022
  | .txCount => 0x000023
  | .txLastId => 0x000024
  | .rxState => 0x000030
  | .rxRxi => 0x000031
  | .rxId => 0x000032
  | .rxLen => 0x000033
  | .rxType => 0x000034
  | .rxCk => 0x000035
  | .rxRef => 0x000036
  | .rxDiscard => 0x000037
  | .rxTicks => 0x000038

/-- The register a number names, if any (R41). -/
def Reg.ofNumber (n : Addr) : Option Reg := Reg.all.find? fun r => r.number == n

/-- The PSTATE code (R25). -/
def PState.code : PState → Word
  | .sof => 0
  | .id => 1
  | .len => 2
  | .type => 3
  | .headCksum => 4
  | .data => 5
  | .dataCksum => 6

/-- CFG0 (R41). SOF_VAL is laid out as configured, also with SOF_EN = 0 (log 15). -/
def cfg0Value (c : Config) : Word :=
  BitVec.ofNat 32 (c.idw + 2 ^ 4 * c.lenw + 2 ^ 8 * c.typew + 2 ^ 12 * c.ckMode.code
    + 2 ^ 16 * (if c.sofEn then 1 else 0) + 2 ^ 24 * c.sofVal.toNat)

/-- CFG3 (R41). -/
def cfg3Value (c : Config) : Word := BitVec.ofNat 32 (c.ckw + 2 ^ 8 * c.overheadBytes)

/-- The value a register reads as; bits above its width read as 0 (R41, log 10). -/
def readReg (s : State) : Reg → Word
  | .cfg0 => cfg0Value s.cfg
  | .cfg1 => BitVec.ofNat 32 s.cfg.maxPayload
  | .cfg2 => BitVec.ofNat 32 s.cfg.timeoutTicks
  | .cfg3 => cfg3Value s.cfg
  | .peer => bitWord s.idgen.peer
  | .nextId => trunc s.cfg.idBits s.idgen.nextId
  | .txType => trunc s.cfg.typeBits s.composer.txType
  | .txLen => s.composer.txLen
  | .txId => trunc s.cfg.idBits s.composer.txId
  | .txCount => s.composer.txCount
  | .txLastId => trunc s.cfg.idBits s.composer.txLastId
  | .rxState => s.parser.pstate.code
  | .rxRxi => s.parser.rxi
  | .rxId => trunc s.cfg.idBits s.parser.rxId
  | .rxLen => trunc s.cfg.lenBits s.parser.rxLen
  | .rxType => trunc s.cfg.typeBits s.parser.rxType
  | .rxCk => s.parser.rxCk
  | .rxRef => trunc s.cfg.ckBits s.parser.rxRef
  | .rxDiscard => bitWord s.parser.discard
  | .rxTicks => s.parser.ticks

/-- The composer after a write of `v` to a register; `none` for an RO register (R31, R36-R38, R41). -/
def writeReg (c : Config) (k : Composer) (r : Reg) (v : Word) : Option Composer :=
  match r with
  | .txType => some { k with txType := trunc c.typeBits v }
  | .txLen => some { k with txLen := v }
  | .txId => some { k with txId := trunc c.idBits v }
  | .cfg0 => none
  | .cfg1 => none
  | .cfg2 => none
  | .cfg3 => none
  | .peer => none
  | .nextId => none
  | .txCount => none
  | .txLastId => none
  | .rxState => none
  | .rxRxi => none
  | .rxId => none
  | .rxLen => none
  | .rxType => none
  | .rxCk => none
  | .rxRef => none
  | .rxDiscard => none
  | .rxTicks => none

/-- The index check of a buffer command: an unsigned 24-bit index against the buffer's size (R262). -/
def indexOk (c : Config) (sp : Space) (i : Addr) : Bool := decide (i.toNat < sp.size c)

/-- A host's read of one buffer byte: BAD_ADDR outside, else the byte, zero-extended (R152, R203). -/
def readByteCommand (s : State) (sp : Space) (m : Memory) (i : Addr) : Result :=
  if indexOk s.cfg sp i then finish s ((m.read i.toNat).setWidth 32) else raise s .badAddr

end Sys2Proof.Machine
end

