-- ==== Sys2Proof/Machine/Composer.lean ====
section
/-! DEFINITION. The ID generator and the frame composer: COMPOSE, TXP_WR and TXB_RD (41_composer.md). -/

namespace Sys2Proof.Machine

/-- The ID that `genId()` returns: the counter's low IDB-1 bits under the peer bit (R141). -/
def generatedId (c : Config) (g : IdGen) : Word :=
  BitVec.ofNat 32 (g.nextId.toNat % 2 ^ (c.idBits - 1)) ||| (bitWord g.peer <<< (c.idBits - 1))

/-- The ID generator after `genId()`: the counter advances modulo 2^IDB (R141, R142). -/
def IdGen.advance (c : Config) (g : IdGen) : IdGen := { g with nextId := trunc c.idBits (g.nextId + 1) }

/-- ID resolution (R146): the frame's ID and the ID generator afterwards. -/
def resolveId (e : Bool) (s : State) : Word × IdGen :=
  if e then (s.composer.txId, s.idgen) else (generatedId s.cfg s.idgen, s.idgen.advance s.cfg)

/-- SOF, ID, LEN and TYPE: the bytes the header checksum covers (R96-R98, R147). -/
def headerBytes (c : Config) (id len typ : Word) : List Byte :=
  (if c.sofEn then [c.sofVal] else [])
    ++ beBytes c.idw id ++ beBytes c.lenw (trunc c.lenBits len) ++ beBytes c.typew typ

/-- A checksum field: CKW bytes, big-endian; none with CK_MODE = NONE (R96, R147). -/
def ckField (c : Config) (bs : List Byte) : List Byte := beBytes c.ckw (ckOf c.ckMode bs)

/-- The frame on the wire (R96, R147). -/
def serialize (c : Config) (id len typ : Word) (payload : List Byte) : List Byte :=
  let hdr := headerBytes c id len typ
  hdr ++ ckField c hdr ++ payload ++ (if payload = [] then [] else ckField c payload)

/-- COMPOSE e (R144-R148): the length check first, then the ID, the frame into TXBUF, TX_COUNT and
TX_LAST_ID. A failed COMPOSE changes nothing (R145). -/
def execCompose (e : Bool) (s : State) : Result :=
  whenConfigured s <|
    if payloadTooLarge s.cfg s.composer then raise s .payloadTooLarge
    else
      match loadRun s.cfg .txp s.composer.txp s.composer.txLen.toNat with
      | .error f => .fault f
      | .ok payload =>
        let out := serialize s.cfg (resolveId e s).1 s.composer.txLen s.composer.txType payload
        match storeRun s.cfg .txbuf s.composer.txbuf out with
        | .error f => .fault f
        | .ok txbuf =>
          finish
            { s with
              idgen := (resolveId e s).2
              composer := { s.composer with
                txbuf := txbuf
                txCount := BitVec.ofNat 32 out.length
                txLastId := trunc s.cfg.idBits (resolveId e s).1 } }
            (BitVec.ofNat 32 out.length)

/-- TXP_WR i, b (R151). -/
def execTxpWr (i : Addr) (b : Byte) (s : State) : Result :=
  whenConfigured s <|
    if indexOk s.cfg .txp i then
      finish { s with composer := { s.composer with txp := s.composer.txp.write i.toNat b } } 0
    else raise s .badAddr

/-- TXB_RD i (R152). -/
def execTxbRd (i : Addr) (s : State) : Result :=
  whenConfigured s (readByteCommand s .txbuf s.composer.txbuf i)

end Sys2Proof.Machine
end

