-- ==== Sys2Proof/Machine/Control.lean ====
section
/-! DEFINITION. The control commands INIT, WRREG and RDREG (43_control.md). -/

namespace Sys2Proof.Machine

/-- INIT p (R240): every register and every buffer byte to its reset value, PEER to p. The configuration
and the ports are not touched (R292). -/
def execInit (p : Bool) (s : State) : Result :=
  whenConfigured s <|
    finish
      { s with
        parser := Parser.reset s.cfg
        idgen := IdGen.reset p
        composer := Composer.reset } 0

/-- WRREG r, v (R241): BAD_REG for an unassigned number and for an RO register. -/
def execWrreg (r : Addr) (v : Word) (s : State) : Result :=
  whenConfigured s <|
    match Reg.ofNumber r with
    | none => raise s .badReg
    | some reg =>
      match writeReg s.cfg s.composer reg v with
      | none => raise s .badReg
      | some k => finish { s with composer := k } 0

/-- RDREG r (R242): BAD_REG for an unassigned number. -/
def execRdreg (r : Addr) (s : State) : Result :=
  whenConfigured s <|
    match Reg.ofNumber r with
    | none => raise s .badReg
    | some reg => finish s (readReg s reg)

end Sys2Proof.Machine
end

