-- ==== Sys2Proof/Machine/Parser.lean ====
section
/-! DEFINITION. The frame parser: ACCEPT, TICK and RXB_RD (42_parser.md). A parser action takes the
configuration and the session and answers the session afterwards with the FRAME it emits, if any, or the
fault of an access outside RXBUF (log 8). It cannot touch the composer or the ID generator (R78, R180). -/

namespace Sys2Proof.Machine

/-- What a parser action answers. -/
abbrev ParserResult := Except Fault (Parser × Option Frame)

/-- `parserReset()` (R182): TICKS and RXBUF stay. -/
def parserReset (c : Config) (p : Parser) : Parser :=
  { p with
    pstate := .sof, rxi := 0, discard := false, rxId := 0, rxLen := 0, rxType := 0, rxRef := 0,
    rxCk := ckReset c.ckMode }

/-- `beginFrame()` (R183): the header checksum is seeded with the marker when there is one. -/
def beginFrame (c : Config) (p : Parser) : Parser :=
  { p with
    rxCk := if c.sofEn then ckAdd c.ckMode (ckReset c.ckMode) c.sofVal else ckReset c.ckMode
    discard := false, pstate := .id, rxi := 0 }

/-- `emitFrame()` (R197): the frame held in the session before the reset that follows. -/
def emitFrame (c : Config) (p : Parser) : Except Fault Frame :=
  match loadRun c .rxbuf p.rxbuf p.rxLen.toNat with
  | .error f => .error f
  | .ok payload => .ok { id := p.rxId, typ := p.rxType, len := p.rxLen, payload := payload }

/-- A frame completes: it is emitted when `dispatch` says so, and the parser resets (R184, R195, R196). -/
def endFrame (c : Config) (p : Parser) (dispatch : Bool) : ParserResult :=
  if dispatch then
    match emitFrame c p with
    | .error f => .error f
    | .ok f => .ok (parserReset c p, some f)
  else .ok (parserReset c p, none)

/-- `enterData()` (R184): the header is complete and verified, or not checksummed (C3, C4). -/
def enterData (c : Config) (p : Parser) : ParserResult :=
  if p.rxLen = 0 then endFrame c p true
  else
    .ok ({ p with
      pstate := .data, rxi := 0, rxCk := ckReset c.ckMode, discard := oversized c p.rxLen }, none)

/-- `stepSOF` (R190). -/
def stepSof (c : Config) (b : Byte) (p : Parser) : ParserResult :=
  if b = c.sofVal then .ok (beginFrame c p, none) else .ok (p, none)

/-- `stepID` (R191). -/
def stepId (c : Config) (b : Byte) (p : Parser) : ParserResult :=
  let p' := { p with
    rxCk := ckAdd c.ckMode p.rxCk b, rxId := shiftIn c.idw p.rxId b, rxi := p.rxi + 1 }
  if p'.rxi.toNat = c.idw then .ok ({ p' with pstate := .len, rxi := 0 }, none) else .ok (p', none)

/-- `stepLEN` (R192). -/
def stepLen (c : Config) (b : Byte) (p : Parser) : ParserResult :=
  let p' := { p with
    rxCk := ckAdd c.ckMode p.rxCk b, rxLen := shiftIn c.lenw p.rxLen b, rxi := p.rxi + 1 }
  if p'.rxi.toNat = c.lenw then .ok ({ p' with pstate := .type, rxi := 0 }, none) else .ok (p', none)

/-- `stepTYPE` (R193). -/
def stepType (c : Config) (b : Byte) (p : Parser) : ParserResult :=
  let p' := { p with
    rxCk := ckAdd c.ckMode p.rxCk b, rxType := shiftIn c.typew p.rxType b, rxi := p.rxi + 1 }
  if p'.rxi.toNat = c.typew then
    if c.ckMode = .none then enterData c p'
    else .ok ({ p' with pstate := .headCksum, rxi := 0, rxRef := 0 }, none)
  else .ok (p', none)

/-- `stepHEAD` (R194): a mismatch is a silent reset, and comes before the length (R265). -/
def stepHead (c : Config) (b : Byte) (p : Parser) : ParserResult :=
  let p' := { p with rxRef := shiftIn c.ckw p.rxRef b, rxi := p.rxi + 1 }
  if p'.rxi.toNat = c.ckw then
    if ckMatches c p' then enterData c p' else .ok (parserReset c p', none)
  else .ok (p', none)

/-- The payload byte of DATA (R195): stored at index RXI and fed to the checksum, unless discarding. -/
def takePayload (c : Config) (b : Byte) (p : Parser) : Except Fault Parser :=
  if p.discard then .ok p
  else
    match storeByte c .rxbuf p.rxbuf p.rxi.toNat b with
    | .error f => .error f
    | .ok m => .ok { p with rxCk := ckAdd c.ckMode p.rxCk b, rxbuf := m }

/-- `stepDATA` (R195). -/
def stepData (c : Config) (b : Byte) (p : Parser) : ParserResult :=
  match takePayload c b p with
  | .error f => .error f
  | .ok q =>
    let p' := { q with rxi := q.rxi + 1 }
    if p'.rxi = p'.rxLen then
      if c.ckMode = .none then endFrame c p' (!p'.discard)
      else .ok ({ p' with pstate := .dataCksum, rxi := 0, rxRef := 0 }, none)
    else .ok (p', none)

/-- `stepDCK` (R196). -/
def stepDck (c : Config) (b : Byte) (p : Parser) : ParserResult :=
  let p' := { p with rxRef := shiftIn c.ckw p.rxRef b, rxi := p.rxi + 1 }
  if p'.rxi.toNat = c.ckw then endFrame c p' (!p'.discard && ckMatches c p') else .ok (p', none)

/-- The timeout reset, before the byte (R187), and the idle counter's clear (R188). -/
def clearIdle (c : Config) (p : Parser) : Parser :=
  { (if timedOut c p then parserReset c p else p) with ticks := 0 }

/-- With no start marker, a byte that arrives in SOF begins a frame as its first ID byte (R189). -/
def openFrame (c : Config) (p : Parser) : Parser :=
  if c.sofEn = false ∧ p.pstate = .sof then beginFrame c p else p

/-- What ACCEPT does before the state step (R186). -/
def beforeByte (c : Config) (p : Parser) : Parser := openFrame c (clearIdle c p)

/-- The state step for one byte, by PSTATE (R186). -/
def stepByte (c : Config) (b : Byte) (p : Parser) : ParserResult :=
  match p.pstate with
  | .sof => stepSof c b p
  | .id => stepId c b p
  | .len => stepLen c b p
  | .type => stepType c b p
  | .headCksum => stepHead c b p
  | .data => stepData c b p
  | .dataCksum => stepDck c b p

/-- The parser's part of ACCEPT: exactly one state step (R186). -/
def acceptByte (c : Config) (b : Byte) (p : Parser) : ParserResult := stepByte c b (beforeByte c p)

/-- ACCEPT b (R186, R199, R200): always OK, with at most one FRAME. -/
def execAccept (b : Byte) (s : State) : Result :=
  whenConfigured s <|
    match acceptByte s.cfg b s.parser with
    | .error f => .fault f
    | .ok (p, ev) => finish ({ s with parser := p }.emit ev) 0

/-- The idle-tick counter after one TICK: saturating at TIMEOUT_TICKS (R201). -/
def Parser.tick (c : Config) (p : Parser) : Parser :=
  if timedOut c p then p else { p with ticks := p.ticks + 1 }

/-- TICK (R201). -/
def execTick (s : State) : Result :=
  whenConfigured s (finish { s with parser := s.parser.tick s.cfg } 0)

/-- RXB_RD i (R203). -/
def execRxbRd (i : Addr) (s : State) : Result :=
  whenConfigured s (readByteCommand s .rxbuf s.parser.rxbuf i)

end Sys2Proof.Machine
end

