-- ==== Sys2Proof/Machine/Dispatch.lean ====
section
/-! DEFINITION. The meaning of every command, one arm for each constructor of `Instr`. -/

namespace Sys2Proof.Machine

-- One direct call of a meaning for each command (30_encoding.md R83).
def exec (i : Instr) (s : State) : Host.Outcome State Fault Refusal :=
  match i with
  | .init p => Sys2Proof.Machine.execInit p s
  | .accept b => Sys2Proof.Machine.execAccept b s
  | .tick => Sys2Proof.Machine.execTick s
  | .compose e => Sys2Proof.Machine.execCompose e s
  | .wrreg r v => Sys2Proof.Machine.execWrreg r v s
  | .rdreg r => Sys2Proof.Machine.execRdreg r s
  | .txpWr k b => Sys2Proof.Machine.execTxpWr k b s
  | .txbRd k => Sys2Proof.Machine.execTxbRd k s
  | .rxbRd k => Sys2Proof.Machine.execRxbRd k s

end Sys2Proof.Machine
end

