-- ==== Sys2Proof/Machine/Step.lean ====
section
/-! DEFINITION. One step: take one command word from the command port, decode it and run it (30_encoding.md
R80, R86). There is no program counter and no fetch (10_state.md R22): the host's pending words are where
commands come from (log 4, log 5). -/

namespace Sys2Proof.Machine

/-- One step of the machine. -/
def step (s : State) : Host.Outcome State Fault Refusal :=
  match s.takeCommand with
  | none => hold s
  | some (w, s') =>
    match decode w with
    | .ok i => exec i s'
    | .error _ => answerIllegal s'

/-- The host issues the word next, before anything else pending: the very next step runs it (log 5). -/
def State.withFetchWord (s : State) (nbits w : Nat) : State :=
  { s with port := { s.port with pending := tableWord nbits w :: s.port.pending } }

end Sys2Proof.Machine
end

