-- ==== Sys2Proof/Machine/Pseudo.lean ====
section
/-! DEFINITION. The pseudo-instructions of the assembler (30_encoding.md R92-R95) as the command lists they
expand to, and the running of a list of commands one after the other (20_memory.md R70, R73). -/

namespace Sys2Proof.Machine

/-- Commands run in order; the first fault or refusal ends the list (R73). -/
def execAll : List Instr → State → Result
  | [], s => .next s
  | i :: is, s =>
    match exec i s with
    | .next t => execAll is t
    | .fault f => .fault f
    | .refused r => .refused r

/-- `ACCEPTBUF b0, ..., bk-1` (R92). -/
def acceptBuf (bs : List Byte) : List Instr := bs.map Instr.accept

/-- `TICKN k` (R95). -/
def tickN (k : Nat) : List Instr := List.replicate k Instr.tick

/-- Bytes with TICKs in between: for each pair (k, b), `TICKN k` and then `ACCEPT b`. -/
def feed (kbs : List (Nat × Byte)) : List Instr := kbs.flatMap fun e => tickN e.1 ++ [Instr.accept e.2]

/-- The TXP_WRs of SEND and RESPOND: the payload from index `k` on (R93). DESIGN CHOICE (log 20), unsafe: an
index of 2^24 or more has no encoding (R82); it is taken modulo 2^24. -/
def loadTxp : Nat → List Byte → List Instr
  | _, [] => []
  | k, b :: bs => .txpWr (BitVec.ofNat 24 k) b :: loadTxp (k + 1) bs

/-- `SEND type, [p0, ..., pL-1]` (R93): WRREG TX_TYPE is register 0x20, WRREG TX_LEN register 0x21 (R41).
DESIGN CHOICE (log 20), unsafe: with more than 2^24 payload bytes the indices of `loadTxp`, and with 2^32 or
more TX_LEN, are taken modulo their field's size. -/
def send (typ : Word) (payload : List Byte) : List Instr :=
  loadTxp 0 payload ++
    [.wrreg 0x000020 typ, .wrreg 0x000021 (BitVec.ofNat 32 payload.length), .compose false]

/-- `RESPOND id, type, [p0, ..., pL-1]` (R94): like SEND, with WRREG TX_ID (register 0x22) and COMPOSE 1.
DESIGN CHOICE (log 20), unsafe: with more than 2^24 payload bytes as `send`. -/
def respondWith (id typ : Word) (payload : List Byte) : List Instr :=
  loadTxp 0 payload ++
    [.wrreg 0x000020 typ, .wrreg 0x000021 (BitVec.ofNat 32 payload.length), .wrreg 0x000022 id,
      .compose true]

end Sys2Proof.Machine
end

