-- ==== Sys2Proof/Safety.lean ====
section
/-! DEFINITION. What claims are stated in terms of: the invariant of the machine (10_state.md R25-R40,
42_parser.md R204-R206, 30_encoding.md R84), and the states a host can bring the block to. -/

namespace Sys2Proof.Machine

/-- A container holds a value of `bits` bits (log 10). -/
abbrev Fits (bits : Nat) (v : Word) : Prop := v.toNat < 2 ^ bits

/-- A memory lists nothing outside its buffer, and is in canonical form. -/
abbrev Memory.Within (size : Nat) (m : Memory) : Prop := m.wf = true ∧ ∀ e ∈ m, e.1 < size

/-- The parser is idle as R204 describes it. -/
abbrev Parser.Idle (c : Config) (p : Parser) : Prop :=
  p.rxi = 0 ∧ p.discard = false ∧ p.rxId = 0 ∧ p.rxLen = 0 ∧ p.rxType = 0 ∧ p.rxRef = 0
    ∧ p.rxCk = ckReset c.ckMode

/-- The bound on RXI in each state (R205 (a), (b)). In SOF it is 0 (R204). -/
abbrev Parser.rxiBound (c : Config) (p : Parser) : Nat :=
  match p.pstate with
  | .sof => 1
  | .id => c.idw
  | .len => c.lenw
  | .type => c.typew
  | .headCksum => c.ckw
  | .data => p.rxLen.toNat
  | .dataCksum => c.ckw

/-- The parser collects or checks a payload: the two states in which DISCARD may be 1 (R205 (d)). -/
abbrev Parser.inPayload (p : Parser) : Prop := p.pstate = .data ∨ p.pstate = .dataCksum

/-- The parser's invariant. -/
structure Parser.Inv (c : Config) (p : Parser) : Prop where
  /-- R27 -/
  rxIdFits : Fits c.idBits p.rxId
  /-- R27 -/
  rxLenFits : Fits c.lenBits p.rxLen
  /-- R27 -/
  rxTypeFits : Fits c.typeBits p.rxType
  /-- R28: the bits above the variant's width are 0 -/
  rxCkFits : Fits c.ckBits p.rxCk
  /-- R29 -/
  rxRefFits : Fits c.ckBits p.rxRef
  /-- R33 -/
  ticksBound : p.ticks.toNat ≤ c.timeoutTicks
  /-- R204 -/
  idle : p.pstate = .sof → p.Idle c
  /-- R205 (a), (b), and with CKW = 0 also (e) -/
  rxiBelow : p.rxi.toNat < p.rxiBound c
  /-- R205 (c), (d) -/
  discardInPayload : p.inPayload → p.discard = decide (c.maxPayload < p.rxLen.toNat)
  /-- R205 (d) -/
  discardElsewhere : ¬ p.inPayload → p.discard = false
  /-- R60, R208 -/
  rxbufWithin : p.rxbuf.Within c.maxPayload

/-- The composer's invariant. -/
structure Composer.Inv (c : Config) (k : Composer) : Prop where
  /-- R36 -/
  txTypeFits : Fits c.typeBits k.txType
  /-- R38 -/
  txIdFits : Fits c.idBits k.txId
  /-- R40 -/
  txLastIdFits : Fits c.idBits k.txLastId
  /-- R39, R153 -/
  txCountBound : k.txCount.toNat ≤ c.txbufSize
  /-- R61 -/
  txpWithin : k.txp.Within c.maxPayload
  /-- R62, R153 -/
  txbufWithin : k.txbuf.Within c.txbufSize

/-- A FRAME event as R206 describes it, R209 included. -/
structure Frame.Ok (c : Config) (f : Frame) : Prop where
  idFits : Fits c.idBits f.id
  typFits : Fits c.typeBits f.typ
  lenBound : f.len.toNat ≤ c.maxPayload
  payloadLength : f.payload.length = f.len.toNat

/-- What has left the block so far: DATA is 0 with every status but OK (R84), every event is as R206 says
and belongs to a command that has been answered, and no command emitted two (R80, R199). -/
structure Port.Inv (c : Config) (q : Port) : Prop where
  errorDataZero : ∀ r ∈ q.responses, r.status ≠ .ok → r.data = 0
  framesOk : ∀ e ∈ q.frames, e.frame.Ok c
  indexAnswered : ∀ e ∈ q.frames, e.index < q.responses.length
  oneEach : q.frames.Pairwise fun e e' => e.index < e'.index

/-- The invariant of the machine. It rules out the states no run reaches. -/
structure State.Inv (s : State) : Prop where
  configWf : s.cfg.wf = true
  parser : s.parser.Inv s.cfg
  nextIdFits : Fits s.cfg.idBits s.idgen.nextId
  composer : s.composer.Inv s.cfg
  port : s.port.Inv s.cfg

/-- The states a host can bring a block of configuration `c` to: from power-on reset it may at any time
change what it is about to issue, and the block steps (R80, R300, R305). -/
inductive Reachable (c : Config) : State → Prop where
  | reset : Reachable c (State.resetWith c)
  | issue {s : State} (ws : List CmdWord) :
      Reachable c s → Reachable c { s with port := { s.port with pending := ws } }
  | step {s t : State} : Reachable c s → Sys2Proof.Machine.step s = .next t → Reachable c t

end Sys2Proof.Machine
end

