-- ==== Sys2Proof/Certificates/Slice0/Obligations.lean ====
section
/-! DEFINITION. The statements about the block, for the provers. Each docstring names the rules of spec/
that the statement formalises. OBLIGATIONS.json lists them. -/

open Sys2Proof Sys2Proof.Machine

/-! ## Encoding -/

/-- Every command's word decodes to that command, with every operand at every value (R81-R83). -/
def Obligations.DecodeOfEncodeIsTheCommand : Prop :=
  ∀ i : Instr, decode (encode i) = .ok i

/-- Each legal word has one meaning: it is the word of the command it decodes to (R88, D3). -/
def Obligations.EncodeOfDecodeIsTheWord : Prop :=
  ∀ (w : CmdWord) (i : Instr), decode w = .ok i → encode i = w

/-- R88: the nine (match, mask) rows decide which words are which command; at most one row matches a word;
an assigned opcode with a non-zero reserved field is answered with ILLEGAL and changes nothing. -/
def Obligations.WordIsCommandExactlyWhenItsRowMatches : Prop :=
  ∀ w : CmdWord,
    (∀ row ∈ ([(Op.init, 0x0100000000000000, 0xFFFFFFFFFFFFFFFE),
          (Op.accept, 0x0200000000000000, 0xFFFFFFFFFFFFFF00),
          (Op.tick, 0x0300000000000000, 0xFFFFFFFFFFFFFFFF),
          (Op.compose, 0x0400000000000000, 0xFFFFFFFEFFFFFFFF),
          (Op.wrreg, 0x0500000000000000, 0xFF00000000000000),
          (Op.rdreg, 0x0600000000000000, 0xFF000000FFFFFFFF),
          (Op.txpWr, 0x0700000000000000, 0xFF000000FFFFFF00),
          (Op.txbRd, 0x0800000000000000, 0xFF000000FFFFFFFF),
          (Op.rxbRd, 0x0900000000000000, 0xFF000000FFFFFFFF)] : List (Op × CmdWord × CmdWord)),
      ((∃ i, decode w = .ok i ∧ i.op = row.1) ↔ w &&& row.2.2 = row.2.1) ∧
      (opField w = row.1.byte → w &&& row.2.2 ≠ row.2.1 →
        decode w = .error .reservedField ∧
        ∀ (s : State) (rest : List CmdWord), s.cfg.wf = true → s.port.pending = w :: rest →
          step s = .next { s with port :=
            { pending := rest
              responses := s.port.responses ++ [{ status := .illegal, data := 0 }]
              frames := s.port.frames } })) ∧
    (∀ i j : Instr, decode w = .ok i → decode w = .ok j → i.op = j.op)

/-- R87: opcodes 0x00 and 0x0A-0xFF are reserved: ILLEGAL, nothing changes, no event. -/
def Obligations.ReservedOpcodeIsIllegal : Prop :=
  ∀ w : CmdWord, opField w = 0 ∨ 0x0A ≤ (opField w).toNat →
    decode w = .error .reservedOpcode ∧
    ∀ (s : State) (rest : List CmdWord), s.cfg.wf = true → s.port.pending = w :: rest →
      step s = .next { s with port :=
        { pending := rest
          responses := s.port.responses ++ [{ status := .illegal, data := 0 }]
          frames := s.port.frames } }

/-- Words written out from the fields of R81 and R83 decode to the commands they stand for. -/
def Obligations.WordsOfTheOpcodeMapDecode : Prop :=
  decode 0x0100000000000001 = .ok (.init true) ∧
  decode 0x0200000000000041 = .ok (.accept 0x41) ∧
  decode 0x0300000000000000 = .ok .tick ∧
  decode 0x0400000100000000 = .ok (.compose true) ∧
  decode 0x0500002200012345 = .ok (.wrreg 0x000022 0x00012345) ∧
  decode 0x06FFFFFF00000000 = .ok (.rdreg 0xFFFFFF) ∧
  decode 0x07000007000000AB = .ok (.txpWr 0x000007 0xAB) ∧
  decode 0x0800000E00000000 = .ok (.txbRd 0x00000E) ∧
  decode 0x0900001000000000 = .ok (.rxbRd 0x000010)

/-! ## The step -/

/-- A step takes the next pending word; when it decodes to a command, the step is that command's meaning
with the word taken from the port (R80, R86). -/
def Obligations.StepRunsTheDecodedCommand : Prop :=
  ∀ (s : State) (w : CmdWord) (rest : List CmdWord) (i : Instr),
    s.port.pending = w :: rest → decode w = .ok i →
      step s = exec i { s with port := { s.port with pending := rest } }

/-- R275, as the model reads it (log 6): with no command pending a step leaves the state unchanged. -/
def Obligations.StepHoldsStateWithoutCommand : Prop :=
  ∀ s : State, s.cfg.wf = true → s.port.pending = [] → step s = .next s

/-- R11 with R6-R9: the ranges that make a configuration well formed; any other is refused. That every command
and every step is where it is refused, a step with nothing pending included, is the model's choice (log 3):
R11 does not say at which point. -/
def Obligations.IllFormedConfigurationIsRefused : Prop :=
  ∀ s : State,
    (s.cfg.wf = true ↔
      (s.cfg.idw = 1 ∨ s.cfg.idw = 2 ∨ s.cfg.idw = 4) ∧
      (s.cfg.lenw = 1 ∨ s.cfg.lenw = 2 ∨ s.cfg.lenw = 4) ∧
      (s.cfg.typew = 1 ∨ s.cfg.typew = 2 ∨ s.cfg.typew = 4) ∧
      1 ≤ s.cfg.maxPayload ∧ s.cfg.maxPayload ≤ 2 ^ (8 * s.cfg.lenw) - 1 ∧
      s.cfg.maxPayload + ((if s.cfg.sofEn then 1 else 0) + s.cfg.idw + s.cfg.lenw + s.cfg.typew
        + 2 * s.cfg.ckw) ≤ 2 ^ 24 ∧
      1 ≤ s.cfg.timeoutTicks ∧ s.cfg.timeoutTicks ≤ 2 ^ 32 - 1) ∧
    (s.cfg.wf = false →
      (∀ i : Instr, exec i s = .refused .configIllFormed) ∧ step s = .refused .configIllFormed)

/-! ## The invariant and safety -/

/-- Power-on reset meets the invariant, at every configuration. -/
def Obligations.ResetMeetsTheInvariant : Prop :=
  (∀ c : Config, c.wf = true → (State.resetWith c).Inv) ∧ State.reset.Inv

/-- Every step keeps the invariant: register widths (R27-R29, R35-R40), the tick bound (R33), the idle
values (R204), R205, buffer bounds and canonical memories (R60-R62), and what has left the ports
(R84, R199, R206, R209). -/
def Obligations.StepKeepsTheInvariant : Prop :=
  ∀ s t : State, s.Inv → step s = .next t → t.Inv

/-- In every state that meets the invariant, whatever the host has issued, a step answers a next state:
no access leaves a buffer (R153, R208) and nothing stops the block (R260). -/
def Obligations.StepNeverStops : Prop :=
  ∀ s : State, s.Inv → ∃ t, step s = .next t

/-- R204 and R205 (a) to (f): in every state a host can bring the block to. -/
def Obligations.ReachableStatesMeetTheParserRules : Prop :=
  ∀ (c : Config) (s : State), c.wf = true → Reachable c s →
    (s.parser.pstate = .sof →
      s.parser.rxi = 0 ∧ s.parser.discard = false ∧ s.parser.rxId = 0 ∧ s.parser.rxLen = 0 ∧
      s.parser.rxType = 0 ∧ s.parser.rxRef = 0 ∧ s.parser.rxCk = ckReset c.ckMode) ∧
    (s.parser.pstate = .id → s.parser.rxi.toNat < c.idw) ∧
    (s.parser.pstate = .len → s.parser.rxi.toNat < c.lenw) ∧
    (s.parser.pstate = .type → s.parser.rxi.toNat < c.typew) ∧
    (s.parser.pstate = .headCksum ∨ s.parser.pstate = .dataCksum → s.parser.rxi.toNat < c.ckw) ∧
    (s.parser.pstate = .data →
      s.parser.rxi.toNat < s.parser.rxLen.toNat ∧ 1 ≤ s.parser.rxLen.toNat) ∧
    (s.parser.pstate = .data → s.parser.discard = false →
      s.parser.rxLen.toNat ≤ c.maxPayload ∧ s.parser.rxi.toNat < c.maxPayload) ∧
    (s.parser.discard = true →
      (s.parser.pstate = .data ∨ s.parser.pstate = .dataCksum) ∧
      c.maxPayload < s.parser.rxLen.toNat) ∧
    (c.ckMode = .none → s.parser.pstate ≠ .headCksum ∧ s.parser.pstate ≠ .dataCksum) ∧
    s.parser.pstate.code ≠ 7

/-- R260: every command, a word that is no command included, ends with one response, and one that ends with a
non-OK status has DATA 0, has changed no state and emitted no event. -/
def Obligations.EveryCommandAnswersAndErrorsArePrecise : Prop :=
  (∀ (s : State) (w : CmdWord) (rest : List CmdWord), s.Inv → s.port.pending = w :: rest →
    ∃ (t : State) (r : Response), step s = .next t ∧ t.port.responses = s.port.responses ++ [r] ∧
      (r.status ≠ .ok → r.data = 0 ∧
        t = { s with port :=
          { pending := rest
            responses := s.port.responses ++ [r]
            frames := s.port.frames } })) ∧
  (∀ (i : Instr) (s : State), s.Inv → ∃ t, exec i s = .next t) ∧
  (∀ (i : Instr) (s t : State), exec i s = .next t →
    ∃ r : Response, t.port.responses = s.port.responses ++ [r] ∧
      (r.status ≠ .ok →
        r.data = 0 ∧
        t = { s with port := { s.port with responses := s.port.responses ++ [r] } }))

/-- Which commands can raise which status (R85, R261): ACCEPT, TICK and INIT only OK. -/
def Obligations.StatusesBelongToTheirCommands : Prop :=
  ∀ (i : Instr) (s t : State) (r : Response), exec i s = .next t →
    t.port.responses = s.port.responses ++ [r] →
      r.status ≠ .illegal ∧
      (r.status = .payloadTooLarge → ∃ e, i = .compose e) ∧
      (r.status = .badReg → (∃ n v, i = .wrreg n v) ∨ ∃ n, i = .rdreg n) ∧
      (r.status = .badAddr →
        (∃ k b, i = .txpWr k b) ∨ (∃ k, i = .txbRd k) ∨ ∃ k, i = .rxbRd k)

/-- Only ACCEPT emits a FRAME, at most one, tagged with its own index, and then the parser is idle
(R80, R199, R206). That the index is the number of responses before it is the model's choice (log 7). No
command changes the configuration or what the host has still to issue. -/
def Obligations.OnlyAcceptEmitsAndAtMostOneFrame : Prop :=
  ∀ (i : Instr) (s t : State), exec i s = .next t →
    t.cfg = s.cfg ∧ t.port.pending = s.port.pending ∧
    (t.port.frames = s.port.frames ∨
      ∃ (b : Byte) (f : Frame), i = .accept b ∧
        t.port.frames = s.port.frames ++ [{ index := s.port.responses.length, frame := f }] ∧
        t.parser.pstate = .sof ∧ t.parser.Idle t.cfg)

/-- Who writes what (R31, R34, R35, R39, R40, R60-R62): the parser session only ACCEPT, TICK (TICKS only)
and INIT; PEER only INIT; NEXT_ID only COMPOSE 0 and INIT; TX_COUNT, TX_LAST_ID and TXBUF only COMPOSE and
INIT; TXP only TXP_WR and INIT; the operand registers only WRREG and INIT. -/
def Obligations.EachRegisterHasItsWriters : Prop :=
  ∀ (i : Instr) (s t : State), exec i s = .next t → (∀ p, i ≠ .init p) →
    (t.parser ≠ s.parser →
      (∃ b, i = .accept b) ∨ (i = .tick ∧ t.parser = { s.parser with ticks := t.parser.ticks })) ∧
    t.idgen.peer = s.idgen.peer ∧
    (t.idgen.nextId ≠ s.idgen.nextId → i = .compose false) ∧
    (t.composer.txCount ≠ s.composer.txCount ∨ t.composer.txLastId ≠ s.composer.txLastId ∨
      t.composer.txbuf ≠ s.composer.txbuf → ∃ e, i = .compose e) ∧
    (t.composer.txp ≠ s.composer.txp → ∃ k b, i = .txpWr k b) ∧
    (t.composer.txType ≠ s.composer.txType ∨ t.composer.txLen ≠ s.composer.txLen ∨
      t.composer.txId ≠ s.composer.txId → ∃ n v, i = .wrreg n v)

/-! ## Reset and the control commands -/

/-- R240: INIT p, its word and its effect, from any state. -/
def Obligations.InitInitialisesTheWholeBlock : Prop :=
  ∀ (p : Bool) (s : State), s.cfg.wf = true →
    decode ((0x01 : BitVec 8) ++ (0 : BitVec 24) ++ (if p then 1 else 0 : BitVec 32)) = .ok (.init p) ∧
    ∃ t, exec (.init p) s = .next t ∧
      t.parser.pstate = .sof ∧ t.parser.rxi = 0 ∧ t.parser.discard = false ∧
      t.parser.rxId = 0 ∧ t.parser.rxLen = 0 ∧ t.parser.rxType = 0 ∧ t.parser.rxRef = 0 ∧
      t.parser.rxCk = ckReset s.cfg.ckMode ∧ t.parser.ticks = 0 ∧
      t.idgen.nextId = 0 ∧ t.idgen.peer = p ∧
      t.composer.txType = 0 ∧ t.composer.txLen = 0 ∧ t.composer.txId = 0 ∧
      t.composer.txCount = 0 ∧ t.composer.txLastId = 0 ∧
      (∀ a, t.parser.rxbuf.read a = 0 ∧ t.composer.txp.read a = 0 ∧ t.composer.txbuf.read a = 0) ∧
      t.cfg = s.cfg ∧
      t.port = { s.port with responses := s.port.responses ++ [{ status := .ok, data := 0 }] }

/-- R292: power-on reset and INIT differ only in PEER, and neither touches the configuration. -/
def Obligations.PowerOnResetAndInitDifferOnlyInPeer : Prop :=
  ∀ (p : Bool) (s t : State), exec (.init p) s = .next t →
    t.parser = (State.resetWith s.cfg).parser ∧
    t.composer = (State.resetWith s.cfg).composer ∧
    t.idgen = { (State.resetWith s.cfg).idgen with peer := p } ∧
    t.cfg = s.cfg ∧ (State.resetWith s.cfg).cfg = s.cfg ∧
    (State.resetWith s.cfg).idgen.peer = false

/-- R241: WRREG's word; it writes TX_TYPE, TX_LEN and TX_ID, dropping the bits above the register's width; every other
register and every unassigned number is BAD_REG. -/
def Obligations.WrregWritesOperandRegistersOnly : Prop :=
  ∀ (r : Addr) (v : Word) (s : State), s.cfg.wf = true →
    decode ((0x05 : BitVec 8) ++ r ++ v) = .ok (.wrreg r v) ∧
    (r = 0x000020 → exec (.wrreg r v) s = .next (({ s with composer :=
        { s.composer with txType := BitVec.ofNat 32 (v.toNat % 2 ^ (8 * s.cfg.typew)) } } : State).respond .ok 0)) ∧
    (r = 0x000021 → exec (.wrreg r v) s = .next (({ s with composer :=
        { s.composer with txLen := v } } : State).respond .ok 0)) ∧
    (r = 0x000022 → exec (.wrreg r v) s = .next (({ s with composer :=
        { s.composer with txId := BitVec.ofNat 32 (v.toNat % 2 ^ (8 * s.cfg.idw)) } } : State).respond .ok 0)) ∧
    (r ≠ 0x000020 → r ≠ 0x000021 → r ≠ 0x000022 →
      exec (.wrreg r v) s = .next (s.respond .badReg 0))

/-- R242 with the map of R41 and the PSTATE codes of R25: RDREG's word, the value of each of the twenty
registers, and BAD_REG for every other number; no state changes. -/
def Obligations.RdregReadsTheRegisterMap : Prop :=
  ∀ (r : Addr) (s : State), s.Inv →
    decode ((0x06 : BitVec 8) ++ r ++ (0 : BitVec 32)) = .ok (.rdreg r) ∧
    (∀ e ∈ ([(0x000001, BitVec.ofNat 32 s.cfg.maxPayload),
          (0x000002, BitVec.ofNat 32 s.cfg.timeoutTicks),
          (0x000010, if s.idgen.peer then 1 else 0),
          (0x000011, s.idgen.nextId),
          (0x000020, s.composer.txType),
          (0x000021, s.composer.txLen),
          (0x000022, s.composer.txId),
          (0x000023, s.composer.txCount),
          (0x000024, s.composer.txLastId),
          (0x000030, match s.parser.pstate with
            | .sof => 0
            | .id => 1
            | .len => 2
            | .type => 3
            | .headCksum => 4
            | .data => 5
            | .dataCksum => 6),
          (0x000031, s.parser.rxi),
          (0x000032, s.parser.rxId),
          (0x000033, s.parser.rxLen),
          (0x000034, s.parser.rxType),
          (0x000035, s.parser.rxCk),
          (0x000036, s.parser.rxRef),
          (0x000037, if s.parser.discard then 1 else 0),
          (0x000038, s.parser.ticks)] : List (Addr × Word)),
      exec (.rdreg e.1) s = .next (s.respond .ok e.2)) ∧
    exec (.rdreg 0x000000) s = .next (s.respond .ok (cfg0Value s.cfg)) ∧
    exec (.rdreg 0x000003) s = .next (s.respond .ok (cfg3Value s.cfg)) ∧
    (r ∉ ([0x000000, 0x000001, 0x000002, 0x000003, 0x000010, 0x000011, 0x000020, 0x000021, 0x000022,
        0x000023, 0x000024, 0x000030, 0x000031, 0x000032, 0x000033, 0x000034, 0x000035, 0x000036,
        0x000037, 0x000038] : List Addr) →
      exec (.rdreg r) s = .next (s.respond .badReg 0))

/-- The layouts of CFG0 and CFG3 (R41): every field at its bits, all other bits 0. -/
def Obligations.ConfigurationReadbackLayout : Prop :=
  ∀ c : Config, c.wf = true →
    ((cfg0Value c).extractLsb' 0 3).toNat = c.idw ∧
    ((cfg0Value c).extractLsb' 4 3).toNat = c.lenw ∧
    ((cfg0Value c).extractLsb' 8 3).toNat = c.typew ∧
    ((cfg0Value c).extractLsb' 12 2).toNat =
      (match c.ckMode with | .none => 0 | .xor8 => 1 | .crc16 => 2 | .crc32 => 3) ∧
    (cfg0Value c).getLsbD 16 = c.sofEn ∧
    (cfg0Value c).extractLsb' 24 8 = c.sofVal ∧
    cfg0Value c &&& 0x00FEC888 = 0 ∧
    ((cfg3Value c).extractLsb' 0 3).toNat = c.ckw ∧
    ((cfg3Value c).extractLsb' 8 8).toNat =
      (if c.sofEn then 1 else 0) + c.idw + c.lenw + c.typew + 2 * c.ckw ∧
    cfg3Value c &&& 0xFFFF00F8 = 0

/-! ## The buffer commands -/

/-- R151: TXP_WR's word; in every state of the invariant it completes, writing byte i of TXP and nothing else, or
answers BAD_ADDR outside. -/
def Obligations.TxpWrWritesOneByte : Prop :=
  ∀ (i : Addr) (b : Byte) (s : State), s.Inv →
    decode ((0x07 : BitVec 8) ++ i ++ b.setWidth 32) = .ok (.txpWr i b) ∧
    (s.cfg.maxPayload ≤ i.toNat → exec (.txpWr i b) s = .next (s.respond .badAddr 0)) ∧
    (i.toNat < s.cfg.maxPayload →
      ∃ m : Memory, exec (.txpWr i b) s =
          .next (({ s with composer := { s.composer with txp := m } } : State).respond .ok 0) ∧
        m.read i.toNat = b ∧ ∀ a, a ≠ i.toNat → m.read a = s.composer.txp.read a)

/-- R152: TXB_RD's word; it returns byte i of TXBUF, zero-extended; BAD_ADDR outside; no state changes. -/
def Obligations.TxbRdReadsTheStagingBuffer : Prop :=
  ∀ (i : Addr) (s : State), s.cfg.wf = true →
    decode ((0x08 : BitVec 8) ++ i ++ (0 : BitVec 32)) = .ok (.txbRd i) ∧
    (s.cfg.maxPayload + s.cfg.overheadBytes ≤ i.toNat →
      exec (.txbRd i) s = .next (s.respond .badAddr 0)) ∧
    (i.toNat < s.cfg.maxPayload + s.cfg.overheadBytes →
      exec (.txbRd i) s =
        .next (s.respond .ok (BitVec.ofNat 32 (s.composer.txbuf.read i.toNat).toNat)))

/-- R203: RXB_RD's word; it returns byte i of RXBUF, zero-extended; BAD_ADDR outside; no state changes. -/
def Obligations.RxbRdReadsThePayloadBuffer : Prop :=
  ∀ (i : Addr) (s : State), s.cfg.wf = true →
    decode ((0x09 : BitVec 8) ++ i ++ (0 : BitVec 32)) = .ok (.rxbRd i) ∧
    (s.cfg.maxPayload ≤ i.toNat → exec (.rxbRd i) s = .next (s.respond .badAddr 0)) ∧
    (i.toNat < s.cfg.maxPayload →
      exec (.rxbRd i) s =
        .next (s.respond .ok (BitVec.ofNat 32 (s.parser.rxbuf.read i.toNat).toNat)))

/-- No read has a side effect (R69): RDREG, TXB_RD and RXB_RD change nothing but the response port. -/
def Obligations.ReadsHaveNoSideEffect : Prop :=
  ∀ (i : Instr) (s t : State),
    (∃ n, i = .rdreg n) ∨ (∃ k, i = .txbRd k) ∨ (∃ k, i = .rxbRd k) → exec i s = .next t →
      t.cfg = s.cfg ∧ t.parser = s.parser ∧ t.idgen = s.idgen ∧ t.composer = s.composer ∧
      t.port.pending = s.port.pending ∧ t.port.frames = s.port.frames

/-- Two canonical memories that read alike at every index are the same data. -/
def Obligations.CanonicalMemoriesAreExtensional : Prop :=
  ∀ m m' : Memory, m.wf = true → m'.wf = true → (∀ a, m.read a = m'.read a) → m = m'

/-! ## Checksums and byte order -/

/-- R118: the table-driven update equals the bitwise form, for every accumulator and byte, for both CRCs
(R122: "The bitwise form is as in rule R118 with P32"). -/
def Obligations.TableDrivenCrcEqualsBitwise : Prop :=
  (∀ (acc : BitVec 16) (b : Byte), crcAdd P16 acc b = crcSteps8 P16 (acc ^^^ b.setWidth 16)) ∧
  (∀ (acc : BitVec 32) (b : Byte), crcAdd P32 acc b = crcSteps8 P32 (acc ^^^ b.setWidth 32))

/-- The check values the spec computes for ASCII "123456789" (R115, R118, R122). -/
def Obligations.ChecksumCheckValues : Prop :=
  ckOf .xor8 [0x31, 0x32, 0x33, 0x34, 0x35, 0x36, 0x37, 0x38, 0x39] = 0xCE ∧
  ckOf .crc16 [0x31, 0x32, 0x33, 0x34, 0x35, 0x36, 0x37, 0x38, 0x39] = 0xBB3D ∧
  ckOf .crc32 [0x31, 0x32, 0x33, 0x34, 0x35, 0x36, 0x37, 0x38, 0x39] = 0xCBF43926

/-- The XOR8 corner cases of R115: empty, one byte, order, cancelling, and the pair of equal changes that
is not detected; and the CRC16 run of zero bytes of R119. -/
def Obligations.ChecksumCornerCases : Prop :=
  ckOf .xor8 [] = 0xFF ∧
  (∀ b : Byte, ckOf .xor8 [b] = (~~~ b).setWidth 32) ∧
  (∀ bs bs' : List Byte, bs.Perm bs' → ckOf .xor8 bs = ckOf .xor8 bs') ∧
  (∀ (b : Byte) (bs : List Byte), ckOf .xor8 (b :: b :: bs) = ckOf .xor8 bs) ∧
  (∀ (x a b : Byte) (bs : List Byte),
    ckOf .xor8 ((a ^^^ x) :: (b ^^^ x) :: bs) = ckOf .xor8 (a :: b :: bs)) ∧
  (∀ (n : Nat) (bs : List Byte), ckOf .crc16 (List.replicate n 0 ++ bs) = ckOf .crc16 bs)

/-- All three variants detect every change of a single byte, so every single-bit error (R115, R212, G8). -/
def Obligations.SingleByteChangeIsDetected : Prop :=
  ∀ (m : CkMode) (xs ys : List Byte) (b b' : Byte), m ≠ .none → b ≠ b' →
    ckOf m (xs ++ b :: ys) ≠ ckOf m (xs ++ b' :: ys)

/-- R185 with R16: after N bytes a field holds the N bytes read as a big-endian number, from whatever it
held before; and the composer's bytes of a value give the value back. -/
def Obligations.FieldsAreBigEndian : Prop :=
  ∀ n : Nat, 1 ≤ n → n ≤ 4 →
    (∀ (acc : Word) (bs : List Byte), bs.length = n →
      (bs.foldl (shiftIn n) acc).toNat = bs.foldl (fun v b => v * 256 + b.toNat) 0) ∧
    (∀ v : Word, (beBytes n v).length = n ∧
      (beBytes n v).foldl (fun v b => v * 256 + b.toNat) 0 = v.toNat % 2 ^ (8 * n))

/-! ## The composer -/

/-- R145: too long a payload is PAYLOAD_TOO_LARGE, and a failed COMPOSE changes nothing. -/
def Obligations.ComposeTooLargeChangesNothing : Prop :=
  ∀ (e : Bool) (s : State), s.cfg.wf = true → s.cfg.maxPayload < s.composer.txLen.toNat →
    exec (.compose e) s = .next (s.respond .payloadTooLarge 0)

/-- R147, R148: a successful COMPOSE writes the frame into TXBUF bytes 0 to n-1, leaves the bytes from n on,
sets TX_COUNT and TX_LAST_ID, answers n, and changes nothing else but the ID generator (R146, R299). -/
def Obligations.ComposeWritesTheFrame : Prop :=
  ∀ (e : Bool) (s : State), s.Inv → s.composer.txLen.toNat ≤ s.cfg.maxPayload →
    ∃ (t : State) (hdr payload out : List Byte) (id : Word),
      exec (.compose e) s = .next t ∧
      id = (if e then s.composer.txId else generatedId s.cfg s.idgen) ∧
      hdr = (if s.cfg.sofEn then [s.cfg.sofVal] else []) ++ beBytes s.cfg.idw id
        ++ beBytes s.cfg.lenw s.composer.txLen ++ beBytes s.cfg.typew s.composer.txType ∧
      payload.length = s.composer.txLen.toNat ∧
      (∀ j, j < payload.length → payload[j]? = some (s.composer.txp.read j)) ∧
      out = hdr
        ++ (if s.cfg.ckMode = .none then [] else beBytes s.cfg.ckw (ckOf s.cfg.ckMode hdr))
        ++ payload
        ++ (if s.cfg.ckMode ≠ .none ∧ 0 < payload.length
            then beBytes s.cfg.ckw (ckOf s.cfg.ckMode payload) else []) ∧
      out.length = s.cfg.frameLen s.composer.txLen.toNat ∧
      out.length ≤ s.cfg.maxPayload + s.cfg.overheadBytes ∧
      (∀ k, k < out.length → out[k]? = some (t.composer.txbuf.read k)) ∧
      (∀ k, out.length ≤ k → t.composer.txbuf.read k = s.composer.txbuf.read k) ∧
      t.composer = { s.composer with
        txbuf := t.composer.txbuf
        txCount := BitVec.ofNat 32 out.length
        txLastId := BitVec.ofNat 32 (id.toNat % 2 ^ (8 * s.cfg.idw)) } ∧
      t.idgen = { s.idgen with nextId := t.idgen.nextId } ∧
      t.parser = s.parser ∧ t.cfg = s.cfg ∧
      t.port = { s.port with responses :=
        s.port.responses ++ [{ status := .ok, data := BitVec.ofNat 32 out.length }] }

/-- R141, R146: COMPOSE 1 sends TX_ID as it is and leaves the ID generator; COMPOSE 0 sends the counter's
low IDB-1 bits under the peer bit and advances the counter modulo 2^IDB. -/
def Obligations.ComposeResolvesTheId : Prop :=
  ∀ s : State, s.Inv → s.composer.txLen.toNat ≤ s.cfg.maxPayload →
    (∃ t, exec (.compose true) s = .next t ∧
      t.composer.txLastId = s.composer.txId ∧ t.idgen = s.idgen) ∧
    (∃ t, exec (.compose false) s = .next t ∧
      t.composer.txLastId.toNat = s.idgen.nextId.toNat % 2 ^ (8 * s.cfg.idw - 1)
        + (if s.idgen.peer then 2 ^ (8 * s.cfg.idw - 1) else 0) ∧
      t.idgen.nextId.toNat = (s.idgen.nextId.toNat + 1) % 2 ^ (8 * s.cfg.idw) ∧
      t.idgen.peer = s.idgen.peer)

/-- R143: every generated ID has bit IDB-1 equal to PEER, so two blocks with different PEER never generate
the same ID. -/
def Obligations.GeneratedIdsArePartitionedByPeer : Prop :=
  ∀ s t s' t' : State,
    s.cfg.wf = true → s'.cfg.wf = true → s'.cfg.idw = s.cfg.idw →
    s.composer.txLen.toNat ≤ s.cfg.maxPayload → s'.composer.txLen.toNat ≤ s'.cfg.maxPayload →
    exec (.compose false) s = .next t → exec (.compose false) s' = .next t' →
      t.composer.txLastId.getLsbD (8 * s.cfg.idw - 1) = s.idgen.peer ∧
      (s.idgen.peer ≠ s'.idgen.peer → t.composer.txLastId ≠ t'.composer.txLastId)

/-- R142: NEXT_ID counts modulo 2^IDB, and the generated IDs repeat with period 2^(IDB-1). -/
def Obligations.GeneratedIdsRepeatWithTheirPeriod : Prop :=
  ∀ (c : Config) (g : IdGen) (n : Nat), c.wf = true → Fits c.idBits g.nextId →
    ((IdGen.advance c)^[n] g).nextId.toNat = (g.nextId.toNat + n) % 2 ^ (8 * c.idw) ∧
    (generatedId c g).toNat % 2 ^ (8 * c.idw - 1) = g.nextId.toNat % 2 ^ (8 * c.idw - 1) ∧
    generatedId c ((IdGen.advance c)^[2 ^ (8 * c.idw - 1)] g) = generatedId c g

/-- R93, R94: SEND loads the payload and the operands and composes the frame of exactly that type and payload,
with a generated ID; RESPOND does the same with the explicit ID, truncated to its register's width (R241), and
leaves the ID generator. -/
def Obligations.SendComposesItsPayload : Prop :=
  ∀ (id typ : Word) (payload : List Byte) (s : State), s.Inv → payload.length ≤ s.cfg.maxPayload →
    (∃ (t : State) (n : Nat), execAll (send typ payload) s = .next t ∧
      t.composer.txCount = BitVec.ofNat 32 n ∧ n = s.cfg.frameLen payload.length ∧
      t.composer.txbuf.readRun 0 n = serialize s.cfg (generatedId s.cfg s.idgen)
        (BitVec.ofNat 32 payload.length) (trunc s.cfg.typeBits typ) payload ∧
      t.composer.txLastId = generatedId s.cfg s.idgen ∧ t.idgen = s.idgen.advance s.cfg ∧
      t.parser = s.parser ∧
      t.port.responses.getLast? = some { status := .ok, data := BitVec.ofNat 32 n }) ∧
    (∃ (t : State) (n : Nat), execAll (respondWith id typ payload) s = .next t ∧
      t.composer.txCount = BitVec.ofNat 32 n ∧ n = s.cfg.frameLen payload.length ∧
      t.composer.txbuf.readRun 0 n = serialize s.cfg (trunc s.cfg.idBits id)
        (BitVec.ofNat 32 payload.length) (trunc s.cfg.typeBits typ) payload ∧
      t.composer.txLastId = trunc s.cfg.idBits id ∧ t.idgen = s.idgen ∧
      t.parser = s.parser ∧
      t.port.responses.getLast? = some { status := .ok, data := BitVec.ofNat 32 n })

/-! ## The parser, state by state -/

/-- ACCEPT always completes with (OK, 0), clears TICKS, and leaves the composer and the ID generator alone
(R78, R186, R188, R200). -/
def Obligations.AcceptAlwaysAnswersOk : Prop :=
  ∀ (b : Byte) (s : State), s.Inv →
    ∃ t, exec (.accept b) s = .next t ∧
      t.port.responses = s.port.responses ++ [{ status := .ok, data := 0 }] ∧
      t.parser.ticks = 0 ∧ t.cfg = s.cfg ∧ t.idgen = s.idgen ∧ t.composer = s.composer ∧
      t.port.pending = s.port.pending

/-- R187: when TICKS has reached TIMEOUT_TICKS, and only then, ACCEPT does what it would do with the parser
reset before the byte; the partial frame is gone. -/
def Obligations.TimeoutResetsBeforeTheByte : Prop :=
  ∀ (b : Byte) (s : State),
    (s.parser.ticks.toNat < s.cfg.timeoutTicks →
      exec (.accept b) s = exec (.accept b) { s with parser := { s.parser with ticks := 0 } }) ∧
    (s.cfg.timeoutTicks ≤ s.parser.ticks.toNat →
    exec (.accept b) s = exec (.accept b) { s with parser :=
      { pstate := .sof
        rxi := 0
        rxId := 0
        rxLen := 0
        rxType := 0
        rxCk := ckReset s.cfg.ckMode
        rxRef := 0
        discard := false
        ticks := 0
        rxbuf := s.parser.rxbuf } })

/-- R190, R189, R183: a byte in SOF. With a marker, any other byte is discarded and the marker begins a
frame seeded with itself; without one, the byte is the first ID byte (R191). -/
def Obligations.ByteInSof : Prop :=
  ∀ (b : Byte) (s : State), s.Inv → s.parser.pstate = .sof →
    (s.cfg.sofEn = true → b ≠ s.cfg.sofVal →
      exec (.accept b) s =
        .next (({ s with parser := { s.parser with ticks := 0 } } : State).respond .ok 0)) ∧
    (s.cfg.sofEn = true → b = s.cfg.sofVal →
      exec (.accept b) s = .next (({ s with parser := { s.parser with
          ticks := 0, pstate := .id,
          rxCk := ckAdd s.cfg.ckMode (ckReset s.cfg.ckMode) b } } : State).respond .ok 0)) ∧
    (s.cfg.sofEn = false →
      exec (.accept b) s = .next (({ s with parser := { s.parser with
          ticks := 0
          pstate := if s.cfg.idw = 1 then .len else .id
          rxi := if s.cfg.idw = 1 then 0 else 1
          rxCk := ckAdd s.cfg.ckMode (ckReset s.cfg.ckMode) b
          rxId := b.setWidth 32 } } : State).respond .ok 0))

/-- R191, R192: a byte in ID and in LEN. The byte goes into the running checksum and the field; the field's
last byte advances the state. -/
def Obligations.ByteInIdOrLen : Prop :=
  ∀ (b : Byte) (s : State), s.Inv → s.parser.ticks.toNat < s.cfg.timeoutTicks →
    (s.parser.pstate = .id →
      exec (.accept b) s = .next (({ s with parser := { s.parser with
          ticks := 0
          rxCk := ckAdd s.cfg.ckMode s.parser.rxCk b
          rxId := shiftIn s.cfg.idw s.parser.rxId b
          pstate := if s.parser.rxi.toNat + 1 = s.cfg.idw then .len else .id
          rxi := if s.parser.rxi.toNat + 1 = s.cfg.idw then 0 else s.parser.rxi + 1 } } : State).respond .ok 0)) ∧
    (s.parser.pstate = .len →
      exec (.accept b) s = .next (({ s with parser := { s.parser with
          ticks := 0
          rxCk := ckAdd s.cfg.ckMode s.parser.rxCk b
          rxLen := shiftIn s.cfg.lenw s.parser.rxLen b
          pstate := if s.parser.rxi.toNat + 1 = s.cfg.lenw then .type else .len
          rxi := if s.parser.rxi.toNat + 1 = s.cfg.lenw then 0 else s.parser.rxi + 1 } } : State).respond .ok 0))

/-- R193: a byte in TYPE, before the field's last byte, at the last byte with a checksum, and at the last
byte with CK_MODE = NONE (R184: an empty frame is complete; otherwise DATA, with DISCARD for an oversized
length). The emitted event's index, the number of responses before it, is the model's choice (log 7). -/
def Obligations.ByteInType : Prop :=
  ∀ (b : Byte) (s : State), s.Inv → s.parser.ticks.toNat < s.cfg.timeoutTicks → s.parser.pstate = .type →
    (s.parser.rxi.toNat + 1 ≠ s.cfg.typew →
      exec (.accept b) s = .next (({ s with parser := { s.parser with
          ticks := 0
          rxCk := ckAdd s.cfg.ckMode s.parser.rxCk b
          rxType := shiftIn s.cfg.typew s.parser.rxType b
          rxi := s.parser.rxi + 1 } } : State).respond .ok 0)) ∧
    (s.parser.rxi.toNat + 1 = s.cfg.typew → s.cfg.ckMode ≠ .none →
      exec (.accept b) s = .next (({ s with parser := { s.parser with
          ticks := 0
          rxCk := ckAdd s.cfg.ckMode s.parser.rxCk b
          rxType := shiftIn s.cfg.typew s.parser.rxType b
          pstate := .headCksum, rxi := 0, rxRef := 0 } } : State).respond .ok 0)) ∧
    (s.parser.rxi.toNat + 1 = s.cfg.typew → s.cfg.ckMode = .none → s.parser.rxLen ≠ 0 →
      exec (.accept b) s = .next (({ s with parser := { s.parser with
          ticks := 0
          rxCk := 0
          rxType := shiftIn s.cfg.typew s.parser.rxType b
          pstate := .data, rxi := 0
          discard := decide (s.cfg.maxPayload < s.parser.rxLen.toNat) } } : State).respond .ok 0)) ∧
    (s.parser.rxi.toNat + 1 = s.cfg.typew → s.cfg.ckMode = .none → s.parser.rxLen = 0 →
      exec (.accept b) s = .next { s with
        parser := { pstate := .sof
                    rxi := 0
                    rxId := 0
                    rxLen := 0
                    rxType := 0
                    rxCk := 0
                    rxRef := 0
                    discard := false
                    ticks := 0
                    rxbuf := s.parser.rxbuf }
        port := { s.port with
          responses := s.port.responses ++ [{ status := .ok, data := 0 }]
          frames := s.port.frames ++ [{ index := s.port.responses.length, frame :=
            { id := s.parser.rxId, typ := shiftIn s.cfg.typew s.parser.rxType b, len := 0,
              payload := [] } }] } })

/-- R194 with R184: a byte in HEAD_CKSUM. At the last byte, a mismatch is a silent reset with no event,
whatever the length (R265); a match completes an empty frame or enters DATA with a fresh checksum. The
emitted event's index, the number of responses before it, is the model's choice (log 7). -/
def Obligations.ByteInHeadCksum : Prop :=
  ∀ (b : Byte) (s : State), s.Inv → s.parser.ticks.toNat < s.cfg.timeoutTicks →
    s.parser.pstate = .headCksum →
    (s.parser.rxi.toNat + 1 ≠ s.cfg.ckw →
      exec (.accept b) s = .next (({ s with parser := { s.parser with
          ticks := 0
          rxRef := shiftIn s.cfg.ckw s.parser.rxRef b
          rxi := s.parser.rxi + 1 } } : State).respond .ok 0)) ∧
    (s.parser.rxi.toNat + 1 = s.cfg.ckw →
      ckFinal s.cfg.ckMode s.parser.rxCk ≠ shiftIn s.cfg.ckw s.parser.rxRef b →
      exec (.accept b) s = .next (({ s with parser :=
          { pstate := .sof
            rxi := 0
            rxId := 0
            rxLen := 0
            rxType := 0
            rxCk := ckReset s.cfg.ckMode
            rxRef := 0
            discard := false
            ticks := 0
            rxbuf := s.parser.rxbuf } } : State).respond .ok 0)) ∧
    (s.parser.rxi.toNat + 1 = s.cfg.ckw →
      ckFinal s.cfg.ckMode s.parser.rxCk = shiftIn s.cfg.ckw s.parser.rxRef b → s.parser.rxLen ≠ 0 →
      exec (.accept b) s = .next (({ s with parser := { s.parser with
          ticks := 0, pstate := .data, rxi := 0
          rxRef := shiftIn s.cfg.ckw s.parser.rxRef b
          rxCk := ckReset s.cfg.ckMode
          discard := decide (s.cfg.maxPayload < s.parser.rxLen.toNat) } } : State).respond .ok 0)) ∧
    (s.parser.rxi.toNat + 1 = s.cfg.ckw →
      ckFinal s.cfg.ckMode s.parser.rxCk = shiftIn s.cfg.ckw s.parser.rxRef b → s.parser.rxLen = 0 →
      exec (.accept b) s = .next { s with
        parser := { pstate := .sof
                    rxi := 0
                    rxId := 0
                    rxLen := 0
                    rxType := 0
                    rxCk := ckReset s.cfg.ckMode
                    rxRef := 0
                    discard := false
                    ticks := 0
                    rxbuf := s.parser.rxbuf }
        port := { s.port with
          responses := s.port.responses ++ [{ status := .ok, data := 0 }]
          frames := s.port.frames ++ [{ index := s.port.responses.length, frame :=
            { id := s.parser.rxId, typ := s.parser.rxType, len := 0, payload := [] } }] } })

/-- R195, before the declared length is reached and with a checksum at it: the byte is stored at index RXI
and fed to the checksum, or only counted while discarding. -/
def Obligations.ByteInData : Prop :=
  ∀ (b : Byte) (s : State), s.Inv → s.parser.ticks.toNat < s.cfg.timeoutTicks → s.parser.pstate = .data →
    s.parser.rxi.toNat + 1 ≠ s.parser.rxLen.toNat ∨ s.cfg.ckMode ≠ .none →
    ∃ m : Memory,
      (s.parser.discard = true → m = s.parser.rxbuf) ∧
      (s.parser.discard = false →
        m.read s.parser.rxi.toNat = b ∧
        ∀ a, a ≠ s.parser.rxi.toNat → m.read a = s.parser.rxbuf.read a) ∧
      exec (.accept b) s = .next (({ s with parser := { s.parser with
          ticks := 0
          rxbuf := m
          rxCk := if s.parser.discard then s.parser.rxCk else ckAdd s.cfg.ckMode s.parser.rxCk b
          pstate := if s.parser.rxi.toNat + 1 = s.parser.rxLen.toNat then .dataCksum else .data
          rxi := if s.parser.rxi.toNat + 1 = s.parser.rxLen.toNat then 0 else s.parser.rxi + 1
          rxRef := if s.parser.rxi.toNat + 1 = s.parser.rxLen.toNat then 0 else s.parser.rxRef } } : State).respond .ok 0)

/-- R195 with R197 and CK_MODE = NONE: the declared length's last byte completes the frame; it is emitted
unless discarding. The emitted event's index, the number of responses before it, is the model's choice
(log 7). -/
def Obligations.LastByteInDataWithoutChecksum : Prop :=
  ∀ (b : Byte) (s : State), s.Inv → s.parser.ticks.toNat < s.cfg.timeoutTicks → s.parser.pstate = .data →
    s.parser.rxi.toNat + 1 = s.parser.rxLen.toNat → s.cfg.ckMode = .none →
    ∃ m : Memory,
      (s.parser.discard = true → m = s.parser.rxbuf) ∧
      (s.parser.discard = false →
        m.read s.parser.rxi.toNat = b ∧
        ∀ a, a ≠ s.parser.rxi.toNat → m.read a = s.parser.rxbuf.read a) ∧
      exec (.accept b) s = .next { s with
        parser := { pstate := .sof
                    rxi := 0
                    rxId := 0
                    rxLen := 0
                    rxType := 0
                    rxCk := 0
                    rxRef := 0
                    discard := false
                    ticks := 0
                    rxbuf := m }
        port := { s.port with
          responses := s.port.responses ++ [{ status := .ok, data := 0 }]
          frames := if s.parser.discard then s.port.frames
            else s.port.frames ++ [{ index := s.port.responses.length, frame :=
              { id := s.parser.rxId, typ := s.parser.rxType, len := s.parser.rxLen,
                payload := m.readRun 0 s.parser.rxLen.toNat } }] } }

/-- R196 with R197: a byte in DATA_CKSUM. At the last byte the frame is emitted only when not discarding and
the checksum matches; in all outcomes the parser returns to SOF. The emitted event's index, the number of
responses before it, is the model's choice (log 7). -/
def Obligations.ByteInDataCksum : Prop :=
  ∀ (b : Byte) (s : State), s.Inv → s.parser.ticks.toNat < s.cfg.timeoutTicks →
    s.parser.pstate = .dataCksum →
    (s.parser.rxi.toNat + 1 ≠ s.cfg.ckw →
      exec (.accept b) s = .next (({ s with parser := { s.parser with
          ticks := 0
          rxRef := shiftIn s.cfg.ckw s.parser.rxRef b
          rxi := s.parser.rxi + 1 } } : State).respond .ok 0)) ∧
    (s.parser.rxi.toNat + 1 = s.cfg.ckw →
      exec (.accept b) s = .next { s with
        parser := { pstate := .sof
                    rxi := 0
                    rxId := 0
                    rxLen := 0
                    rxType := 0
                    rxCk := ckReset s.cfg.ckMode
                    rxRef := 0
                    discard := false
                    ticks := 0
                    rxbuf := s.parser.rxbuf }
        port := { s.port with
          responses := s.port.responses ++ [{ status := .ok, data := 0 }]
          frames :=
            if s.parser.discard = false ∧
              ckFinal s.cfg.ckMode s.parser.rxCk = shiftIn s.cfg.ckw s.parser.rxRef b
            then s.port.frames ++ [{ index := s.port.responses.length, frame :=
              { id := s.parser.rxId, typ := s.parser.rxType, len := s.parser.rxLen,
                payload := s.parser.rxbuf.readRun 0 s.parser.rxLen.toNat } }]
            else s.port.frames } })

/-- R208: in every state of the invariant, a byte of RXBUF changes only when ACCEPT runs in DATA with DISCARD = 0,
at index RXI, which is below MAX_PAYLOAD; it then holds the accepted byte. INIT, which clears the buffer, is
the other writer. -/
def Obligations.RxbufWritesStayInside : Prop :=
  ∀ (i : Instr) (s t : State) (a : Nat), s.Inv → exec i s = .next t → (∀ p, i ≠ .init p) →
    t.parser.rxbuf.read a ≠ s.parser.rxbuf.read a →
      a < s.cfg.maxPayload ∧ a = s.parser.rxi.toNat ∧ s.parser.pstate = .data ∧
      s.parser.discard = false ∧ s.parser.ticks.toNat < s.cfg.timeoutTicks ∧
      ∃ b, i = .accept b ∧ t.parser.rxbuf.read a = b

/-- R209 with R206: every FRAME a command adds has len at most MAX_PAYLOAD and exactly len payload bytes. -/
def Obligations.NoOversizedFrameIsDispatched : Prop :=
  ∀ (i : Instr) (s t : State) (e : FrameEvent), exec i s = .next t →
    e ∈ t.port.frames → e ∉ s.port.frames →
      e.frame.len.toNat ≤ s.cfg.maxPayload ∧ e.frame.payload.length = e.frame.len.toNat

/-! ## Ticks -/

/-- R201: TICK's word; it increments TICKS, saturating at TIMEOUT_TICKS, and changes no other state. -/
def Obligations.TickIncrementsAndSaturates : Prop :=
  ∀ s : State, s.cfg.wf = true →
    decode ((0x03 : BitVec 8) ++ (0 : BitVec 24) ++ (0 : BitVec 32)) = .ok .tick ∧
    (s.parser.ticks.toNat < s.cfg.timeoutTicks →
      ∃ k : Word, k.toNat = s.parser.ticks.toNat + 1 ∧
        exec .tick s = .next (({ s with parser := { s.parser with ticks := k } } : State).respond .ok 0)) ∧
    (s.cfg.timeoutTicks ≤ s.parser.ticks.toNat → exec .tick s = .next (s.respond .ok 0))

/-- R202: after k TICKs since an ACCEPT or reset, TICKS is min k TIMEOUT_TICKS, and the next ACCEPT resets
the parser before its byte exactly when k >= TIMEOUT_TICKS; otherwise the partial frame continues as if no
TICK had come. -/
def Obligations.TicksSinceTheLastByteDecideTheTimeout : Prop :=
  ∀ (k : Nat) (b : Byte) (s : State), s.Inv → s.parser.ticks = 0 →
    ∃ t, execAll (tickN k) s = .next t ∧
      t.parser = { s.parser with ticks := BitVec.ofNat 32 (min k s.cfg.timeoutTicks) } ∧
      t.composer = s.composer ∧ t.idgen = s.idgen ∧ t.port.frames = s.port.frames ∧
      ∃ u v, exec (.accept b) t = .next u ∧
        exec (.accept b) { s with parser :=
          if s.cfg.timeoutTicks ≤ k then parserReset s.cfg s.parser else s.parser } = .next v ∧
        u.parser = v.parser ∧
        u.port.frames.map FrameEvent.frame = v.port.frames.map FrameEvent.frame

/-! ## Independence of the units -/

/-- R78: what ACCEPT and TICK do depends on the parser session and the configuration alone, and they leave
the composer and the ID generator; what COMPOSE does depends on the composer, the ID generator and the
configuration alone, and it leaves the parser. -/
def Obligations.ParserAndComposerDoNotInterfere : Prop :=
  (∀ (i : Instr) (s s' t t' : State), (i = .tick ∨ ∃ b, i = .accept b) →
    s.cfg = s'.cfg → s.parser = s'.parser → exec i s = .next t → exec i s' = .next t' →
      t.parser = t'.parser ∧ t.idgen = s.idgen ∧ t.composer = s.composer ∧
      (t.port.frames.drop s.port.frames.length).map FrameEvent.frame =
        (t'.port.frames.drop s'.port.frames.length).map FrameEvent.frame) ∧
  (∀ (e : Bool) (s s' t t' : State),
    s.cfg = s'.cfg → s.idgen = s'.idgen → s.composer = s'.composer →
    exec (.compose e) s = .next t → exec (.compose e) s' = .next t' →
      t.idgen = t'.idgen ∧ t.composer = t'.composer ∧ t.parser = s.parser ∧
      t.port.frames = s.port.frames ∧
      t.port.responses.getLast? = t'.port.responses.getLast?)

/-- R78, R149: a parser command and a composer command give the same block state in either order. -/
def Obligations.ParserAndComposerCommandsCommute : Prop :=
  ∀ (a c : Instr) (s : State), s.Inv →
    (a = .tick ∨ ∃ b, a = .accept b) →
    ((∃ e, c = .compose e) ∨ (∃ k b, c = .txpWr k b) ∨ ∃ n v, c = .wrreg n v) →
    ∃ t u, execAll [a, c] s = .next t ∧ execAll [c, a] s = .next u ∧
      t.parser = u.parser ∧ t.idgen = u.idgen ∧ t.composer = u.composer ∧
      t.port.frames.map FrameEvent.frame = u.port.frames.map FrameEvent.frame

/-! ## Streams of bytes -/

/-- R303, R92: a byte sequence fed in two parts gives what it gives in one. Every ACCEPT answers (OK, 0), the
frames are those of the parts in order, and the second part's frames and the final session depend only on the
session the first part left: another state with that session, whatever the composer's commands have done to it
(R78), gives the same. -/
def Obligations.ChunkingDoesNotMatter : Prop :=
  ∀ (xs ys : List Byte) (s : State), s.Inv →
    ∃ (t u : State) (fx fy : List Frame),
      execAll (acceptBuf xs) s = .next t ∧
      execAll (acceptBuf ys) t = .next u ∧
      execAll (acceptBuf (xs ++ ys)) s = .next u ∧
      t.port.responses = s.port.responses ++ List.replicate xs.length { status := .ok, data := 0 } ∧
      u.port.responses =
        s.port.responses ++ List.replicate (xs.length + ys.length) { status := .ok, data := 0 } ∧
      t.port.frames.map FrameEvent.frame = s.port.frames.map FrameEvent.frame ++ fx ∧
      u.port.frames.map FrameEvent.frame = s.port.frames.map FrameEvent.frame ++ (fx ++ fy) ∧
      fx.length ≤ xs.length ∧ fy.length ≤ ys.length ∧
      (xs ≠ [] → t.parser.ticks = 0) ∧
      u.idgen = s.idgen ∧ u.composer = s.composer ∧ u.cfg = s.cfg ∧
      ∀ r : State, r.cfg = s.cfg → r.parser = t.parser →
        ∃ v, execAll (acceptBuf ys) r = .next v ∧ v.parser = u.parser ∧
          v.port.frames.map FrameEvent.frame = r.port.frames.map FrameEvent.frame ++ fy

/-- R211: the bytes a successful COMPOSE wrote, accepted by an idle parser of the same configuration with
fewer than TIMEOUT_TICKS TICKs before each byte, emit exactly one FRAME, on the last byte, with the
composed ID, type, length and payload, and leave the parser in SOF. The event's index, the number of
responses before it, is the model's choice (log 7). -/
def Obligations.ComposedFrameIsReceived : Prop :=
  ∀ (e : Bool) (s t r : State) (kbs : List (Nat × Byte)),
    s.Inv → r.Inv → r.cfg = s.cfg → s.composer.txLen.toNat ≤ s.cfg.maxPayload →
    exec (.compose e) s = .next t → r.parser.pstate = .sof →
    kbs.map Prod.snd = t.composer.txbuf.readRun 0 t.composer.txCount.toNat →
    (∀ kb ∈ kbs, kb.1 < s.cfg.timeoutTicks) →
    ∃ u, execAll (feed kbs) r = .next u ∧
      u.port.frames = r.port.frames ++
        [{ index := r.port.responses.length + (feed kbs).length - 1
           frame :=
            { id := t.composer.txLastId, typ := s.composer.txType, len := s.composer.txLen
              payload := s.composer.txp.readRun 0 s.composer.txLen.toNat } }] ∧
      u.parser.pstate = .sof

/-- R213: a proper prefix of a composed frame, then at least TIMEOUT_TICKS TICKs, then a fresh composed
frame: exactly one FRAME comes out, the fresh one's. -/
def Obligations.TruncationThenTimeoutRecovers : Prop :=
  ∀ (e e' : Bool) (s t s' t' r : State) (m k : Nat),
    s.Inv → s'.Inv → r.Inv → r.cfg = s.cfg → s'.cfg = s.cfg →
    s.composer.txLen.toNat ≤ s.cfg.maxPayload → s'.composer.txLen.toNat ≤ s.cfg.maxPayload →
    exec (.compose e) s = .next t → exec (.compose e') s' = .next t' → r.parser.pstate = .sof →
    m < t.composer.txCount.toNat → s.cfg.timeoutTicks ≤ k →
    ∃ u, execAll (acceptBuf (t.composer.txbuf.readRun 0 m) ++ tickN k ++
          acceptBuf (t'.composer.txbuf.readRun 0 t'.composer.txCount.toNat)) r = .next u ∧
      u.port.frames.map FrameEvent.frame = r.port.frames.map FrameEvent.frame ++
        [{ id := t'.composer.txLastId, typ := s'.composer.txType, len := s'.composer.txLen
           payload := s'.composer.txp.readRun 0 s'.composer.txLen.toNat }] ∧
      u.parser.pstate = .sof

/-- R214: a frame whose header is good and whose declared length exceeds MAX_PAYLOAD, whatever its payload
and payload checksum bytes: no FRAME, no byte of RXBUF changed, consumed to its true end and not before. -/
def Obligations.OversizedFrameIsContained : Prop :=
  ∀ (r : State) (id len typ : Word) (hdr payload ck all : List Byte),
    r.Inv → r.parser.pstate = .sof → Fits r.cfg.lenBits len → r.cfg.maxPayload < len.toNat →
    hdr = headerBytes r.cfg id len typ → payload.length = len.toNat → ck.length = r.cfg.ckw →
    all = hdr ++ ckField r.cfg hdr ++ payload ++ ck →
    (∃ u, execAll (acceptBuf all) r = .next u ∧
      u.port.frames = r.port.frames ∧ u.parser.rxbuf = r.parser.rxbuf ∧ u.parser.pstate = .sof) ∧
    (∀ (m : Nat) (u : State), 0 < m → m < all.length →
      execAll (acceptBuf (all.take m)) r = .next u → u.parser.pstate ≠ .sof)

/-- R210: there is no stuck state: a partial frame blocks the parser for at most frameLen(2^LENB - 1)
bytes, whatever they are. -/
def Obligations.ParserReturnsToSof : Prop :=
  ∀ (s : State) (bs : List Byte), s.Inv → s.parser.pstate ≠ .sof →
    bs.length = s.cfg.frameLen (2 ^ (8 * s.cfg.lenw) - 1) →
    ∃ (k : Nat) (t : State), 0 < k ∧ k ≤ bs.length ∧
      execAll (acceptBuf (bs.take k)) s = .next t ∧ t.parser.pstate = .sof

/-- R212 (a): a composed frame with one payload byte changed (so any single bit flipped) gives no FRAME and
leaves the parser in SOF at its true end, and the valid frame after it gives exactly one. -/
def Obligations.PayloadCorruptionIsDropped : Prop :=
  ∀ (e e' : Bool) (s t s' t' r : State) (j : Nat) (b : Byte),
    s.Inv → s'.Inv → r.Inv → r.cfg = s.cfg → s'.cfg = s.cfg → s.cfg.ckMode ≠ .none →
    s.composer.txLen.toNat ≤ s.cfg.maxPayload → s'.composer.txLen.toNat ≤ s.cfg.maxPayload →
    exec (.compose e) s = .next t → exec (.compose e') s' = .next t' → r.parser.pstate = .sof →
    j < s.composer.txLen.toNat → b ≠ s.composer.txp.read j →
    ∃ u v,
      execAll (acceptBuf ((t.composer.txbuf.readRun 0 t.composer.txCount.toNat).set
        (s.cfg.hdrBytes + j) b)) r = .next u ∧
      u.port.frames = r.port.frames ∧ u.parser.pstate = .sof ∧
      execAll (acceptBuf (t'.composer.txbuf.readRun 0 t'.composer.txCount.toNat)) u = .next v ∧
      v.port.frames.map FrameEvent.frame = r.port.frames.map FrameEvent.frame ++
        [{ id := t'.composer.txLastId, typ := s'.composer.txType, len := s'.composer.txLen
           payload := s'.composer.txp.readRun 0 s'.composer.txLen.toNat }]

/-- R212 (b) with its sufficient condition: a composed frame with one header or header checksum byte changed,
SOF_EN = 1 and no byte after the point of failure equal to SOF_VAL, gives no FRAME and leaves the parser in
SOF, and the valid frame after it gives exactly one. The point of failure is the SOF byte itself when that
byte is the changed one, else the last header checksum byte. -/
def Obligations.HeaderCorruptionIsDropped : Prop :=
  ∀ (e e' : Bool) (s t s' t' r : State) (j : Nat) (b : Byte) (bad : List Byte),
    s.Inv → s'.Inv → r.Inv → r.cfg = s.cfg → s'.cfg = s.cfg → s.cfg.ckMode ≠ .none →
    s.cfg.sofEn = true →
    s.composer.txLen.toNat ≤ s.cfg.maxPayload → s'.composer.txLen.toNat ≤ s.cfg.maxPayload →
    exec (.compose e) s = .next t → exec (.compose e') s' = .next t' → r.parser.pstate = .sof →
    j < s.cfg.hdrBytes → b ≠ t.composer.txbuf.read j →
    bad = (t.composer.txbuf.readRun 0 t.composer.txCount.toNat).set j b →
    s.cfg.sofVal ∉ bad.drop (if j = 0 then 1 else s.cfg.hdrBytes) →
    ∃ u v, execAll (acceptBuf bad) r = .next u ∧
      u.port.frames = r.port.frames ∧ u.parser.pstate = .sof ∧
      execAll (acceptBuf (t'.composer.txbuf.readRun 0 t'.composer.txCount.toNat)) u = .next v ∧
      v.port.frames.map FrameEvent.frame = r.port.frames.map FrameEvent.frame ++
        [{ id := t'.composer.txLastId, typ := s'.composer.txType, len := s'.composer.txLen
           payload := s'.composer.txp.readRun 0 s'.composer.txLen.toNat }]

/-! ## The response word -/

/-- R84, R85: a response is 40 bits, STATUS in [39:32] with its code and DATA in [31:0]. DATA is 0 with every
other status than OK, and with OK it is what the table of R84 gives the command. A word that is no command is
answered with 0x02 and DATA 0 (R87, R88). -/
def Obligations.ResponseWordLayout : Prop :=
  (∀ r : Response,
    r.bits.extractLsb' 0 32 = r.data ∧
    r.bits.extractLsb' 32 8 = (match r.status with
      | .ok => 0x00
      | .payloadTooLarge => 0x01
      | .illegal => 0x02
      | .badReg => 0x03
      | .badAddr => 0x04)) ∧
  (∀ (s : State) (w : CmdWord) (rest : List CmdWord), s.Inv → s.port.pending = w :: rest →
    (∀ i, decode w ≠ .ok i) →
      ∃ t, step s = .next t ∧
        t.port.responses.map Response.bits = s.port.responses.map Response.bits ++ [0x0200000000]) ∧
  (∀ (i : Instr) (s : State), s.Inv →
    ∃ (t : State) (r : Response), exec i s = .next t ∧ t.port.responses = s.port.responses ++ [r] ∧
      (r.bits.extractLsb' 32 8 ≠ 0 → r.bits.extractLsb' 0 32 = 0) ∧
      (r.bits.extractLsb' 32 8 = 0 →
        (∀ e, i = .compose e →
          r.bits.extractLsb' 0 32 = BitVec.ofNat 32 (s.cfg.frameLen s.composer.txLen.toNat)) ∧
        (∀ n, i = .rdreg n → ∃ reg, reg.number = n ∧ r.bits.extractLsb' 0 32 = readReg s reg) ∧
        (∀ k, i = .txbRd k →
          r.bits.extractLsb' 0 32 = BitVec.ofNat 32 (s.composer.txbuf.read k.toNat).toNat) ∧
        (∀ k, i = .rxbRd k →
          r.bits.extractLsb' 0 32 = BitVec.ofNat 32 (s.parser.rxbuf.read k.toNat).toNat) ∧
        ((∃ p, i = .init p) ∨ (∃ b, i = .accept b) ∨ i = .tick ∨ (∃ n v, i = .wrreg n v) ∨
            (∃ k b, i = .txpWr k b) →
          r.bits.extractLsb' 0 32 = 0)))
end

