-- ==== Sys2Proof/Laws/Bits.lean ====
section
/-! SUPPORT. Truncation and the byte helpers (00_scope.md R13, R16). -/

namespace Sys2Proof

@[simp] theorem trunc_toNat (n : Nat) (v : Word) : (trunc n v).toNat = v.toNat % 2 ^ n := by
  have h1 : v.toNat % 2 ^ n ≤ v.toNat := Nat.mod_le _ _
  have h2 := v.isLt
  simp only [trunc, BitVec.toNat_ofNat]
  exact Nat.mod_eq_of_lt (by omega)

/-- A truncated value fits its width (R13). -/
theorem trunc_lt (n : Nat) (v : Word) : (trunc n v).toNat < 2 ^ n := by
  rw [trunc_toNat]
  exact Nat.mod_lt _ (Nat.two_pow_pos n)

/-- Truncation changes nothing in a value that fits. -/
theorem trunc_of_lt {n : Nat} {v : Word} (h : v.toNat < 2 ^ n) : trunc n v = v := by
  apply BitVec.eq_of_toNat_eq
  rw [trunc_toNat, Nat.mod_eq_of_lt h]

@[simp] theorem trunc_zero (n : Nat) : trunc n 0 = 0 := by
  apply BitVec.eq_of_toNat_eq
  simp

/-- A field fits its width after every byte (R16, R185). -/
theorem shiftIn_lt (n : Nat) (acc : Word) (b : Byte) : (shiftIn n acc b).toNat < 2 ^ (8 * n) :=
  trunc_lt _ _

/-- Appending a byte, as arithmetic (R16). -/
theorem shiftIn_toNat {n : Nat} (h : n ≤ 4) (acc : Word) (b : Byte) :
    (shiftIn n acc b).toNat = (acc.toNat * 256 + b.toNat) % 2 ^ (8 * n) := by
  have hb := b.isLt
  have ha := acc.isLt
  have hor : ((acc <<< 8) ||| b.setWidth 32) = (acc <<< 8) + b.setWidth 32 := by
    apply BitVec.eq_of_getLsbD_eq
    have : (acc <<< 8) &&& b.setWidth 32 = 0#32 := by
      apply BitVec.eq_of_getLsbD_eq
      intro i hi
      simp only [BitVec.getLsbD_and, BitVec.getLsbD_shiftLeft, BitVec.getLsbD_setWidth,
        BitVec.getLsbD_zero]
      by_cases h8 : i < 8
      · simp [h8]
      · simp [BitVec.getLsbD_of_ge b i (by omega)]
    rw [BitVec.add_eq_or_of_and_eq_zero _ _ this]
    simp
  have hdvd : 2 ^ (8 * n) ∣ 2 ^ 32 := Nat.pow_dvd_pow 2 (by omega)
  simp only [shiftIn, trunc_toNat]
  rw [hor, BitVec.toNat_add, Nat.mod_mod_of_dvd _ hdvd, BitVec.toNat_shiftLeft, BitVec.toNat_setWidth,
    Nat.mod_eq_of_lt (show b.toNat < 2 ^ 32 by omega), Nat.shiftLeft_eq]
  conv_rhs => rw [show (256 : Nat) = 2 ^ 8 from rfl]
  rw [Nat.add_mod, Nat.mod_mod_of_dvd _ hdvd, ← Nat.add_mod]

@[simp] theorem beBytes_length (n : Nat) (v : Word) : (beBytes n v).length = n := by
  induction n with
  | zero => rfl
  | succ n ih => simp [beBytes, ih]

@[simp] theorem beBytes_zero (v : Word) : beBytes 0 v = [] := rfl

end Sys2Proof
end

