-- ==== Sys2Proof/Laws/Layout.lean ====
section
/-! SUPPORT. What a well-formed configuration gives (00_scope.md R5-R11). -/

namespace Sys2Proof

theorem widthOk_iff (n : Nat) : widthOk n = true ↔ n = 1 ∨ n = 2 ∨ n = 4 := by
  simp [widthOk, or_assoc]

/-- The ranges of R6, R8 and R9, each under its own name. -/
structure Config.Ranges (c : Config) : Prop where
  idw : c.idw = 1 ∨ c.idw = 2 ∨ c.idw = 4
  lenw : c.lenw = 1 ∨ c.lenw = 2 ∨ c.lenw = 4
  typew : c.typew = 1 ∨ c.typew = 2 ∨ c.typew = 4
  payloadPos : 1 ≤ c.maxPayload
  payloadLen : c.maxPayload ≤ 2 ^ c.lenBits - 1
  txbuf : c.maxPayload + c.overheadBytes ≤ 2 ^ 24
  timeoutPos : 1 ≤ c.timeoutTicks
  timeoutBound : c.timeoutTicks ≤ 2 ^ 32 - 1

theorem Config.wf_iff_ranges (c : Config) : c.wf = true ↔ c.Ranges := by
  simp only [Config.wf, Bool.and_eq_true, decide_eq_true_eq, widthOk_iff]
  constructor
  · rintro ⟨⟨⟨⟨⟨⟨⟨h1, h2⟩, h3⟩, h4⟩, h5⟩, h6⟩, h7⟩, h8⟩
    exact ⟨h1, h2, h3, h4, h5, h6, h7, h8⟩
  · rintro ⟨h1, h2, h3, h4, h5, h6, h7, h8⟩
    exact ⟨⟨⟨⟨⟨⟨⟨h1, h2⟩, h3⟩, h4⟩, h5⟩, h6⟩, h7⟩, h8⟩

theorem Config.ranges {c : Config} (h : c.wf = true) : c.Ranges := (c.wf_iff_ranges).1 h

/-- CKW is one of four widths (R7). -/
theorem CkMode.width_cases (m : CkMode) :
    m = .none ∧ m.width = 0 ∨ m = .xor8 ∧ m.width = 1 ∨ m = .crc16 ∧ m.width = 2
      ∨ m = .crc32 ∧ m.width = 4 := by
  cases m <;> simp [CkMode.width]

theorem CkMode.width_le (m : CkMode) : m.width ≤ 4 := by cases m <;> simp [CkMode.width]

theorem CkMode.width_eq_zero (m : CkMode) : m.width = 0 ↔ m = .none := by
  cases m <;> simp [CkMode.width]

theorem Config.ckw_le (c : Config) : c.ckw ≤ 4 := c.ckMode.width_le

theorem Config.ckw_eq_zero (c : Config) : c.ckw = 0 ↔ c.ckMode = .none := c.ckMode.width_eq_zero

/-- Every composed frame fits the staging buffer (R100, R153). -/
theorem Config.frameLen_le_txbufSize (c : Config) {n : Nat} (h : n ≤ c.maxPayload) :
    c.frameLen n ≤ c.txbufSize := by
  unfold Config.frameLen Config.txbufSize Config.overheadBytes
  split <;> omega

/-- A full payload fills the staging buffer (R100). -/
theorem Config.frameLen_maxPayload (c : Config) (h : 1 ≤ c.maxPayload) :
    c.frameLen c.maxPayload = c.txbufSize := by
  unfold Config.frameLen Config.txbufSize Config.overheadBytes
  split <;> omega

end Sys2Proof
end

