-- ==== Sys2Proof/Laws/Checksum.lean ====
section
/-! SUPPORT. The checksum generators (40_checksum.md): accumulators and values fit the variant's width
(10_state.md R28, R125). -/

namespace Sys2Proof

/-- The seed fits CKB bits (R28). -/
theorem ckReset_lt (m : CkMode) : (ckReset m).toNat < 2 ^ (8 * m.width) := by cases m <;> decide

/-- "The bits above that width are always 0" (R28): one update keeps an accumulator inside CKB bits. -/
theorem ckAdd_lt (m : CkMode) {acc : Word} (h : acc.toNat < 2 ^ (8 * m.width)) (b : Byte) :
    (ckAdd m acc b).toNat < 2 ^ (8 * m.width) := by
  cases m with
  | none => simpa [ckAdd] using h
  | xor8 =>
    have := (acc.setWidth 8 ^^^ b).isLt
    simp only [ckAdd, CkMode.width, BitVec.toNat_setWidth]
    omega
  | crc16 =>
    have := (crcAdd P16 (acc.setWidth 16) b).isLt
    simp only [ckAdd, CkMode.width, BitVec.toNat_setWidth]
    omega
  | crc32 => exact (crcAdd P32 acc b).isLt

/-- A final value has CKB bits (R110, R125). -/
theorem ckFinal_lt (m : CkMode) (acc : Word) : (ckFinal m acc).toNat < 2 ^ (8 * m.width) := by
  cases m with
  | none => simp [ckFinal, CkMode.width]
  | xor8 =>
    have := (~~~ (acc.setWidth 8)).isLt
    simp only [ckFinal, CkMode.width, BitVec.toNat_setWidth]
    omega
  | crc16 =>
    have := (acc.setWidth 16).isLt
    simp only [ckFinal, CkMode.width, BitVec.toNat_setWidth]
    omega
  | crc32 => exact (~~~ acc).isLt

/-- A checksum has CKB bits (R124, R125). -/
theorem ckOf_lt (m : CkMode) (bs : List Byte) : (ckOf m bs).toNat < 2 ^ (8 * m.width) := ckFinal_lt m _

/-- Folding bytes in keeps the accumulator inside CKB bits. -/
theorem ckFold_lt (m : CkMode) {acc : Word} (h : acc.toNat < 2 ^ (8 * m.width)) (bs : List Byte) :
    (bs.foldl (ckAdd m) acc).toNat < 2 ^ (8 * m.width) := by
  induction bs generalizing acc with
  | nil => exact h
  | cons b bs ih => exact ih (ckAdd_lt m h b)

end Sys2Proof
end

