-- ==== Sys2Proof/Laws/Memory.lean ====
section
/-! SUPPORT. The laws of a byte memory: read after write, the canonical form, the buffer bound
(20_memory.md R60-R62, R68). -/

namespace Sys2Proof.Machine

@[simp] theorem Memory.read_nil (i : Nat) : Memory.read [] i = 0 := rfl

/-- An index below every listed one reads as unlisted. -/
theorem Memory.read_of_all_gt {m : Memory} {i : Nat} (h : ∀ e ∈ m, i < e.1) : m.read i = 0 := by
  induction m with
  | nil => rfl
  | cons e rest ih =>
    obtain ⟨k, v⟩ := e
    have hk : i < k := h (k, v) (by simp)
    have hr : ∀ e ∈ rest, i < e.1 := fun e he => h e (by simp [he])
    simp [Memory.read, Nat.ne_of_lt hk, ih hr]

/-- The canonical form, unfolded once. -/
theorem Memory.wf_cons {k : Nat} {v : Byte} {rest : Memory} :
    Memory.wf ((k, v) :: rest) = true ↔
      v ≠ 0 ∧ (∀ e ∈ rest, k < e.1) ∧ Memory.wf rest = true := by
  simp [Memory.wf, Memory.unlisted, and_assoc]

/-- Every entry after a write is an old one or the written one. -/
theorem Memory.mem_write {m : Memory} {i : Nat} {b : Byte} {e : Host.Cell}
    (h : e ∈ m.write i b) : e ∈ m ∨ e = (i, b) := by
  induction m with
  | nil =>
    simp only [Memory.write] at h
    split at h <;> simp_all
  | cons c rest ih =>
    obtain ⟨k, v⟩ := c
    simp only [Memory.write] at h
    split at h
    · split at h
      · exact .inl h
      · rcases List.mem_cons.1 h with h | h
        · exact .inr h
        · exact .inl h
    · split at h
      · split at h
        · exact .inl (List.mem_cons_of_mem _ h)
        · rcases List.mem_cons.1 h with h | h
          · exact .inr h
          · exact .inl (List.mem_cons_of_mem _ h)
      · rcases List.mem_cons.1 h with h | h
        · exact .inl (by simp [h])
        · rcases ih h with h | h
          · exact .inl (by simp [h])
          · exact .inr h

/-- A write keeps the canonical form. -/
theorem Memory.write_wf {m : Memory} (h : m.wf = true) (i : Nat) (b : Byte) :
    (m.write i b).wf = true := by
  induction m with
  | nil =>
    simp only [Memory.write]
    split
    · rfl
    · simp_all [Memory.wf]
  | cons c rest ih =>
    obtain ⟨k, v⟩ := c
    obtain ⟨hv, hlt, hr⟩ := Memory.wf_cons.1 h
    simp only [Memory.write]
    split
    · rename_i hik
      split
      · exact h
      · rename_i hb
        refine Memory.wf_cons.2 ⟨hb, ?_, h⟩
        intro e he
        rcases List.mem_cons.1 he with rfl | he
        · exact hik
        · exact lt_trans hik (hlt e he)
    · split
      · rename_i hik heq
        subst heq
        split
        · exact hr
        · exact Memory.wf_cons.2 ⟨by assumption, hlt, hr⟩
      · rename_i hik hne
        refine Memory.wf_cons.2 ⟨hv, ?_, ih hr⟩
        intro e he
        rcases Memory.mem_write he with he | rfl
        · exact hlt e he
        · simp only; omega

/-- Read after write, at the same index and at every other (R14). -/
theorem Memory.read_write {m : Memory} (h : m.wf = true) (i : Nat) (b : Byte) (j : Nat) :
    (m.write i b).read j = if j = i then b else m.read j := by
  induction m with
  | nil =>
    simp only [Memory.write]
    split
    · rename_i hb; split <;> simp [hb, Memory.unlisted]
    · simp [Memory.read, Memory.unlisted]
  | cons c rest ih =>
    obtain ⟨k, v⟩ := c
    obtain ⟨hv, hlt, hr⟩ := Memory.wf_cons.1 h
    simp only [Memory.write]
    split
    · rename_i hik
      have hz : Memory.read ((k, v) :: rest) i = 0 := by
        apply Memory.read_of_all_gt
        intro e he
        rcases List.mem_cons.1 he with rfl | he
        · exact hik
        · exact lt_trans hik (hlt e he)
      split
      · rename_i hb
        by_cases hji : j = i
        · subst hji; rw [hz]; simp [hb, Memory.unlisted]
        · simp [hji]
      · by_cases hji : j = i
        · subst hji; simp [Memory.read]
        · simp [Memory.read, hji]
    · split
      · rename_i hik heq
        subst heq
        split
        · rename_i hb
          by_cases hji : j = i
          · subst hji
            rw [Memory.read_of_all_gt hlt]
            simp [hb, Memory.unlisted]
          · simp [Memory.read, hji]
        · by_cases hji : j = i
          · subst hji; simp [Memory.read]
          · simp [Memory.read, hji]
      · rename_i hik hne
        simp only [Memory.read, ih hr]
        by_cases hjk : j = k
        · subst hjk
          simp [show j ≠ i from fun h => hne h.symm]
        · simp [hjk]

theorem Memory.read_write_same {m : Memory} (h : m.wf = true) (i : Nat) (b : Byte) :
    (m.write i b).read i = b := by simp [Memory.read_write h]

theorem Memory.read_write_other {m : Memory} (h : m.wf = true) {i j : Nat} (b : Byte) (hji : j ≠ i) :
    (m.write i b).read j = m.read j := by simp [Memory.read_write h, hji]

@[simp] theorem Memory.readRun_length (m : Memory) (i n : Nat) : (m.readRun i n).length = n := by
  induction n generalizing i with
  | zero => rfl
  | succ n ih => simp [Memory.readRun, ih]

/-- The j-th byte of a run is the byte at index i + j. -/
theorem Memory.readRun_getElem? (m : Memory) (i n j : Nat) :
    (m.readRun i n)[j]? = if j < n then some (m.read (i + j)) else none := by
  induction n generalizing i j with
  | zero => simp [Memory.readRun]
  | succ n ih =>
    cases j with
    | zero => simp [Memory.readRun]
    | succ j =>
      simp only [Memory.readRun, List.getElem?_cons_succ, ih, Nat.add_lt_add_iff_right]
      rw [show i + 1 + j = i + (j + 1) by omega]

/-- A run of writes keeps the canonical form. -/
theorem Memory.writeRun_wf {m : Memory} (h : m.wf = true) (i : Nat) (bs : List Byte) :
    (m.writeRun i bs).wf = true := by
  induction bs generalizing m i with
  | nil => exact h
  | cons b bs ih => exact ih (Memory.write_wf h i b) (i + 1)

/-- Read after a run of writes: inside the run its bytes, outside what was there. -/
theorem Memory.read_writeRun {m : Memory} (h : m.wf = true) (i : Nat) (bs : List Byte) (j : Nat) :
    (m.writeRun i bs).read j =
      if i ≤ j ∧ j < i + bs.length then bs.getD (j - i) 0 else m.read j := by
  induction bs generalizing m i with
  | nil =>
    simp [Memory.writeRun]
  | cons b bs ih =>
    simp only [Memory.writeRun, ih (Memory.write_wf h i b), Memory.read_write h, List.length_cons]
    by_cases hji : j = i
    · subst hji
      simp
    · by_cases hin : i ≤ j ∧ j < i + (bs.length + 1)
      · have h2 : i + 1 ≤ j ∧ j < i + 1 + bs.length := by omega
        rw [if_pos h2, if_pos hin, show j - i = (j - (i + 1)) + 1 by omega, List.getD_cons_succ]
      · have h2 : ¬ (i + 1 ≤ j ∧ j < i + 1 + bs.length) := by omega
        rw [if_neg h2, if_neg hin, if_neg hji]

/-- Reading back a run just written from index 0. -/
theorem Memory.readRun_writeRun {m : Memory} (h : m.wf = true) (bs : List Byte) :
    (m.writeRun 0 bs).readRun 0 bs.length = bs := by
  apply List.ext_getElem?
  intro j
  rw [Memory.readRun_getElem?, Nat.zero_add, Memory.read_writeRun h]
  by_cases hj : j < bs.length
  · simp [hj]
  · simp [hj]

/-- A write inside the bound keeps every entry inside it. -/
theorem Memory.write_bound {m : Memory} {n i : Nat} (h : ∀ e ∈ m, e.1 < n) (hi : i < n) (b : Byte) :
    ∀ e ∈ m.write i b, e.1 < n := by
  intro e he
  rcases Memory.mem_write he with he | rfl
  · exact h e he
  · exact hi

/-- A run of writes inside the bound keeps every entry inside it. -/
theorem Memory.writeRun_bound {m : Memory} {n i : Nat} {bs : List Byte} (h : ∀ e ∈ m, e.1 < n)
    (hi : i + bs.length ≤ n) : ∀ e ∈ m.writeRun i bs, e.1 < n := by
  induction bs generalizing m i with
  | nil => exact h
  | cons b bs ih =>
    simp only [List.length_cons] at hi
    exact ih (Memory.write_bound h (by omega) b) (by omega)

/-- An unlisted index beyond every entry reads as 0. -/
theorem Memory.read_of_bound {m : Memory} {n i : Nat} (h : ∀ e ∈ m, e.1 < n) (hi : n ≤ i) :
    m.read i = 0 := by
  induction m with
  | nil => rfl
  | cons e rest ih =>
    obtain ⟨k, v⟩ := e
    have hk : k < n := h (k, v) (by simp)
    have hr : ∀ e ∈ rest, e.1 < n := fun e he => h e (by simp [he])
    simp [Memory.read, show i ≠ k by omega, ih hr]

end Sys2Proof.Machine
end

