-- ==== Sys2Proof/Laws/State.lean ====
section
/-! SUPPORT. One lemma per field per named update of the state, true by rfl and tagged simp, so that no
later proof unfolds a record update. -/

namespace Sys2Proof.Machine

@[simp] theorem respond_cfg (s : State) (st : Status) (d : Word) : (s.respond st d).cfg = s.cfg := rfl

@[simp] theorem respond_parser (s : State) (st : Status) (d : Word) : (s.respond st d).parser = s.parser := rfl

@[simp] theorem respond_idgen (s : State) (st : Status) (d : Word) : (s.respond st d).idgen = s.idgen := rfl

@[simp] theorem respond_composer (s : State) (st : Status) (d : Word) : (s.respond st d).composer = s.composer := rfl

@[simp] theorem respond_pending (s : State) (st : Status) (d : Word) : (s.respond st d).port.pending = s.port.pending := rfl

@[simp] theorem respond_frames (s : State) (st : Status) (d : Word) : (s.respond st d).port.frames = s.port.frames := rfl

@[simp] theorem respond_responses (s : State) (st : Status) (d : Word) :
    (s.respond st d).port.responses = s.port.responses ++ [⟨st, d⟩] := rfl

@[simp] theorem emit_cfg (s : State) (ev : Option Frame) : (s.emit ev).cfg = s.cfg := by cases ev <;> rfl

@[simp] theorem emit_parser (s : State) (ev : Option Frame) : (s.emit ev).parser = s.parser := by cases ev <;> rfl

@[simp] theorem emit_idgen (s : State) (ev : Option Frame) : (s.emit ev).idgen = s.idgen := by cases ev <;> rfl

@[simp] theorem emit_composer (s : State) (ev : Option Frame) : (s.emit ev).composer = s.composer := by cases ev <;> rfl

@[simp] theorem emit_pending (s : State) (ev : Option Frame) : (s.emit ev).port.pending = s.port.pending := by cases ev <;> rfl

@[simp] theorem emit_responses (s : State) (ev : Option Frame) : (s.emit ev).port.responses = s.port.responses := by cases ev <;> rfl

@[simp] theorem emit_none (s : State) : s.emit none = s := rfl

@[simp] theorem emit_some_frames (s : State) (f : Frame) :
    (s.emit (some f)).port.frames = s.port.frames ++ [⟨s.port.responses.length, f⟩] := rfl

@[simp] theorem withFetchWord_cfg (s : State) (nbits w : Nat) : (s.withFetchWord nbits w).cfg = s.cfg := rfl

@[simp] theorem withFetchWord_parser (s : State) (nbits w : Nat) : (s.withFetchWord nbits w).parser = s.parser := rfl

@[simp] theorem withFetchWord_idgen (s : State) (nbits w : Nat) : (s.withFetchWord nbits w).idgen = s.idgen := rfl

@[simp] theorem withFetchWord_composer (s : State) (nbits w : Nat) : (s.withFetchWord nbits w).composer = s.composer := rfl

@[simp] theorem withFetchWord_pending (s : State) (nbits w : Nat) :
    (s.withFetchWord nbits w).port.pending = tableWord nbits w :: s.port.pending := rfl

@[simp] theorem withFetchWord_responses (s : State) (nbits w : Nat) : (s.withFetchWord nbits w).port.responses = s.port.responses := rfl

@[simp] theorem withFetchWord_frames (s : State) (nbits w : Nat) : (s.withFetchWord nbits w).port.frames = s.port.frames := rfl

@[simp] theorem parserReset_pstate (c : Config) (p : Parser) : (parserReset c p).pstate = .sof := rfl

@[simp] theorem parserReset_rxi (c : Config) (p : Parser) : (parserReset c p).rxi = 0 := rfl

@[simp] theorem parserReset_rxId (c : Config) (p : Parser) : (parserReset c p).rxId = 0 := rfl

@[simp] theorem parserReset_rxLen (c : Config) (p : Parser) : (parserReset c p).rxLen = 0 := rfl

@[simp] theorem parserReset_rxType (c : Config) (p : Parser) : (parserReset c p).rxType = 0 := rfl

@[simp] theorem parserReset_rxCk (c : Config) (p : Parser) : (parserReset c p).rxCk = ckReset c.ckMode := rfl

@[simp] theorem parserReset_rxRef (c : Config) (p : Parser) : (parserReset c p).rxRef = 0 := rfl

@[simp] theorem parserReset_discard (c : Config) (p : Parser) : (parserReset c p).discard = false := rfl

@[simp] theorem parserReset_ticks (c : Config) (p : Parser) : (parserReset c p).ticks = p.ticks := rfl

@[simp] theorem parserReset_rxbuf (c : Config) (p : Parser) : (parserReset c p).rxbuf = p.rxbuf := rfl

@[simp] theorem beginFrame_pstate (c : Config) (p : Parser) : (beginFrame c p).pstate = .id := rfl

@[simp] theorem beginFrame_rxi (c : Config) (p : Parser) : (beginFrame c p).rxi = 0 := rfl

@[simp] theorem beginFrame_rxId (c : Config) (p : Parser) : (beginFrame c p).rxId = p.rxId := rfl

@[simp] theorem beginFrame_rxLen (c : Config) (p : Parser) : (beginFrame c p).rxLen = p.rxLen := rfl

@[simp] theorem beginFrame_rxType (c : Config) (p : Parser) : (beginFrame c p).rxType = p.rxType := rfl

@[simp] theorem beginFrame_rxRef (c : Config) (p : Parser) : (beginFrame c p).rxRef = p.rxRef := rfl

@[simp] theorem beginFrame_discard (c : Config) (p : Parser) : (beginFrame c p).discard = false := rfl

@[simp] theorem beginFrame_ticks (c : Config) (p : Parser) : (beginFrame c p).ticks = p.ticks := rfl

@[simp] theorem beginFrame_rxbuf (c : Config) (p : Parser) : (beginFrame c p).rxbuf = p.rxbuf := rfl

@[simp] theorem beginFrame_rxCk (c : Config) (p : Parser) : (beginFrame c p).rxCk =
    if c.sofEn then ckAdd c.ckMode (ckReset c.ckMode) c.sofVal else ckReset c.ckMode := rfl

@[simp] theorem advance_peer (c : Config) (g : IdGen) : (g.advance c).peer = g.peer := rfl

@[simp] theorem advance_nextId (c : Config) (g : IdGen) : (g.advance c).nextId = trunc c.idBits (g.nextId + 1) := rfl

@[simp] theorem resetWith_cfg (c : Config) : (State.resetWith c).cfg = c := rfl

@[simp] theorem resetWith_parser (c : Config) : (State.resetWith c).parser = Parser.reset c := rfl

@[simp] theorem resetWith_idgen (c : Config) : (State.resetWith c).idgen = IdGen.reset false := rfl

@[simp] theorem resetWith_composer (c : Config) : (State.resetWith c).composer = Composer.reset := rfl

@[simp] theorem resetWith_port (c : Config) : (State.resetWith c).port = Port.reset := rfl

/-- What a command that ends OK or non-OK answers on the port: one more response (R84). -/
theorem respond_length (s : State) (st : Status) (d : Word) :
    (s.respond st d).port.responses.length = s.port.responses.length + 1 := by simp

end Sys2Proof.Machine
end

