-- ==== Sys2Proof/Laws/Ops.lean ====
section
/-! SUPPORT. What each shared operation can do, said once: the configuration check, the block's own buffer
accesses, the host's byte reads, the command port. -/

namespace Sys2Proof.Machine

@[simp] theorem whenConfigured_of_wf {s : State} (h : s.cfg.wf = true) (r : Result) :
    whenConfigured s r = r := by simp [whenConfigured, h]

theorem whenConfigured_of_not_wf {s : State} (h : s.cfg.wf = false) (r : Result) :
    whenConfigured s r = .refused .configIllFormed := by simp [whenConfigured, h]

/-- A next state comes out of the check only with a well-formed configuration, from the checked result. -/
theorem whenConfigured_next {s t : State} {r : Result} (h : whenConfigured s r = .next t) :
    s.cfg.wf = true ∧ r = .next t := by
  unfold whenConfigured at h
  split at h
  · exact ⟨by assumption, h⟩
  · cases h

/-- A byte the block stores lands inside the buffer, or the access faults (R208). -/
theorem storeByte_ok {c : Config} {sp : Space} {m m' : Memory} {i : Nat} {b : Byte} :
    storeByte c sp m i b = .ok m' ↔ i < sp.size c ∧ m' = m.write i b := by
  unfold storeByte
  split <;> simp_all [eq_comm]

/-- A run the block loads lies inside the buffer, or the access faults. -/
theorem loadRun_ok {c : Config} {sp : Space} {m : Memory} {n : Nat} {bs : List Byte} :
    loadRun c sp m n = .ok bs ↔ n ≤ sp.size c ∧ bs = m.readRun 0 n := by
  unfold loadRun
  split <;> simp_all [eq_comm]

/-- A run the block stores lies inside the buffer, or the access faults (R153). -/
theorem storeRun_ok {c : Config} {sp : Space} {m m' : Memory} {bs : List Byte} :
    storeRun c sp m bs = .ok m' ↔ bs.length ≤ sp.size c ∧ m' = m.writeRun 0 bs := by
  unfold storeRun
  split <;> simp_all [eq_comm]

/-- With nothing pending there is no command; otherwise the first pending word is taken (R80). -/
theorem takeCommand_eq_some {s s' : State} {w : CmdWord} :
    s.takeCommand = some (w, s') ↔
      ∃ rest, s.port.pending = w :: rest ∧ s' = { s with port := { s.port with pending := rest } } := by
  unfold State.takeCommand
  cases h : s.port.pending with
  | nil => simp
  | cons v rest =>
    simp only [Option.some.injEq, Prod.mk.injEq, List.cons.injEq]
    constructor
    · rintro ⟨rfl, rfl⟩; exact ⟨rest, ⟨rfl, rfl⟩, rfl⟩
    · rintro ⟨_, ⟨rfl, rfl⟩, rfl⟩; exact ⟨rfl, rfl⟩

theorem takeCommand_eq_none {s : State} : s.takeCommand = none ↔ s.port.pending = [] := by
  unfold State.takeCommand
  cases s.port.pending <;> simp

/-- Every step ends in one of four ways: it holds, it answers ILLEGAL, or it runs one command. -/
theorem step_cases (s : State) :
    (s.port.pending = [] ∧ step s = hold s) ∨
    (∃ w rest, s.port.pending = w :: rest ∧
      ((∃ i, decode w = .ok i ∧ step s = exec i { s with port := { s.port with pending := rest } }) ∨
       (∃ r, decode w = .error r ∧
          step s = answerIllegal { s with port := { s.port with pending := rest } }))) := by
  cases h : s.takeCommand with
  | none => exact .inl ⟨takeCommand_eq_none.1 h, by simp [step, h]⟩
  | some ws =>
    obtain ⟨w, s'⟩ := ws
    obtain ⟨rest, hp, rfl⟩ := takeCommand_eq_some.1 h
    refine .inr ⟨w, rest, hp, ?_⟩
    cases hd : decode w with
    | ok i => exact .inl ⟨i, rfl, by simp [step, h, hd]⟩
    | error r => exact .inr ⟨r, rfl, by simp [step, h, hd]⟩

end Sys2Proof.Machine
end

