-- ==== Sys2Proof/Laws/Composer.lean ====
section
/-! SUPPORT. The ID generator and the composer, said once (41_composer.md R141-R148, R153). -/

namespace Sys2Proof.Machine

@[simp] theorem headerBytes_length (c : Config) (id len typ : Word) :
    (headerBytes c id len typ).length = c.sofb + c.idw + c.lenw + c.typew := by
  simp only [headerBytes, Config.sofb, List.length_append, beBytes_length]
  split <;> rfl

@[simp] theorem ckField_length (c : Config) (bs : List Byte) : (ckField c bs).length = c.ckw := by
  simp [ckField]

/-- The length of a serialised frame (R100, R147). -/
@[simp] theorem serialize_length (c : Config) (id len typ : Word) (payload : List Byte) :
    (serialize c id len typ payload).length = c.frameLen payload.length := by
  cases payload with
  | nil => simp [serialize, Config.frameLen, Config.hdrBytes]
  | cons b bs => simp [serialize, Config.frameLen, Config.hdrBytes]; omega

/-- A length the composer accepts fits LENB bits, so `trunc_LENB(L) = L` (R8, R147). -/
theorem len_fits {c : Config} (hc : c.wf = true) {len : Word} (h : len.toNat ≤ c.maxPayload) :
    len.toNat < 2 ^ c.lenBits := by
  have h1 := (Config.ranges hc).payloadLen
  have h2 := Nat.two_pow_pos c.lenBits
  omega

/-- The state after a successful COMPOSE, before its response (R147, R148). -/
def composed (e : Bool) (s : State) : State :=
  let out := serialize s.cfg (resolveId e s).1 s.composer.txLen s.composer.txType
    (s.composer.txp.readRun 0 s.composer.txLen.toNat)
  { s with
    idgen := (resolveId e s).2
    composer := { s.composer with
      txbuf := s.composer.txbuf.writeRun 0 out
      txCount := BitVec.ofNat 32 (s.cfg.frameLen s.composer.txLen.toNat)
      txLastId := trunc s.cfg.idBits (resolveId e s).1 } }

/-- COMPOSE with a payload that fits always succeeds: its buffer accesses stay inside (R145-R148, R153). -/
theorem execCompose_of_fits {s : State} (hc : s.cfg.wf = true)
    (h : s.composer.txLen.toNat ≤ s.cfg.maxPayload) (e : Bool) :
    execCompose e s =
      finish (composed e s) (BitVec.ofNat 32 (s.cfg.frameLen s.composer.txLen.toNat)) := by
  have hp : payloadTooLarge s.cfg s.composer = false := by simp [payloadTooLarge, h]
  have hl : loadRun s.cfg .txp s.composer.txp s.composer.txLen.toNat =
      .ok (s.composer.txp.readRun 0 s.composer.txLen.toNat) := loadRun_ok.2 ⟨h, rfl⟩
  have hs : ∀ out : List Byte, out.length = s.cfg.frameLen s.composer.txLen.toNat →
      storeRun s.cfg .txbuf s.composer.txbuf out = .ok (s.composer.txbuf.writeRun 0 out) := by
    intro out ho
    exact storeRun_ok.2 ⟨by rw [ho]; exact s.cfg.frameLen_le_txbufSize h, rfl⟩
  simp only [execCompose, whenConfigured_of_wf hc, hp, Bool.false_eq_true, if_false, hl]
  rw [hs _ (by simp)]
  simp [composed]

/-- COMPOSE with too long a payload (R145). -/
theorem execCompose_of_too_large {s : State} (hc : s.cfg.wf = true)
    (h : s.cfg.maxPayload < s.composer.txLen.toNat) (e : Bool) :
    execCompose e s = raise s .payloadTooLarge := by
  simp [execCompose, hc, payloadTooLarge, h]

/-- COMPOSE answers a next state in exactly these two ways (R145, R148). -/
theorem execCompose_next {s t : State} {e : Bool} (h : execCompose e s = .next t) :
    s.cfg.wf = true ∧
      (s.cfg.maxPayload < s.composer.txLen.toNat ∧ t = s.respond .payloadTooLarge 0 ∨
        s.composer.txLen.toNat ≤ s.cfg.maxPayload ∧
          t = (composed e s).respond .ok (BitVec.ofNat 32 (s.cfg.frameLen s.composer.txLen.toNat))) := by
  obtain ⟨hc, _⟩ := whenConfigured_next h
  refine ⟨hc, ?_⟩
  by_cases hl : s.cfg.maxPayload < s.composer.txLen.toNat
  · rw [execCompose_of_too_large hc hl] at h
    exact .inl ⟨hl, (Host.Outcome.next.inj h).symm⟩
  · have hl := Nat.not_lt.1 hl
    rw [execCompose_of_fits hc hl] at h
    exact .inr ⟨hl, (Host.Outcome.next.inj h).symm⟩

/-- A generated ID as a number: the counter's low IDB-1 bits, under the peer bit (R141). -/
theorem generatedId_toNat {c : Config} (hc : c.wf = true) (g : IdGen) :
    (generatedId c g).toNat =
      g.nextId.toNat % 2 ^ (c.idBits - 1) + (if g.peer then 2 ^ (c.idBits - 1) else 0) := by
  have hr := (Config.ranges hc).idw
  have hb : c.idBits - 1 < 32 := by unfold Config.idBits; omega
  have hlt : g.nextId.toNat % 2 ^ (c.idBits - 1) < 2 ^ (c.idBits - 1) := Nat.mod_lt _ (Nat.two_pow_pos _)
  have hp : 2 ^ (c.idBits - 1) < 2 ^ 32 := Nat.pow_lt_pow_right (by omega) hb
  unfold generatedId bitWord
  rw [BitVec.toNat_or, BitVec.toNat_ofNat, Nat.mod_eq_of_lt (by omega)]
  cases g.peer with
  | false => simp
  | true =>
    have : ((if true = true then (1 : Word) else 0) <<< (c.idBits - 1)).toNat = 2 ^ (c.idBits - 1) := by
      simp only [if_true, BitVec.toNat_shiftLeft, Nat.shiftLeft_eq]
      rw [show (1 : Word).toNat = 1 from rfl, Nat.one_mul, Nat.mod_eq_of_lt hp]
    rw [this, if_pos rfl]
    have := Nat.two_pow_add_eq_or_of_lt hlt 1
    rw [Nat.mul_one] at this
    rw [Nat.or_comm, ← this, Nat.add_comm]

/-- A generated ID fits the ID field (R141). -/
theorem generatedId_lt {c : Config} (hc : c.wf = true) (g : IdGen) :
    (generatedId c g).toNat < 2 ^ c.idBits := by
  have hr := (Config.ranges hc).idw
  have hlt : g.nextId.toNat % 2 ^ (c.idBits - 1) < 2 ^ (c.idBits - 1) := Nat.mod_lt _ (Nat.two_pow_pos _)
  have hs : 2 ^ c.idBits = 2 ^ (c.idBits - 1) + 2 ^ (c.idBits - 1) := by
    rw [← Nat.two_mul, ← Nat.pow_succ']
    congr 1
    unfold Config.idBits
    omega
  rw [generatedId_toNat hc]
  split <;> omega

end Sys2Proof.Machine
end

