-- ==== Sys2Proof/Laws/Encoding.lean ====
section
/-! SUPPORT. The fields of a command word (30_encoding.md R81): packing them and reading them back. -/

namespace Sys2Proof

theorem pack_getLsbD (op : BitVec 8) (a : Addr) (d : Word) (k : Nat) :
    (pack op a d).getLsbD k = if k < 32 then d.getLsbD k else if k < 56 then a.getLsbD (k - 32) else op.getLsbD (k - 56) := by
  simp only [pack, BitVec.getLsbD_append]
  by_cases h1 : k < 32
  · simp [h1]
  · by_cases h2 : k < 56
    · simp [h1, h2, show k - 32 < 24 by omega]
    · simp [h1, h2, show ¬ (k - 32 < 24) by omega, show k - 32 - 24 = k - 56 by omega]

theorem opField_pack (op : BitVec 8) (a : Addr) (d : Word) : opField (pack op a d) = op := by
  apply BitVec.eq_of_getLsbD_eq
  intro i hi
  simp only [opField, BitVec.getLsbD_extractLsb', pack_getLsbD]
  simp [hi]; try omega

theorem aField_pack (op : BitVec 8) (a : Addr) (d : Word) : aField (pack op a d) = a := by
  apply BitVec.eq_of_getLsbD_eq
  intro i hi
  simp only [aField, BitVec.getLsbD_extractLsb', pack_getLsbD]
  simp [hi]; try omega

theorem dField_pack (op : BitVec 8) (a : Addr) (d : Word) : dField (pack op a d) = d := by
  apply BitVec.eq_of_getLsbD_eq
  intro i hi
  simp only [dField, BitVec.getLsbD_extractLsb', pack_getLsbD]
  simp [hi]

theorem pack_and (op op' : BitVec 8) (a a' : Addr) (d d' : Word) :
    pack op a d &&& pack op' a' d' = pack (op &&& op') (a &&& a') (d &&& d') := by
  apply BitVec.eq_of_getLsbD_eq
  intro i hi
  simp only [BitVec.getLsbD_and, pack_getLsbD]
  split
  · rfl
  · split <;> rfl

theorem pack_fields (w : CmdWord) : pack (opField w) (aField w) (dField w) = w := by
  apply BitVec.eq_of_getLsbD_eq
  intro i hi
  simp only [pack_getLsbD, opField, aField, dField, BitVec.getLsbD_extractLsb']
  by_cases h1 : i < 32
  · simp [h1]
  · by_cases h2 : i < 56
    · simp [h1, h2, show i - 32 < 24 by omega, show 32 + (i - 32) = i by omega]
    · simp [h1, h2, show i - 56 < 8 by omega, show 56 + (i - 56) = i by omega]

/-- The A bits a row fixes (R88). -/
def Op.aMask : Op → Addr
  | .init => 0xFFFFFF
  | .accept => 0xFFFFFF
  | .tick => 0xFFFFFF
  | .compose => 0xFFFFFE
  | .wrreg => 0
  | .rdreg => 0
  | .txpWr => 0
  | .txbRd => 0
  | .rxbRd => 0

/-- The D bits a row fixes (R88). -/
def Op.dMask : Op → Word
  | .init => 0xFFFFFFFE
  | .accept => 0xFFFFFF00
  | .tick => 0xFFFFFFFF
  | .compose => 0xFFFFFFFF
  | .wrreg => 0
  | .rdreg => 0xFFFFFFFF
  | .txpWr => 0xFFFFFF00
  | .txbRd => 0xFFFFFFFF
  | .rxbRd => 0xFFFFFFFF

theorem Op.mask_eq (o : Op) : o.mask = pack 0xFF o.aMask o.dMask := by cases o <;> decide

theorem Op.pattern_eq (o : Op) : o.pattern = pack o.byte 0 0 := by cases o <;> decide

/-- A word fits a row exactly when its OP is the row's and its fixed A and D bits are 0 (R83, R88). -/
theorem fits_row_iff (w : CmdWord) (o : Op) :
    w &&& o.mask = o.pattern ↔
      opField w = o.byte ∧ aField w &&& o.aMask = 0 ∧ dField w &&& o.dMask = 0 := by
  have hff : ∀ b : BitVec 8, b &&& 0xFF = b := by decide
  have h : w &&& o.mask = pack (opField w) (aField w &&& o.aMask) (dField w &&& o.dMask) := by
    conv_lhs => rw [← pack_fields w, o.mask_eq, pack_and, hff]
  rw [h, o.pattern_eq]
  constructor
  · intro e
    refine ⟨?_, ?_, ?_⟩
    · simpa [opField_pack] using congrArg opField e
    · simpa [aField_pack] using congrArg aField e
    · simpa [dField_pack] using congrArg dField e
  · rintro ⟨h1, h2, h3⟩
    rw [h1, h2, h3]

/-- An OP value names at most one opcode (R83). -/
theorem Op.ofByte_eq_some (b : BitVec 8) (o : Op) : Op.ofByte b = some o ↔ b = o.byte := by
  constructor
  · intro h
    have := List.find?_some h
    exact (beq_iff_eq.1 this).symm
  · rintro rfl
    cases o <;> decide

/-- What the decoder answers, in terms of the rows (R86). -/
theorem decode_ok_iff (w : CmdWord) (i : Instr) :
    decode w = .ok i ↔ ∃ o, w &&& o.mask = o.pattern ∧ i = operands o w := by
  unfold decode
  cases h : Op.ofByte (opField w) with
  | none =>
    simp only [reduceCtorEq, false_iff, not_exists, not_and]
    intro o ho
    have := (Op.ofByte_eq_some _ _).2 ((fits_row_iff w o).1 ho).1
    rw [h] at this
    cases this
  | some o =>
    have hb := (Op.ofByte_eq_some _ _).1 h
    have huniq : ∀ o', w &&& o'.mask = o'.pattern → o' = o := by
      intro o' ho'
      have := (Op.ofByte_eq_some _ _).2 ((fits_row_iff w o').1 ho').1
      rw [h] at this
      exact (Option.some.inj this).symm
    simp only
    split
    · rename_i hm
      constructor
      · intro e
        exact ⟨o, hm, (Except.ok.inj e).symm⟩
      · rintro ⟨o', ho', rfl⟩
        rw [huniq o' ho']
    · rename_i hm
      simp only [reduceCtorEq, false_iff, not_exists, not_and]
      intro o' ho'
      exact absurd (huniq o' ho' ▸ ho') hm

@[simp] theorem operands_op (o : Op) (w : CmdWord) : (operands o w).op = o := by cases o <;> rfl

/-- The three fields of an encoded command (R81). -/
@[simp] theorem opField_encode (i : Instr) : opField (encode i) = i.op.byte := opField_pack _ _ _

@[simp] theorem aField_encode (i : Instr) : aField (encode i) = i.aOperand := aField_pack _ _ _

@[simp] theorem dField_encode (i : Instr) : dField (encode i) = i.dOperand := dField_pack _ _ _

/-- A byte widened to D has its upper bits 0. -/
theorem byte_upper_zero (b : Byte) : b.setWidth 32 &&& 0xFFFFFF00 = (0 : Word) := by
  revert b; decide

end Sys2Proof
end

