-- ==== Sys2Proof/Laws/Parser.lean ====
section
/-! SUPPORT. What each parser action can do, said once (42_parser.md R182-R197): the emission and the end of
a frame, the payload byte, the two halves of ACCEPT. -/

namespace Sys2Proof.Machine

/-- A FRAME carries the session's fields and the first RX_LEN bytes of RXBUF, and is never oversized
(R197, R209). -/
theorem emitFrame_ok {c : Config} {p : Parser} {f : Frame} :
    emitFrame c p = .ok f ↔
      p.rxLen.toNat ≤ c.maxPayload ∧
        f = { id := p.rxId, typ := p.rxType, len := p.rxLen,
              payload := p.rxbuf.readRun 0 p.rxLen.toNat } := by
  unfold emitFrame
  cases h : loadRun c .rxbuf p.rxbuf p.rxLen.toNat with
  | error e =>
    simp only [reduceCtorEq, false_iff, not_and]
    intro hle
    rw [(loadRun_ok (sp := .rxbuf)).2 ⟨hle, rfl⟩] at h
    cases h
  | ok bs =>
    obtain ⟨hle, rfl⟩ := loadRun_ok.1 h
    simp [show p.rxLen.toNat ≤ c.maxPayload from hle, eq_comm]

/-- Every way a frame ends resets the parser (R181, R199). -/
theorem endFrame_ok {c : Config} {p q : Parser} {d : Bool} {ev : Option Frame} :
    endFrame c p d = .ok (q, ev) ↔
      q = parserReset c p ∧
        (d = false ∧ ev = none ∨
          d = true ∧ p.rxLen.toNat ≤ c.maxPayload ∧
            ev = some { id := p.rxId, typ := p.rxType, len := p.rxLen,
                        payload := p.rxbuf.readRun 0 p.rxLen.toNat }) := by
  unfold endFrame
  cases d with
  | false => simp [eq_comm]
  | true =>
    cases h : emitFrame c p with
    | error e =>
      simp only [if_true, reduceCtorEq, false_iff, not_and, false_and, false_or, true_and]
      rintro rfl hle
      rw [emitFrame_ok.2 ⟨hle, rfl⟩] at h
      cases h
    | ok f =>
      obtain ⟨hle, rfl⟩ := emitFrame_ok.1 h
      simp [hle, eq_comm]

/-- The payload byte of DATA (R195). -/
theorem takePayload_ok {c : Config} {b : Byte} {p q : Parser} :
    takePayload c b p = .ok q ↔
      p.discard = true ∧ q = p ∨
        p.discard = false ∧ p.rxi.toNat < c.maxPayload ∧
          q = { p with rxCk := ckAdd c.ckMode p.rxCk b, rxbuf := p.rxbuf.write p.rxi.toNat b } := by
  unfold takePayload
  cases hd : p.discard with
  | true => simp [eq_comm]
  | false =>
    cases h : storeByte c .rxbuf p.rxbuf p.rxi.toNat b with
    | error e =>
      simp only [Bool.false_eq_true, if_false, reduceCtorEq, false_iff, false_and, false_or, true_and,
        not_and]
      intro hlt
      rw [(storeByte_ok (sp := .rxbuf)).2 ⟨hlt, rfl⟩] at h
      cases h
    | ok m =>
      obtain ⟨hlt, rfl⟩ := storeByte_ok.1 h
      simp [show p.rxi.toNat < c.maxPayload from hlt, eq_comm]

/-- No timeout: only the idle counter is cleared (R187, R188). -/
theorem clearIdle_of_running {c : Config} {p : Parser} (ht : p.ticks.toNat < c.timeoutTicks) :
    clearIdle c p = { p with ticks := 0 } := by
  simp [clearIdle, timedOut, Nat.not_le.2 ht]

/-- At the timeout the session is reset (R187). -/
theorem clearIdle_of_timedOut {c : Config} {p : Parser} (ht : c.timeoutTicks ≤ p.ticks.toNat) :
    clearIdle c p = { parserReset c p with ticks := 0 } := by
  simp [clearIdle, timedOut, ht]

@[simp] theorem clearIdle_ticks (c : Config) (p : Parser) : (clearIdle c p).ticks = 0 := rfl

@[simp] theorem clearIdle_rxbuf (c : Config) (p : Parser) : (clearIdle c p).rxbuf = p.rxbuf := by
  simp only [clearIdle]
  split <;> rfl

theorem openFrame_of_marker {c : Config} (h : c.sofEn = true) (p : Parser) : openFrame c p = p := by
  simp [openFrame, h]

theorem openFrame_of_not_sof {c : Config} {p : Parser} (h : p.pstate ≠ .sof) : openFrame c p = p := by
  simp [openFrame, h]

theorem openFrame_of_sof {c : Config} {p : Parser} (hc : c.sofEn = false) (hp : p.pstate = .sof) :
    openFrame c p = beginFrame c p := by simp [openFrame, hc, hp]

@[simp] theorem openFrame_ticks (c : Config) (p : Parser) : (openFrame c p).ticks = p.ticks := by
  unfold openFrame
  split <;> rfl

@[simp] theorem openFrame_rxbuf (c : Config) (p : Parser) : (openFrame c p).rxbuf = p.rxbuf := by
  unfold openFrame
  split <;> rfl

/-- A running partial frame: the byte finds the session as it is, with the idle counter clear. -/
theorem beforeByte_of_running {c : Config} {p : Parser} (ht : p.ticks.toNat < c.timeoutTicks)
    (hs : p.pstate ≠ .sof) : beforeByte c p = { p with ticks := 0 } := by
  rw [beforeByte, clearIdle_of_running ht]
  exact openFrame_of_not_sof (p := { p with ticks := 0 }) hs

/-- With a marker, the state step in SOF is stepSof; without one it never runs (R189, R190). -/
theorem openFrame_sof {c : Config} {p : Parser} (h : (openFrame c p).pstate = .sof) :
    c.sofEn = true := by
  by_contra hc
  have hc : c.sofEn = false := by simpa using hc
  by_cases hp : p.pstate = .sof
  · rw [openFrame_of_sof hc hp] at h
    cases h
  · rw [openFrame_of_not_sof hp] at h
    exact hp h

/-- The idle counter is clear when the state step runs (R188). -/
@[simp] theorem beforeByte_ticks (c : Config) (p : Parser) : (beforeByte c p).ticks = 0 := by
  simp [beforeByte]

/-- The payload buffer is as it was when the state step runs (R182). -/
@[simp] theorem beforeByte_rxbuf (c : Config) (p : Parser) : (beforeByte c p).rxbuf = p.rxbuf := by
  simp [beforeByte]

end Sys2Proof.Machine
end

