-- ==== Sys2Proof/Laws/ParserInv.lean ====
section
/-! SUPPORT. The parser's invariant through each parser action (42_parser.md R182-R205), and the ports'
invariant through a response and an event. -/

namespace Sys2Proof.Machine

/-- A field register holds a value of its width after every byte (R27, R185). -/
theorem shiftIn_fits (n acc b) : Fits (8 * n) (shiftIn n acc b) := shiftIn_lt n acc b

/-- The frame the session holds, when it is not oversized (R206, R209). -/
theorem frameOk_of {c : Config} {p : Parser} (h : p.Inv c) (hl : p.rxLen.toNat ≤ c.maxPayload) :
    Frame.Ok c { id := p.rxId, typ := p.rxType, len := p.rxLen, payload := p.rxbuf.readRun 0 p.rxLen.toNat } :=
  ⟨h.rxIdFits, h.rxTypeFits, hl, by simp⟩

/-- parserReset gives the idle session of R204, whatever it was. -/
theorem parserReset_inv {c : Config} {p : Parser} (ht : p.ticks.toNat ≤ c.timeoutTicks)
    (hb : p.rxbuf.Within c.maxPayload) : (parserReset c p).Inv c where
  rxIdFits := by simp [Fits]
  rxLenFits := by simp [Fits]
  rxTypeFits := by simp [Fits]
  rxCkFits := ckReset_lt _
  rxRefFits := by simp [Fits]
  ticksBound := ht
  idle := fun _ => ⟨rfl, rfl, rfl, rfl, rfl, rfl, rfl⟩
  rxiBelow := by simp [Parser.rxiBound]
  discardInPayload := by intro h; simp [Parser.inPayload] at h
  discardElsewhere := fun _ => rfl
  rxbufWithin := hb

/-- The timeout check keeps the invariant (R187, R188). -/
theorem clearIdle_inv {c : Config} {p : Parser} (h : p.Inv c) : (clearIdle c p).Inv c := by
  have key : ∀ q : Parser, q.Inv c → Parser.Inv c { q with ticks := 0 } := by
    intro q hq
    exact ⟨hq.rxIdFits, hq.rxLenFits, hq.rxTypeFits, hq.rxCkFits, hq.rxRefFits, by simp, hq.idle, hq.rxiBelow,
      hq.discardInPayload, hq.discardElsewhere, hq.rxbufWithin⟩
  unfold clearIdle
  split
  · exact key _ (parserReset_inv h.ticksBound h.rxbufWithin)
  · exact key _ h

/-- A frame begins inside the invariant (R183). -/
theorem beginFrame_inv {c : Config} (hc : c.wf = true) {p : Parser} (h : p.Inv c) : (beginFrame c p).Inv c := by
  have hr := Config.ranges hc
  exact
  { rxIdFits := h.rxIdFits
    rxLenFits := h.rxLenFits
    rxTypeFits := h.rxTypeFits
    rxCkFits := by
      simp only [beginFrame_rxCk]
      split
      · exact ckAdd_lt _ (ckReset_lt _) _
      · exact ckReset_lt _
    rxRefFits := h.rxRefFits
    ticksBound := h.ticksBound
    idle := by simp
    rxiBelow := by
      have := hr.idw
      simp [Parser.rxiBound]
      omega
    discardInPayload := by simp [Parser.inPayload]
    discardElsewhere := by simp
    rxbufWithin := h.rxbufWithin }

/-- Opening a frame without a marker keeps the invariant (R189). -/
theorem openFrame_inv {c : Config} (hc : c.wf = true) {p : Parser} (h : p.Inv c) : (openFrame c p).Inv c := by
  unfold openFrame
  split
  · exact beginFrame_inv hc h
  · exact h

/-- What ACCEPT does before the state step keeps the invariant (R186). -/
theorem beforeByte_inv {c : Config} (hc : c.wf = true) {p : Parser} (h : p.Inv c) : (beforeByte c p).Inv c :=
  openFrame_inv hc (clearIdle_inv h)

/-- A parser action completes, keeps the parser's invariant and emits only frames as R206 and R209 say. -/
abbrev Good (c : Config) (r : ParserResult) : Prop :=
  ∃ q ev, r = .ok (q, ev) ∧ q.Inv c ∧ ∀ f, ev = some f → f.Ok c

/-- Every way a frame ends (R195-R197). -/
theorem endFrame_good {c : Config} {p : Parser} (h : (parserReset c p).Inv c) (d : Bool)
    (hok : d = true → p.rxLen.toNat ≤ c.maxPayload ∧ Fits c.idBits p.rxId ∧ Fits c.typeBits p.rxType) : Good c (endFrame c p d) := by
  cases d with
  | false => exact ⟨parserReset c p, none, endFrame_ok.2 ⟨rfl, .inl ⟨rfl, rfl⟩⟩, h, by simp⟩
  | true =>
    obtain ⟨hl, h1, h2⟩ := hok rfl
    refine ⟨parserReset c p, _, endFrame_ok.2 ⟨rfl, .inr ⟨rfl, hl, rfl⟩⟩, h, ?_⟩
    rintro f ⟨⟩
    exact ⟨h1, h2, hl, by simp⟩

/-- The end of the header (R184). -/
theorem enterData_good {c : Config} {p : Parser}
    (h1 : Fits c.idBits p.rxId) (h2 : Fits c.lenBits p.rxLen) (h3 : Fits c.typeBits p.rxType) (h4 : Fits c.ckBits p.rxRef)
    (h5 : p.ticks.toNat ≤ c.timeoutTicks) (h6 : p.rxbuf.Within c.maxPayload) : Good c (enterData c p) := by
  unfold enterData
  split
  · rename_i hz
    exact endFrame_good (parserReset_inv h5 h6) _ (fun _ => ⟨by simp [hz], h1, h3⟩)
  · rename_i hz
    refine ⟨_, _, rfl, ?_, by simp⟩
    exact
    { rxIdFits := h1
      rxLenFits := h2
      rxTypeFits := h3
      rxCkFits := ckReset_lt _
      rxRefFits := h4
      ticksBound := h5
      idle := by simp
      rxiBelow := by
        simp only [Parser.rxiBound]
        have : p.rxLen.toNat ≠ 0 := fun h => hz (BitVec.eq_of_toNat_eq (by simpa using h))
        simp; omega
      discardInPayload := by simp [oversized]
      discardElsewhere := by simp [Parser.inPayload]
      rxbufWithin := h6 }

/-- A counter below a 32-bit bound counts without wrapping (R26, R33). -/
theorem succ_toNat {v : Word} {n : Nat} (h : v.toNat < n) (hn : n < 2 ^ 32) : (v + 1).toNat = v.toNat + 1 := by
  rw [BitVec.toNat_add]
  simp
  omega

/-- R190. -/
theorem stepSof_good {c : Config} (hc : c.wf = true) {p : Parser} (h : p.Inv c) (b : Byte) : Good c (stepSof c b p) := by
  unfold stepSof
  split
  · exact ⟨_, _, rfl, beginFrame_inv hc h, by simp⟩
  · exact ⟨_, _, rfl, h, by simp⟩

/-- R191. -/
theorem stepId_good {c : Config} (hc : c.wf = true) {p : Parser} (h : p.Inv c) (hs : p.pstate = .id) (b : Byte) : Good c (stepId c b p) := by
  have hr := Config.ranges hc
  have hi : p.rxi.toNat < c.idw := by simpa [Parser.rxiBound, hs] using h.rxiBelow
  have hd : p.discard = false := h.discardElsewhere (by simp [Parser.inPayload, hs])
  have hn := succ_toNat hi (by have := hr.idw; omega)
  unfold stepId
  simp only
  split
  · refine ⟨_, _, rfl, ?_, by simp⟩
    exact ⟨shiftIn_fits _ _ _, h.rxLenFits, h.rxTypeFits, ckAdd_lt _ h.rxCkFits _, h.rxRefFits, h.ticksBound, by simp,
      by have := hr.lenw; simp [Parser.rxiBound]; omega, by simp [Parser.inPayload], by simp [hd], h.rxbufWithin⟩
  · refine ⟨_, _, rfl, ?_, by simp⟩
    exact ⟨shiftIn_fits _ _ _, h.rxLenFits, h.rxTypeFits, ckAdd_lt _ h.rxCkFits _, h.rxRefFits, h.ticksBound, by simp [hs],
      by simp only [Parser.rxiBound, hs]; omega, by simp [Parser.inPayload, hs], by simp [hd], h.rxbufWithin⟩

/-- R192. -/
theorem stepLen_good {c : Config} (hc : c.wf = true) {p : Parser} (h : p.Inv c) (hs : p.pstate = .len) (b : Byte) : Good c (stepLen c b p) := by
  have hr := Config.ranges hc
  have hi : p.rxi.toNat < c.lenw := by simpa [Parser.rxiBound, hs] using h.rxiBelow
  have hd : p.discard = false := h.discardElsewhere (by simp [Parser.inPayload, hs])
  have hn := succ_toNat hi (by have := hr.lenw; omega)
  unfold stepLen
  simp only
  split
  · refine ⟨_, _, rfl, ?_, by simp⟩
    exact ⟨h.rxIdFits, shiftIn_fits _ _ _, h.rxTypeFits, ckAdd_lt _ h.rxCkFits _, h.rxRefFits, h.ticksBound, by simp,
      by have := hr.typew; simp [Parser.rxiBound]; omega, by simp [Parser.inPayload], by simp [hd], h.rxbufWithin⟩
  · refine ⟨_, _, rfl, ?_, by simp⟩
    exact ⟨h.rxIdFits, shiftIn_fits _ _ _, h.rxTypeFits, ckAdd_lt _ h.rxCkFits _, h.rxRefFits, h.ticksBound, by simp [hs],
      by simp only [Parser.rxiBound, hs]; omega, by simp [Parser.inPayload, hs], by simp [hd], h.rxbufWithin⟩

/-- R193. -/
theorem stepType_good {c : Config} (hc : c.wf = true) {p : Parser} (h : p.Inv c) (hs : p.pstate = .type) (b : Byte) : Good c (stepType c b p) := by
  have hr := Config.ranges hc
  have hi : p.rxi.toNat < c.typew := by simpa [Parser.rxiBound, hs] using h.rxiBelow
  have hd : p.discard = false := h.discardElsewhere (by simp [Parser.inPayload, hs])
  have hn := succ_toNat hi (by have := hr.typew; omega)
  unfold stepType
  simp only
  split
  · split
    · exact enterData_good h.rxIdFits h.rxLenFits (shiftIn_fits _ _ _) h.rxRefFits h.ticksBound h.rxbufWithin
    · rename_i hck
      refine ⟨_, _, rfl, ?_, by simp⟩
      exact ⟨h.rxIdFits, h.rxLenFits, shiftIn_fits _ _ _, ckAdd_lt _ h.rxCkFits _, by simp [Fits], h.ticksBound, by simp,
        by simpa [Parser.rxiBound] using Nat.pos_of_ne_zero (fun h0 => hck (c.ckw_eq_zero.1 h0)), by simp [Parser.inPayload], by simp [hd], h.rxbufWithin⟩
  · refine ⟨_, _, rfl, ?_, by simp⟩
    exact ⟨h.rxIdFits, h.rxLenFits, shiftIn_fits _ _ _, ckAdd_lt _ h.rxCkFits _, h.rxRefFits, h.ticksBound, by simp [hs],
      by simp only [Parser.rxiBound, hs]; omega, by simp [Parser.inPayload, hs], by simp [hd], h.rxbufWithin⟩

/-- R194. -/
theorem stepHead_good {c : Config} {p : Parser} (h : p.Inv c) (hs : p.pstate = .headCksum) (b : Byte) : Good c (stepHead c b p) := by
  have hi : p.rxi.toNat < c.ckw := by simpa [Parser.rxiBound, hs] using h.rxiBelow
  have hd : p.discard = false := h.discardElsewhere (by simp [Parser.inPayload, hs])
  have hn := succ_toNat hi (by have := c.ckw_le; omega)
  unfold stepHead
  simp only
  split
  · split
    · exact enterData_good h.rxIdFits h.rxLenFits h.rxTypeFits (shiftIn_fits _ _ _) h.ticksBound h.rxbufWithin
    · exact ⟨_, _, rfl, parserReset_inv h.ticksBound h.rxbufWithin, by simp⟩
  · refine ⟨_, _, rfl, ?_, by simp⟩
    exact ⟨h.rxIdFits, h.rxLenFits, h.rxTypeFits, h.rxCkFits, shiftIn_fits _ _ _, h.ticksBound, by simp [hs],
      by simp only [Parser.rxiBound, hs]; omega, by simp [Parser.inPayload, hs], by simp [hd], h.rxbufWithin⟩

/-- R196. -/
theorem stepDck_good {c : Config} {p : Parser} (h : p.Inv c) (hs : p.pstate = .dataCksum) (b : Byte) : Good c (stepDck c b p) := by
  have hi : p.rxi.toNat < c.ckw := by simpa [Parser.rxiBound, hs] using h.rxiBelow
  have hd := h.discardInPayload (by simp [Parser.inPayload, hs])
  have hn := succ_toNat hi (by have := c.ckw_le; omega)
  unfold stepDck
  simp only
  split
  · refine endFrame_good (parserReset_inv h.ticksBound h.rxbufWithin) _ ?_
    intro hdd
    refine ⟨?_, h.rxIdFits, h.rxTypeFits⟩
    simp only [Bool.and_eq_true, Bool.not_eq_true'] at hdd
    rw [hd] at hdd
    simpa using hdd.1
  · refine ⟨_, _, rfl, ?_, by simp⟩
    exact ⟨h.rxIdFits, h.rxLenFits, h.rxTypeFits, h.rxCkFits, shiftIn_fits _ _ _, h.ticksBound, by simp [hs],
      by simp only [Parser.rxiBound, hs]; omega, by simpa [Parser.inPayload, hs] using hd, by simp [Parser.inPayload, hs], h.rxbufWithin⟩

/-- R195. -/
theorem stepData_good {c : Config} {p : Parser} (h : p.Inv c) (hs : p.pstate = .data) (b : Byte) : Good c (stepData c b p) := by
  have hi : p.rxi.toNat < p.rxLen.toNat := by simpa [Parser.rxiBound, hs] using h.rxiBelow
  have hd := h.discardInPayload (by simp [Parser.inPayload, hs])
  have hn := succ_toNat hi p.rxLen.isLt
  obtain ⟨q, hq, hqi, hqs⟩ : ∃ q, takePayload c b p = .ok q ∧ q.Inv c ∧ q.pstate = .data ∧ q.rxi = p.rxi ∧ q.rxLen = p.rxLen ∧ q.discard = p.discard := by
    cases hdd : p.discard with
    | true => exact ⟨p, takePayload_ok.2 (.inl ⟨hdd, rfl⟩), h, hs, rfl, rfl, hdd⟩
    | false =>
      have hm : p.rxi.toNat < c.maxPayload := by
        rw [hdd] at hd
        have : ¬ c.maxPayload < p.rxLen.toNat := by simpa using hd.symm
        omega
      refine ⟨_, takePayload_ok.2 (.inr ⟨hdd, hm, rfl⟩), ?_, hs, rfl, rfl, hdd⟩
      exact ⟨h.rxIdFits, h.rxLenFits, h.rxTypeFits, ckAdd_lt _ h.rxCkFits _, h.rxRefFits, h.ticksBound, by simp [hs],
        h.rxiBelow, h.discardInPayload, h.discardElsewhere,
        ⟨Memory.write_wf h.rxbufWithin.1 _ _, Memory.write_bound h.rxbufWithin.2 hm _⟩⟩
  obtain ⟨hqs, hqx, hql, hqd⟩ := hqs
  unfold stepData
  simp only [hq]
  split
  · rename_i hend
    split
    · refine endFrame_good (parserReset_inv hqi.ticksBound hqi.rxbufWithin) _ ?_
      intro hdd
      refine ⟨?_, hqi.rxIdFits, hqi.rxTypeFits⟩
      have hdd : q.discard = false := by simpa using hdd
      rw [hqd, hd] at hdd
      simp only [hql]
      simpa using hdd
    · rename_i hck
      refine ⟨_, _, rfl, ?_, by simp⟩
      exact ⟨hqi.rxIdFits, hqi.rxLenFits, hqi.rxTypeFits, hqi.rxCkFits, by simp [Fits], hqi.ticksBound, by simp,
        by simpa [Parser.rxiBound] using Nat.pos_of_ne_zero (fun h0 => hck (c.ckw_eq_zero.1 h0)), by simp [hqd, hd, hql], by simp [Parser.inPayload], hqi.rxbufWithin⟩
  · rename_i hend
    refine ⟨_, _, rfl, ?_, by simp⟩
    have hne : p.rxi.toNat + 1 ≠ p.rxLen.toNat := by
      intro he
      apply hend
      apply BitVec.eq_of_toNat_eq
      simp only [hqx, hql, hn, he]
    exact ⟨hqi.rxIdFits, hqi.rxLenFits, hqi.rxTypeFits, hqi.rxCkFits, hqi.rxRefFits, hqi.ticksBound, by simp [hqs],
      by simp only [Parser.rxiBound, hqs, hqx, hql, hn]; omega, by simpa [Parser.inPayload, hqs, hqd, hql] using hd, by simp [Parser.inPayload, hqs], hqi.rxbufWithin⟩

/-- The parser's part of ACCEPT (R186): no access leaves RXBUF (R208), no oversized frame comes out (R209). -/
theorem acceptByte_good {c : Config} (hc : c.wf = true) {p : Parser} (h : p.Inv c) (b : Byte) : Good c (acceptByte c b p) := by
  have hb := beforeByte_inv hc h
  unfold acceptByte stepByte
  cases hs : (beforeByte c p).pstate with
  | sof => exact stepSof_good hc hb b
  | id => exact stepId_good hc hb hs b
  | len => exact stepLen_good hc hb hs b
  | type => exact stepType_good hc hb hs b
  | headCksum => exact stepHead_good hb hs b
  | data => exact stepData_good hb hs b
  | dataCksum => exact stepDck_good hb hs b

/-- One response keeps what has left the ports in order (R84, R260). -/
theorem Port.Inv.respond {s : State} (h : s.port.Inv s.cfg) {st : Status} {d : Word} (hd : st ≠ .ok → d = 0) :
    (s.respond st d).port.Inv s.cfg := by
  refine ⟨?_, h.framesOk, ?_, h.oneEach⟩
  · intro r hr hne
    simp only [respond_responses, List.mem_append, List.mem_singleton] at hr
    rcases hr with hr | rfl
    · exact h.errorDataZero r hr hne
    · exact hd hne
  · intro e he
    rw [respond_frames] at he
    have := h.indexAnswered e he
    simp only [respond_responses, List.length_append, List.length_singleton]
    omega

/-- The event and the response of one command keep it too (R199, R206). -/
theorem Port.Inv.emit {s : State} (h : s.port.Inv s.cfg) {ev : Option Frame} (hf : ∀ f, ev = some f → f.Ok s.cfg) (d : Word) :
    ((s.emit ev).respond .ok d).port.Inv s.cfg := by
  cases ev with
  | none => exact Port.Inv.respond h (by simp)
  | some f =>
    refine ⟨?_, ?_, ?_, ?_⟩
    · intro r hr hne
      simp only [respond_responses, emit_responses, List.mem_append, List.mem_singleton] at hr
      rcases hr with hr | rfl
      · exact h.errorDataZero r hr hne
      · simp at hne
    · intro e he
      simp only [respond_frames, emit_some_frames, List.mem_append, List.mem_singleton] at he
      rcases he with he | rfl
      · exact h.framesOk e he
      · exact hf f rfl
    · intro e he
      simp only [respond_frames, emit_some_frames, List.mem_append, List.mem_singleton] at he
      simp only [respond_responses, emit_responses, List.length_append, List.length_singleton]
      rcases he with he | rfl
      · have := h.indexAnswered e he; omega
      · simp
    · simp only [respond_frames, emit_some_frames]
      rw [List.pairwise_append]
      refine ⟨h.oneEach, by simp, ?_⟩
      intro a ha b hb
      rw [List.mem_singleton] at hb
      subst hb
      exact h.indexAnswered a ha

/-- A response keeps the invariant. -/
theorem State.Inv.respond {s : State} (h : s.Inv) {st : Status} {d : Word} (hd : st ≠ .ok → d = 0) : (s.respond st d).Inv :=
  ⟨h.configWf, h.parser, h.nextIdFits, h.composer, Port.Inv.respond h.port hd⟩

end Sys2Proof.Machine
end

