-- ==== Sys2Proof/Laws/PerInstr.lean ====
section
/-! SUPPORT. Statements for all commands, one lemma per constructor of `Instr`. -/

namespace Sys2Proof.Laws.FitsRow

/-- The command's word has the fixed bits of its row of the opcode table (30_encoding.md R88). -/
def Statement (i : Instr) : Prop := encode i &&& i.op.mask = i.op.pattern

theorem init (p : Bool) : Statement (.init p) := by unfold Statement; cases p <;> decide

theorem accept (b : Byte) : Statement (.accept b) := by
  refine (fits_row_iff _ _).2 ⟨by simp, by simp [Instr.aOperand], ?_⟩
  rw [dField_encode]
  exact byte_upper_zero b

theorem tick : Statement .tick := by unfold Statement; decide

theorem compose (e : Bool) : Statement (.compose e) := by unfold Statement; cases e <;> decide

theorem wrreg (r : Addr) (v : Word) : Statement (.wrreg r v) :=
  (fits_row_iff _ _).2 ⟨by simp, by simp [Instr.op, Op.aMask], by simp [Instr.op, Op.dMask]⟩

theorem rdreg (r : Addr) : Statement (.rdreg r) :=
  (fits_row_iff _ _).2 ⟨by simp, by simp [Instr.op, Op.aMask], by simp [Instr.dOperand]⟩

theorem txpWr (i : Addr) (b : Byte) : Statement (.txpWr i b) := by
  refine (fits_row_iff _ _).2 ⟨by simp, by simp [Instr.op, Op.aMask], ?_⟩
  rw [dField_encode]
  exact byte_upper_zero b

theorem txbRd (i : Addr) : Statement (.txbRd i) :=
  (fits_row_iff _ _).2 ⟨by simp, by simp [Instr.op, Op.aMask], by simp [Instr.dOperand]⟩

theorem rxbRd (i : Addr) : Statement (.rxbRd i) :=
  (fits_row_iff _ _).2 ⟨by simp, by simp [Instr.op, Op.aMask], by simp [Instr.dOperand]⟩

end Sys2Proof.Laws.FitsRow
end

