-- ==== Sys2Proof/Laws/Runs.lean ====
section
/-! SUPPORT. Running a list of commands (20_memory.md R70, R73; 30_encoding.md R92). -/

namespace Sys2Proof.Machine

@[simp] theorem execAll_nil (s : State) : execAll [] s = .next s := rfl

theorem execAll_cons {i : Instr} {s t : State} (h : exec i s = .next t) (is : List Instr) :
    execAll (i :: is) s = execAll is t := by simp only [execAll, h]

/-- A run of two lists, one after the other. -/
theorem execAll_append {is js : List Instr} {s t : State} (h : execAll is s = .next t) :
    execAll (is ++ js) s = execAll js t := by
  induction is generalizing s with
  | nil => cases h; rfl
  | cons i is ih =>
    simp only [execAll, List.cons_append] at h ⊢
    split at h
    · exact ih h
    · cases h
    · cases h

@[simp] theorem acceptBuf_append (xs ys : List Byte) : acceptBuf (xs ++ ys) = acceptBuf xs ++ acceptBuf ys :=
  List.map_append

@[simp] theorem acceptBuf_length (bs : List Byte) : (acceptBuf bs).length = bs.length := List.length_map _

@[simp] theorem tickN_length (k : Nat) : (tickN k).length = k := List.length_replicate

end Sys2Proof.Machine
end

