-- ==== Sys2Proof/Tests/Slice0.lean ====
section
/-! SUPPORT. Tests and witnesses. Expected values come from spec/95_test_vectors.md, spec/30_encoding.md and
the worked examples of the section files; each docstring names its source. A `witness_` theorem shows inputs
that meet all hypotheses of the statement it is named after. -/

namespace Sys2Proof.Tests

open Sys2Proof Sys2Proof.Machine

/-! ## Configurations and states -/

/-- CFG-A (95_test_vectors.md section 2). -/
abbrev cfgA : Config := Config.cfgA

/-- CFG-B (95_test_vectors.md section 2). -/
def cfgB : Config :=
  { sofEn := false, sofVal := 0x00, idw := 2, lenw := 2, typew := 2, ckMode := .crc16, maxPayload := 16,
    timeoutTicks := 5 }

/-- CFG-C (95_test_vectors.md section 2). -/
def cfgC : Config :=
  { sofEn := true, sofVal := 0xAA, idw := 4, lenw := 1, typew := 1, ckMode := .crc32, maxPayload := 4,
    timeoutTicks := 2 }

/-- CFG-D (95_test_vectors.md section 2). -/
def cfgD : Config :=
  { sofEn := true, sofVal := 0x55, idw := 1, lenw := 1, typew := 1, ckMode := .none, maxPayload := 4,
    timeoutTicks := 2 }

/-- The next state of an outcome. -/
def nextState : Result → Option State
  | .next t => some t
  | .fault _ => none
  | .refused _ => none

/-- The next state of an outcome, or `s` where there is none. -/
def nextOr (r : Result) (s : State) : State := (nextState r).getD s

theorem next_of {r : Result} {s : State} (h : (nextState r).isSome = true) : r = .next (nextOr r s) := by
  cases r <;> simp_all [nextState, nextOr]

theorem exists_next {r : Result} (h : (nextState r).isSome = true) : ∃ t, r = .next t := by
  cases r <;> simp_all [nextState]

/-- A property of the next state, false where there is none. -/
def after (r : Result) (p : State → Bool) : Bool :=
  match r with
  | .next t => p t
  | .fault _ => false
  | .refused _ => false

/-- The last response is (OK, d). -/
def answered (d : Word) (s : State) : Bool := s.port.responses.getLast? == some { status := .ok, data := d }

/-- The last response has status `st`, with DATA 0. -/
def raised (st : Status) (s : State) : Bool := s.port.responses.getLast? == some { status := st, data := 0 }

/-- The block after reset, with another parser session. -/
def withParser (c : Config) (p : Parser) : State := { State.resetWith c with parser := p }

/-- The block after reset, with another composer and ID generator. -/
def withComposer (c : Config) (g : IdGen) (k : Composer) : State :=
  { State.resetWith c with idgen := g, composer := k }

/-- The block after reset, with one command word pending. -/
def withWord (c : Config) (w : CmdWord) : State := (State.resetWith c).withFetchWord 64 w.toNat

/-- TX_TYPE, TX_LEN, TX_ID and the bytes of TXP (95_test_vectors.md section 5). -/
def operandsOf (typ len id : Word) (payload : List Byte) : Composer :=
  { Composer.reset with txType := typ, txLen := len, txId := id, txp := Memory.writeRun [] 0 payload }

/-- The CFG-A block ready to compose `41 42` with type 0x22. -/
def readyA : State := withComposer cfgA (IdGen.reset false) (operandsOf 0x22 2 0 [0x41, 0x42])

/-- The CFG-C block ready to compose `41 42` with type 0x22. -/
def readyC : State := withComposer cfgC (IdGen.reset false) (operandsOf 0x22 2 0 [0x41, 0x42])

/-- The CFG-D block ready to compose `41 42` with type 0x22. -/
def readyD : State := withComposer cfgD (IdGen.reset false) (operandsOf 0x22 2 0 [0x41, 0x42])

/-! ## The invariant of a concrete state -/

/-- What `Parser.Inv` says, as a decidable conjunction. -/
abbrev ParserOk (c : Config) (p : Parser) : Prop :=
  Fits c.idBits p.rxId ∧ Fits c.lenBits p.rxLen ∧ Fits c.typeBits p.rxType ∧ Fits c.ckBits p.rxCk
    ∧ Fits c.ckBits p.rxRef ∧ p.ticks.toNat ≤ c.timeoutTicks ∧ (p.pstate = .sof → p.Idle c)
    ∧ p.rxi.toNat < p.rxiBound c ∧ (p.inPayload → p.discard = decide (c.maxPayload < p.rxLen.toNat))
    ∧ (¬ p.inPayload → p.discard = false) ∧ p.rxbuf.Within c.maxPayload

/-- What `Composer.Inv` says, as a decidable conjunction. -/
abbrev ComposerOk (c : Config) (k : Composer) : Prop :=
  Fits c.typeBits k.txType ∧ Fits c.idBits k.txId ∧ Fits c.idBits k.txLastId
    ∧ k.txCount.toNat ≤ c.txbufSize ∧ k.txp.Within c.maxPayload ∧ k.txbuf.Within c.txbufSize

/-- A state of the invariant whose ports have answered and emitted nothing. -/
abbrev Quiet (s : State) : Prop :=
  s.cfg.wf = true ∧ ParserOk s.cfg s.parser ∧ Fits s.cfg.idBits s.idgen.nextId
    ∧ ComposerOk s.cfg s.composer ∧ s.port.responses = [] ∧ s.port.frames = []

theorem inv_of_quiet {s : State} (h : Quiet s) : s.Inv := by
  obtain ⟨hc, ⟨p1, p2, p3, p4, p5, p6, p7, p8, p9, p10, p11⟩, hn, ⟨k1, k2, k3, k4, k5, k6⟩, hr, hf⟩ := h
  exact ⟨hc, ⟨p1, p2, p3, p4, p5, p6, p7, p8, p9, p10, p11⟩, hn, ⟨k1, k2, k3, k4, k5, k6⟩,
    by constructor <;> simp [hr, hf]⟩

/-! ## Well-formedness: each check refuses (00_scope.md R6, R8, R9, R11) -/

theorem test_wf_accepts : cfgA.wf && cfgB.wf && cfgC.wf && cfgD.wf = true := by decide

theorem test_wf_id_width : { cfgA with idw := 3 }.wf = false := by decide
theorem test_wf_len_width : { cfgA with lenw := 0 }.wf = false := by decide
theorem test_wf_type_width : { cfgA with typew := 5 }.wf = false := by decide
theorem test_wf_payload_zero : { cfgA with maxPayload := 0 }.wf = false := by decide
theorem test_wf_payload_above_len : { cfgC with maxPayload := 256 }.wf = false := by decide
theorem test_wf_payload_at_len : { cfgC with maxPayload := 255 }.wf = true := by decide
theorem test_wf_txbuf_too_large : { cfgA with lenw := 4, maxPayload := 2 ^ 24 }.wf = false := by decide
theorem test_wf_timeout_zero : { cfgA with timeoutTicks := 0 }.wf = false := by decide
theorem test_wf_timeout_too_large : { cfgA with timeoutTicks := 2 ^ 32 }.wf = false := by decide

/-! ## Decoding: words from the fields of R81-R83, one for each command, and illegal words -/

theorem test_decode_init : decode 0x0100000000000001 = .ok (.init true) := by decide
theorem test_decode_accept : decode 0x02000000000000DE = .ok (.accept 0xDE) := by decide
theorem test_decode_tick : decode 0x0300000000000000 = .ok .tick := by decide
theorem test_decode_compose : decode 0x0400000100000000 = .ok (.compose true) := by decide
theorem test_decode_wrreg : decode 0x0500002100000002 = .ok (.wrreg 0x000021 2) := by decide
theorem test_decode_rdreg : decode 0x0600003500000000 = .ok (.rdreg 0x000035) := by decide
theorem test_decode_txp_wr : decode 0x0700000100000042 = .ok (.txpWr 0x000001 0x42) := by decide
theorem test_decode_txb_rd : decode 0x0800000E00000000 = .ok (.txbRd 0x00000E) := by decide
theorem test_decode_rxb_rd : decode 0x0980000100000000 = .ok (.rxbRd 0x800001) := by decide

/-- R87. -/
theorem test_decode_reserved_opcodes :
    decode 0 = .error .reservedOpcode ∧ decode 0x0A00000000000000 = .error .reservedOpcode
      ∧ decode 0xFFFFFFFFFFFFFFFF = .error .reservedOpcode := by decide

/-- R88: one reserved bit of each row set. -/
theorem test_decode_reserved_fields :
    decode 0x0100000000000002 = .error .reservedField ∧ decode 0x0200000000000100 = .error .reservedField
      ∧ decode 0x0300000000000001 = .error .reservedField ∧ decode 0x0400000200000000 = .error .reservedField
      ∧ decode 0x0600000000000001 = .error .reservedField ∧ decode 0x0700000000000100 = .error .reservedField
      ∧ decode 0x0800000080000000 = .error .reservedField ∧ decode 0x0900000000000001 = .error .reservedField := by
  decide

theorem test_decode_table_word : decodeTableWord 64 0x0700000100000042 = some (.txpWr 0x000001 0x42) := by decide

/-! ## Checksums (95_test_vectors.md section 3) -/

theorem test_crc16_table : crcTable P16 0x01 = 0xC0C1 ∧ crcTable P16 0x80 = 0xA001 := by decide
theorem test_crc32_table : crcTable P32 0x01 = 0x77073096 ∧ crcTable P32 0x80 = 0xEDB88320 := by decide
theorem test_crc_add :
    ckAdd .crc16 0x30C0 0x41 = 0x60F0 ∧ ckAdd .crc32 0xFFFFFFFF 0x41 = 0x2C266174 ∧ ckAdd .xor8 0x5A 0x41 = 0x1B := by
  decide

/-! ## One step of each command -/

/-- R86-R88, R305: an illegal word is answered with ILLEGAL and changes nothing else. -/
theorem test_step_illegal :
    after (step (withWord cfgA 0x0A00000000000000)) (fun t => t == (State.resetWith cfgA).respond .illegal 0) = true := by
  decide

/-- R275. -/
theorem test_step_holds : nextState (step State.reset) = some State.reset := by decide

/-- R240 at CFG-C: RX_CK is 0xFFFFFFFF (43_control.md), PEER is the operand. -/
theorem test_init :
    after (step { withWord cfgC 0x0100000000000001 with composer := readyC.composer })
      (fun t => t.parser.rxCk == 0xFFFFFFFF && t.idgen == { peer := true, nextId := 0 }
        && t.composer == Composer.reset && answered 0 t) = true := by decide

/-- Trace T3, the last header checksum byte (95_test_vectors.md section 6). -/
def headC : Parser :=
  { Parser.reset cfgC with pstate := .headCksum, rxi := 3, rxLen := 2, rxType := 0x22, rxCk := 0x661E8FC7, rxRef := 0x99E170 }

theorem test_accept_header_match :
    after (exec (.accept 0x38) (withParser cfgC headC))
      (fun t => t.parser == { headC with pstate := .data, rxi := 0, rxCk := 0xFFFFFFFF, rxRef := 0x99E17038 }
        && t.port.frames == [] && answered 0 t) = true := by decide

/-- Trace T2, the last byte: the frame comes out (95_test_vectors.md section 6). -/
def lastB : Parser :=
  { Parser.reset cfgB with
    pstate := .dataCksum
    rxi := 1
    rxLen := 2
    rxType := 0x22
    rxCk := 0x61B0
    rxRef := 0x61
    rxbuf := [(0, 0x41), (1, 0x42)] }

theorem test_accept_frame :
    after (exec (.accept 0xB0) (withParser cfgB lastB))
      (fun t => t.parser == { Parser.reset cfgB with rxbuf := [(0, 0x41), (1, 0x42)] }
        && t.port.frames == [{ index := 0, frame := { id := 0, typ := 0x22, len := 2, payload := [0x41, 0x42] } }]
        && answered 0 t) = true := by decide

/-- R201: TICKS saturates at TIMEOUT_TICKS (2 for CFG-C). -/
theorem test_tick :
    after (exec .tick (withParser cfgC { headC with ticks := 1 })) (fun t => t.parser == { headC with ticks := 2 }) = true
      ∧ after (exec .tick (withParser cfgC { headC with ticks := 2 })) (fun t => t.parser == { headC with ticks := 2 }) = true := by
  decide

/-- CFG-C, payload `41 42` (95_test_vectors.md section 5.1). -/
theorem test_compose_generated :
    after (exec (.compose false) readyC)
      (fun t => t.composer.txbuf.readRun 0 17
          == [0xAA, 0, 0, 0, 0, 0x02, 0x22, 0x99, 0xE1, 0x70, 0x38, 0x41, 0x42, 0x30, 0x69, 0x4C, 0x07]
        && t.composer.txCount == 17 && t.composer.txLastId == 0 && t.idgen.nextId == 1 && answered 17 t) = true := by
  decide

/-- CFG-B, COMPOSE 1 with TX_ID 0xABCD (95_test_vectors.md section 5.1). -/
theorem test_compose_explicit :
    after (exec (.compose true) (withComposer cfgB (IdGen.reset false) (operandsOf 0x0102 1 0xABCD [0x01])))
      (fun t => t.composer.txbuf.readRun 0 11 == [0xAB, 0xCD, 0x00, 0x01, 0x01, 0x02, 0x9A, 0xE5, 0x01, 0xC0, 0xC1]
        && t.composer.txLastId == 0xABCD && t.idgen == IdGen.reset false && answered 11 t) = true := by decide

/-- R241: bits above the register's width are dropped; PEER is read-only. -/
theorem test_wrreg :
    after (exec (.wrreg 0x000020 0x12345678) (State.resetWith cfgB)) (fun t => t.composer.txType == 0x5678 && answered 0 t) = true
      ∧ after (exec (.wrreg 0x000010 1) (State.resetWith cfgB)) (fun t => !t.idgen.peer && raised .badReg t) = true := by
  decide

/-- CFG0 and CFG3 of CFG-C (95_test_vectors.md section 2), and a hole of the map (R41). -/
theorem test_rdreg :
    after (exec (.rdreg 0x000000) (State.resetWith cfgC)) (answered 0xAA013114) = true
      ∧ after (exec (.rdreg 0x000003) (State.resetWith cfgC)) (answered 0x00000F04) = true
      ∧ after (exec (.rdreg 0x000004) (State.resetWith cfgC)) (raised .badReg) = true := by decide

/-- R151 at the end of TXP (MAX_PAYLOAD 8). -/
theorem test_txp_wr :
    after (exec (.txpWr 7 0xAB) (State.resetWith cfgA)) (fun t => t.composer.txp == [(7, 0xAB)] && answered 0 t) = true
      ∧ after (exec (.txpWr 8 0xAB) (State.resetWith cfgA)) (fun t => t.composer.txp == [] && raised .badAddr t) = true := by
  decide

/-- R152 at the end of TXBUF (TXBUF_SIZE 15). -/
theorem test_txb_rd :
    after (exec (.txbRd 14) (withComposer cfgA (IdGen.reset false) { Composer.reset with txbuf := [(14, 0xF7)] })) (answered 0xF7) = true
      ∧ after (exec (.txbRd 15) (State.resetWith cfgA)) (raised .badAddr) = true := by decide

/-- R203 at the end of RXBUF (MAX_PAYLOAD 8). -/
theorem test_rxb_rd :
    after (exec (.rxbRd 7) (withParser cfgA { Parser.reset cfgA with rxbuf := [(7, 0x80)] })) (answered 0x80) = true
      ∧ after (exec (.rxbRd 8) (State.resetWith cfgA)) (raised .badAddr) = true := by decide

/-! ## Witnesses: encoding and the step -/

theorem witness_EncodeOfDecodeIsTheWord : decode 0x07FFFFFF000000AB = .ok (.txpWr 0xFFFFFF 0xAB) := by decide

theorem witness_WordIsCommandExactlyWhenItsRowMatches :
    (decode 0x0300000000000000 = .ok .tick) ∧
    opField 0x0300000000000001 = Op.tick.byte ∧ (0x0300000000000001 : CmdWord) &&& Op.tick.mask ≠ Op.tick.pattern ∧
    (withWord cfgA 0x0300000000000001).cfg.wf = true ∧
    (withWord cfgA 0x0300000000000001).port.pending = 0x0300000000000001 :: [] := by decide

theorem witness_ReservedOpcodeIsIllegal :
    opField 0x0012345600000000 = 0 ∧ 0x0A ≤ (opField 0x0A00000000000000).toNat ∧
    (withWord cfgA 0x0A00000000000000).cfg.wf = true ∧
    (withWord cfgA 0x0A00000000000000).port.pending = 0x0A00000000000000 :: [] := by decide

theorem witness_StepRunsTheDecodedCommand :
    (withWord cfgB 0x0200000000000041).port.pending = 0x0200000000000041 :: [] ∧
    decode 0x0200000000000041 = .ok (.accept 0x41) := by decide

theorem witness_StepHoldsStateWithoutCommand :
    (State.resetWith cfgB).cfg.wf = true ∧ (State.resetWith cfgB).port.pending = [] := by decide

theorem witness_IllFormedConfigurationIsRefused :
    (State.resetWith cfgA).cfg.wf = true ∧ (State.resetWith { cfgA with idw := 3 }).cfg.wf = false := by decide

/-! ## Witnesses: the invariant and safety -/

/-- The CFG-C block in the middle of trace T3, about to run the byte that completes the header. -/
def busyC : State := { withParser cfgC headC with port := (withWord cfgC 0x0200000000000038).port }

theorem busyC_inv : busyC.Inv := inv_of_quiet (by decide)
theorem readyA_inv : readyA.Inv := inv_of_quiet (by decide)
theorem readyC_inv : readyC.Inv := inv_of_quiet (by decide)
theorem idle_inv_A : (State.resetWith cfgA).Inv := inv_of_quiet (by decide)
theorem idle_inv_B : (State.resetWith cfgB).Inv := inv_of_quiet (by decide)
theorem idle_inv_C : (State.resetWith cfgC).Inv := inv_of_quiet (by decide)

theorem witness_ResetMeetsTheInvariant : cfgA.wf = true ∧ cfgB.wf = true := by decide

theorem witness_StepKeepsTheInvariant : ∃ t, busyC.Inv ∧ step busyC = .next t ∧ t.parser.pstate = .data :=
  ⟨nextOr (step busyC) busyC, busyC_inv, next_of (by decide), by decide⟩

theorem witness_StepNeverStops : busyC.Inv ∧ busyC.port.pending ≠ [] := ⟨busyC_inv, by decide⟩

/-- The host issues words one after the other. -/
def issueAll (s : State) (ws : List CmdWord) : State :=
  ws.foldl (fun s w => nextOr (step { s with port := { s.port with pending := [w] } }) s) s

theorem reachable_issueAll {c : Config} (ws : List CmdWord) {s : State} (h : Reachable c s) :
    Reachable c (issueAll s ws) := by
  induction ws generalizing s with
  | nil => exact h
  | cons w ws ih =>
    refine ih ?_
    simp only [nextOr]
    cases hn : step { s with port := { s.port with pending := [w] } } with
    | next t => exact .step (h.issue [w]) hn
    | fault f => exact h
    | refused r => exact h

/-- The state after a list of bytes, from reset. -/
abbrev fed (c : Config) (bs : List Byte) : State := issueAll (State.resetWith c) (bs.map fun b => encode (.accept b))

/-- One reachable state for each clause: the traces T3, T4, T8 and T9 of 95_test_vectors.md, cut short. -/
theorem witness_ReachableStatesMeetTheParserRules :
    (cfgC.wf = true ∧ cfgD.wf = true ∧ cfgA.wf = true) ∧
    (Reachable cfgC (fed cfgC []) ∧ (fed cfgC []).parser.pstate = .sof) ∧
    (Reachable cfgC (fed cfgC [0xAA, 0, 0, 0]) ∧ (fed cfgC [0xAA, 0, 0, 0]).parser.pstate = .id) ∧
    (Reachable cfgA (fed cfgA [0x01, 0, 0]) ∧ (fed cfgA [0x01, 0, 0]).parser.pstate = .len) ∧
    (Reachable cfgD (fed cfgD [0x55, 0, 5]) ∧ (fed cfgD [0x55, 0, 5]).parser.pstate = .type ∧ cfgD.ckMode = .none) ∧
    (Reachable cfgA (fed cfgA [0x01, 0, 0, 2, 0x22]) ∧ (fed cfgA [0x01, 0, 0, 2, 0x22]).parser.pstate = .headCksum) ∧
    (Reachable cfgD (fed cfgD [0x55, 0, 4, 0x22, 1, 2, 3]) ∧ (fed cfgD [0x55, 0, 4, 0x22, 1, 2, 3]).parser.pstate = .data
      ∧ (fed cfgD [0x55, 0, 4, 0x22, 1, 2, 3]).parser.discard = false) ∧
    (Reachable cfgD (fed cfgD [0x55, 0, 5, 0x22, 1, 2, 3, 4]) ∧ (fed cfgD [0x55, 0, 5, 0x22, 1, 2, 3, 4]).parser.discard = true) ∧
    (Reachable cfgA (fed cfgA [0x01, 0, 0, 1, 0x22, 0xDD, 0x41])
      ∧ (fed cfgA [0x01, 0, 0, 1, 0x22, 0xDD, 0x41]).parser.pstate = .dataCksum) := by
  refine ⟨by decide, ⟨reachable_issueAll _ .reset, ?_⟩, ⟨reachable_issueAll _ .reset, ?_⟩, ⟨reachable_issueAll _ .reset, ?_⟩,
    ⟨reachable_issueAll _ .reset, ?_⟩, ⟨reachable_issueAll _ .reset, ?_⟩, ⟨reachable_issueAll _ .reset, ?_⟩,
    ⟨reachable_issueAll _ .reset, ?_⟩, ⟨reachable_issueAll _ .reset, ?_⟩⟩ <;> decide

/-- A command that ends with status `st`, and one that ends with OK. -/
theorem witness_EveryCommandAnswersAndErrorsArePrecise :
    (busyC.Inv ∧ busyC.port.pending = 0x0200000000000038 :: []) ∧
    (State.resetWith cfgA).Inv ∧ ∃ t, exec (.rdreg 4) (State.resetWith cfgA) = .next t ∧
      t.port.responses = (State.resetWith cfgA).port.responses ++ [{ status := .badReg, data := 0 }] :=
  ⟨⟨busyC_inv, by decide⟩, idle_inv_A, nextOr (exec (.rdreg 4) (State.resetWith cfgA)) State.reset, next_of (by decide), by decide⟩

theorem witness_StatusesBelongToTheirCommands :
    (∃ t, exec (.compose true) (withComposer cfgA (IdGen.reset false) (operandsOf 0 9 0 [])) = .next t ∧
      t.port.responses = [] ++ [{ status := .payloadTooLarge, data := 0 }]) ∧
    (∃ t, exec (.wrreg 0x23 1) (State.resetWith cfgA) = .next t ∧
      t.port.responses = [] ++ [{ status := .badReg, data := 0 }]) ∧
    (∃ t, exec (.txbRd 15) (State.resetWith cfgA) = .next t ∧
      t.port.responses = [] ++ [{ status := .badAddr, data := 0 }]) :=
  ⟨⟨nextOr (exec (.compose true) (withComposer cfgA (IdGen.reset false) (operandsOf 0 9 0 []))) State.reset,
      next_of (by decide), by decide⟩,
    ⟨nextOr (exec (.wrreg 0x23 1) (State.resetWith cfgA)) State.reset, next_of (by decide), by decide⟩,
    ⟨nextOr (exec (.txbRd 15) (State.resetWith cfgA)) State.reset, next_of (by decide), by decide⟩⟩

/-- The command that emits, and one that does not. -/
theorem witness_OnlyAcceptEmitsAndAtMostOneFrame :
    (∃ t, exec (.accept 0xB0) (withParser cfgB lastB) = .next t ∧ t.port.frames ≠ []) ∧
    ∃ t, exec .tick (withParser cfgB lastB) = .next t ∧ t.port.frames = [] :=
  ⟨⟨nextOr (exec (.accept 0xB0) (withParser cfgB lastB)) State.reset, next_of (by decide), by decide⟩,
    ⟨nextOr (exec .tick (withParser cfgB lastB)) State.reset, next_of (by decide), by decide⟩⟩

/-- One command for each register that changes. -/
theorem witness_EachRegisterHasItsWriters :
    (∃ t, exec .tick (withParser cfgB lastB) = .next t ∧ t.parser ≠ lastB) ∧
    (∃ t, exec (.accept 0) (withParser cfgB lastB) = .next t ∧ t.parser ≠ lastB) ∧
    (∃ t, exec (.compose false) readyA = .next t ∧ t.idgen.nextId ≠ readyA.idgen.nextId
      ∧ t.composer.txbuf ≠ readyA.composer.txbuf) ∧
    (∃ t, exec (.txpWr 3 1) readyA = .next t ∧ t.composer.txp ≠ readyA.composer.txp) ∧
    ∃ t, exec (.wrreg 0x22 1) readyA = .next t ∧ t.composer.txId ≠ readyA.composer.txId :=
  ⟨⟨nextOr (exec .tick (withParser cfgB lastB)) State.reset, next_of (by decide), by decide⟩,
    ⟨nextOr (exec (.accept 0) (withParser cfgB lastB)) State.reset, next_of (by decide), by decide⟩,
    ⟨nextOr (exec (.compose false) readyA) State.reset, next_of (by decide), by decide, by decide⟩,
    ⟨nextOr (exec (.txpWr 3 1) readyA) State.reset, next_of (by decide), by decide⟩,
    ⟨nextOr (exec (.wrreg 0x22 1) readyA) State.reset, next_of (by decide), by decide⟩⟩

/-! ## Witnesses: reset, the control commands and the buffer commands -/

theorem witness_InitInitialisesTheWholeBlock : busyC.cfg.wf = true := by decide

theorem witness_PowerOnResetAndInitDifferOnlyInPeer : ∃ t, exec (.init true) busyC = .next t :=
  exists_next (by decide)

theorem witness_WrregWritesOperandRegistersOnly :
    readyA.cfg.wf = true ∧ (0x00000F : Addr) ≠ 0x000020 ∧ (0x00000F : Addr) ≠ 0x000021 ∧ (0x00000F : Addr) ≠ 0x000022 := by
  decide

theorem witness_RdregReadsTheRegisterMap :
    busyC.Inv ∧ (0x000012 : Addr) ∉ ([0x000000, 0x000001, 0x000002, 0x000003, 0x000010, 0x000011, 0x000020, 0x000021,
      0x000022, 0x000023, 0x000024, 0x000030, 0x000031, 0x000032, 0x000033, 0x000034, 0x000035, 0x000036, 0x000037,
      0x000038] : List Addr) := ⟨busyC_inv, by decide⟩

theorem witness_ConfigurationReadbackLayout : cfgC.wf = true ∧ cfgB.wf = true := by decide

theorem witness_TxpWrWritesOneByte :
    readyA.Inv ∧ readyA.cfg.maxPayload ≤ (8 : Addr).toNat ∧ (7 : Addr).toNat < readyA.cfg.maxPayload :=
  ⟨readyA_inv, by decide, by decide⟩

theorem witness_TxbRdReadsTheStagingBuffer :
    readyA.cfg.wf = true ∧ readyA.cfg.maxPayload + readyA.cfg.overheadBytes ≤ (15 : Addr).toNat ∧
      (14 : Addr).toNat < readyA.cfg.maxPayload + readyA.cfg.overheadBytes := by decide

theorem witness_RxbRdReadsThePayloadBuffer :
    readyA.cfg.wf = true ∧ readyA.cfg.maxPayload ≤ (8 : Addr).toNat ∧ (7 : Addr).toNat < readyA.cfg.maxPayload := by decide

theorem witness_ReadsHaveNoSideEffect :
    (∃ t, exec (.rdreg 0x30) busyC = .next t) ∧ (∃ t, exec (.txbRd 3) busyC = .next t) ∧
      ∃ t, exec (.rxbRd 3) busyC = .next t :=
  ⟨exists_next (by decide), exists_next (by decide), exists_next (by decide)⟩

theorem witness_CanonicalMemoriesAreExtensional :
    Memory.wf [(1, 0x41), (7, 0x42)] = true ∧ Memory.wf (Memory.write [(7, 0x42)] 1 0x41) = true ∧
      ∀ a, Memory.read [(1, 0x41), (7, 0x42)] a = Memory.read (Memory.write [(7, 0x42)] 1 0x41) a :=
  ⟨by decide, by decide, fun _ => rfl⟩

/-! ## Witnesses: checksums and the composer -/

theorem witness_SingleByteChangeIsDetected : CkMode.crc16 ≠ .none ∧ (0x42 : Byte) ≠ 0x43 := by decide

theorem witness_FieldsAreBigEndian :
    (1 ≤ 1 ∧ 1 ≤ 4 ∧ ([0x01] : List Byte).length = 1) ∧ (1 ≤ 4 ∧ 4 ≤ 4 ∧ ([0xDE, 0xAD, 0xBE, 0xEF] : List Byte).length = 4) := by
  decide

/-- TX_LEN 9 and 0xFFFFFFFF at MAX_PAYLOAD 8 (95_test_vectors.md section 5.2). -/
theorem witness_ComposeTooLargeChangesNothing :
    (withComposer cfgA (IdGen.reset false) (operandsOf 0 9 0 [])).cfg.wf = true ∧
    cfgA.maxPayload < (withComposer cfgA (IdGen.reset false) (operandsOf 0 9 0 [])).composer.txLen.toNat ∧
    cfgA.maxPayload < (withComposer cfgA (IdGen.reset false) (operandsOf 0 0xFFFFFFFF 0 [])).composer.txLen.toNat := by decide

/-- TX_LEN 0 and MAX_PAYLOAD. -/
theorem witness_ComposeWritesTheFrame :
    ((withComposer cfgA (IdGen.reset false) (operandsOf 0x22 8 0 [])).Inv ∧
      (withComposer cfgA (IdGen.reset false) (operandsOf 0x22 8 0 [])).composer.txLen.toNat ≤ cfgA.maxPayload) ∧
    (withComposer cfgA (IdGen.reset false) (operandsOf 0x22 0 0 [])).Inv ∧
    (withComposer cfgA (IdGen.reset false) (operandsOf 0x22 0 0 [])).composer.txLen.toNat ≤ cfgA.maxPayload :=
  ⟨⟨inv_of_quiet (by decide), by decide⟩, inv_of_quiet (by decide), by decide⟩

theorem witness_ComposeResolvesTheId : readyA.Inv ∧ readyA.composer.txLen.toNat ≤ readyA.cfg.maxPayload :=
  ⟨readyA_inv, by decide⟩

/-- The two peers of CFG-A. -/
theorem witness_GeneratedIdsArePartitionedByPeer :
    readyA.cfg.wf = true ∧ readyA.composer.txLen.toNat ≤ readyA.cfg.maxPayload ∧
    (∃ t, exec (.compose false) readyA = .next t) ∧
    (∃ t, exec (.compose false) { readyA with idgen := { peer := true, nextId := 0xFF } } = .next t) ∧
    readyA.idgen.peer ≠ true :=
  ⟨by decide, by decide, exists_next (by decide), exists_next (by decide), by decide⟩

theorem witness_GeneratedIdsRepeatWithTheirPeriod : cfgA.wf = true ∧ Fits cfgA.idBits 0xFF := by decide

/-- The empty payload and the longest one. -/
theorem witness_SendComposesItsPayload :
    (State.resetWith cfgA).Inv ∧ ([] : List Byte).length ≤ cfgA.maxPayload ∧
      ([1, 2, 3, 4, 5, 6, 7, 8] : List Byte).length ≤ cfgA.maxPayload := ⟨idle_inv_A, by decide, by decide⟩

/-! ## Witnesses: the parser, state by state -/

/-- A CFG-D session in DATA or TYPE. -/
def sessD (ps : PState) (rxi len : Word) (d : Bool) : State :=
  withParser cfgD { Parser.reset cfgD with pstate := ps, rxi := rxi, rxLen := len, discard := d }

/-- A CFG-A session. -/
def sessA (ps : PState) (rxi len ck ref : Word) (d : Bool) : State :=
  withParser cfgA { Parser.reset cfgA with pstate := ps, rxi := rxi, rxLen := len, rxType := 0x22, rxCk := ck, rxRef := ref, discard := d }

/-- A CFG-B session. -/
def sessB (ps : PState) (rxi len ck ref : Word) : State :=
  withParser cfgB { Parser.reset cfgB with pstate := ps, rxi := rxi, rxLen := len, rxCk := ck, rxRef := ref }

theorem witness_AcceptAlwaysAnswersOk : busyC.Inv := busyC_inv

theorem witness_TimeoutResetsBeforeTheByte :
    cfgC.timeoutTicks ≤ (withParser cfgC { headC with ticks := 2 }).parser.ticks.toNat ∧
      (withParser cfgC { headC with ticks := 1 }).parser.ticks.toNat < cfgC.timeoutTicks := by decide

/-- A marker and another byte at CFG-A; the first ID byte at CFG-B. -/
theorem witness_ByteInSof :
    ((State.resetWith cfgA).Inv ∧ (State.resetWith cfgA).parser.pstate = .sof ∧ cfgA.sofEn = true
      ∧ (0x55 : Byte) ≠ cfgA.sofVal ∧ (0x01 : Byte) = cfgA.sofVal) ∧
    ((State.resetWith cfgB).Inv ∧ (State.resetWith cfgB).parser.pstate = .sof ∧ cfgB.sofEn = false) :=
  ⟨⟨idle_inv_A, by decide, by decide, by decide, by decide⟩, idle_inv_B, by decide, by decide⟩

/-- The first and the last byte of LEN at CFG-A, the last byte of ID at CFG-A. -/
theorem witness_ByteInIdOrLen :
    (sessA .id 0 0 0x01 0 false).Inv ∧ (sessA .len 0 0 0x01 0 false).Inv ∧ (sessA .len 1 0 0x01 0 false).Inv ∧
    (sessA .id 0 0 0x01 0 false).parser.ticks.toNat < cfgA.timeoutTicks ∧
    (sessA .len 1 0 0x01 0 false).parser.ticks.toNat < cfgA.timeoutTicks ∧
    (sessA .id 0 0 0x01 0 false).parser.pstate = .id ∧ (sessA .len 1 0 0x01 0 false).parser.pstate = .len :=
  ⟨inv_of_quiet (by decide), inv_of_quiet (by decide), inv_of_quiet (by decide), by decide, by decide, by decide, by decide⟩

/-- One state for each of the four clauses, the last also with an oversized length before it. -/
theorem witness_ByteInType :
    ((sessB .type 0 2 0xC181 0).Inv ∧ (sessB .type 0 2 0xC181 0).parser.rxi.toNat + 1 ≠ cfgB.typew) ∧
    ((sessB .type 1 2 0x6001 0).Inv ∧ (sessB .type 1 2 0x6001 0).parser.rxi.toNat + 1 = cfgB.typew ∧ cfgB.ckMode ≠ .none) ∧
    ((sessD .type 0 5 false).Inv ∧ (sessD .type 0 5 false).parser.rxi.toNat + 1 = cfgD.typew ∧ cfgD.ckMode = .none
      ∧ (sessD .type 0 5 false).parser.rxLen ≠ 0) ∧
    ((sessD .type 0 0 false).Inv ∧ (sessD .type 0 0 false).parser.rxLen = 0) ∧
    (sessB .type 0 2 0xC181 0).parser.ticks.toNat < cfgB.timeoutTicks ∧ (sessD .type 0 0 false).parser.ticks.toNat < cfgD.timeoutTicks :=
  ⟨⟨inv_of_quiet (by decide), by decide⟩, ⟨inv_of_quiet (by decide), by decide, by decide⟩,
    ⟨inv_of_quiet (by decide), by decide, by decide, by decide⟩, ⟨inv_of_quiet (by decide), by decide⟩, by decide, by decide⟩

/-- One state for each of the four clauses, with the header checksums of traces T2, T5 and T6. -/
theorem witness_ByteInHeadCksum :
    ((sessB .headCksum 0 2 0xD921 0).Inv ∧ (sessB .headCksum 0 2 0xD921 0).parser.rxi.toNat + 1 ≠ cfgB.ckw) ∧
    ((sessA .headCksum 0 2 0x21 0 false).Inv ∧ (sessA .headCksum 0 2 0x21 0 false).parser.rxi.toNat + 1 = cfgA.ckw ∧
      ckFinal .xor8 0x21 ≠ shiftIn 1 0 0xDF ∧ ckFinal .xor8 0x21 = shiftIn 1 0 0xDE) ∧
    ((sessA .headCksum 0 0 0x23 0 false).Inv ∧ (sessA .headCksum 0 0 0x23 0 false).parser.rxi.toNat + 1 = cfgA.ckw ∧
      ckFinal .xor8 0x23 = shiftIn 1 0 0xDC ∧ (sessA .headCksum 0 0 0x23 0 false).parser.rxLen = 0) ∧
    (sessB .headCksum 0 2 0xD921 0).parser.ticks.toNat < cfgB.timeoutTicks ∧
    (sessA .headCksum 0 2 0x21 0 false).parser.ticks.toNat < cfgA.timeoutTicks :=
  ⟨⟨inv_of_quiet (by decide), by decide⟩, ⟨inv_of_quiet (by decide), by decide, by decide, by decide⟩,
    ⟨inv_of_quiet (by decide), by decide, by decide, by decide⟩, by decide, by decide⟩

/-- Storing at the last index of RXBUF, and counting while discarding, both at the last payload byte. -/
theorem witness_ByteInData :
    ((sessA .data 7 8 0 0 false).Inv ∧ (sessA .data 7 8 0 0 false).parser.ticks.toNat < cfgA.timeoutTicks ∧
      (sessA .data 7 8 0 0 false).parser.pstate = .data ∧ cfgA.ckMode ≠ .none) ∧
    ((sessA .data 8 9 0 0 true).Inv ∧ (sessA .data 8 9 0 0 true).parser.pstate = .data) ∧
    ((sessD .data 0 2 false).Inv ∧ (sessD .data 0 2 false).parser.rxi.toNat + 1 ≠ (sessD .data 0 2 false).parser.rxLen.toNat) :=
  ⟨⟨inv_of_quiet (by decide), by decide, by decide, by decide⟩, ⟨inv_of_quiet (by decide), by decide⟩, inv_of_quiet (by decide), by decide⟩

/-- The last payload byte at CFG-D, stored (length 4) and discarded (length 5). -/
theorem witness_LastByteInDataWithoutChecksum :
    ((sessD .data 3 4 false).Inv ∧ (sessD .data 3 4 false).parser.ticks.toNat < cfgD.timeoutTicks ∧
      (sessD .data 3 4 false).parser.rxi.toNat + 1 = (sessD .data 3 4 false).parser.rxLen.toNat ∧ cfgD.ckMode = .none) ∧
    ((sessD .data 4 5 true).Inv ∧ (sessD .data 4 5 true).parser.rxi.toNat + 1 = (sessD .data 4 5 true).parser.rxLen.toNat) :=
  ⟨⟨inv_of_quiet (by decide), by decide, by decide, by decide⟩, inv_of_quiet (by decide), by decide⟩

/-- The first and the last byte of the payload checksum at CFG-B, with a matching and another byte; and while
discarding at CFG-A. -/
theorem witness_ByteInDataCksum :
    ((sessB .dataCksum 0 2 0x61B0 0).Inv ∧ (sessB .dataCksum 0 2 0x61B0 0).parser.rxi.toNat + 1 ≠ cfgB.ckw) ∧
    ((withParser cfgB lastB).Inv ∧ lastB.ticks.toNat < cfgB.timeoutTicks ∧ lastB.rxi.toNat + 1 = cfgB.ckw ∧
      ckFinal .crc16 lastB.rxCk = shiftIn 2 lastB.rxRef 0xB0 ∧ ckFinal .crc16 lastB.rxCk ≠ shiftIn 2 lastB.rxRef 0xB1) ∧
    ((sessA .dataCksum 0 9 0 0 true).Inv ∧ (sessA .dataCksum 0 9 0 0 true).parser.rxi.toNat + 1 = cfgA.ckw) :=
  ⟨⟨inv_of_quiet (by decide), by decide⟩, ⟨inv_of_quiet (by decide), by decide, by decide, by decide, by decide⟩,
    inv_of_quiet (by decide), by decide⟩

theorem witness_RxbufWritesStayInside :
    (sessA .data 7 8 0 0 false).Inv ∧ ∃ t, exec (.accept 0x42) (sessA .data 7 8 0 0 false) = .next t ∧
      t.parser.rxbuf.read 7 ≠ (sessA .data 7 8 0 0 false).parser.rxbuf.read 7 :=
  ⟨inv_of_quiet (by decide), nextOr (exec (.accept 0x42) (sessA .data 7 8 0 0 false)) State.reset, next_of (by decide), by decide⟩

theorem witness_NoOversizedFrameIsDispatched :
    ∃ t e, exec (.accept 0xB0) (withParser cfgB lastB) = .next t ∧ e ∈ t.port.frames ∧ e ∉ (withParser cfgB lastB).port.frames :=
  ⟨nextOr (exec (.accept 0xB0) (withParser cfgB lastB)) State.reset,
    { index := 0, frame := { id := 0, typ := 0x22, len := 2, payload := [0x41, 0x42] } }, next_of (by decide), by decide, by decide⟩

/-! ## Witnesses: ticks and independence -/

/-- One TICK below the threshold and at it (CFG-C, TIMEOUT_TICKS 2). -/
theorem witness_TickIncrementsAndSaturates :
    busyC.cfg.wf = true ∧ (withParser cfgC { headC with ticks := 1 }).parser.ticks.toNat < cfgC.timeoutTicks ∧
      cfgC.timeoutTicks ≤ (withParser cfgC { headC with ticks := 2 }).parser.ticks.toNat := by decide

theorem witness_TicksSinceTheLastByteDecideTheTimeout : busyC.Inv ∧ busyC.parser.ticks = 0 := ⟨busyC_inv, by decide⟩

/-- The same session beside two different composers, and the same composer beside two different sessions. -/
theorem witness_ParserAndComposerDoNotInterfere :
    ((∃ t, exec (.accept 0x38) busyC = .next t) ∧
      (∃ t, exec (.accept 0x38) { readyC with parser := busyC.parser } = .next t) ∧
      busyC.cfg = { readyC with parser := busyC.parser }.cfg) ∧
    ((∃ t, exec (.compose false) readyC = .next t) ∧
      (∃ t, exec (.compose false) { readyC with parser := busyC.parser } = .next t)) :=
  ⟨⟨exists_next (by decide), exists_next (by decide), by decide⟩, exists_next (by decide), exists_next (by decide)⟩

theorem witness_ParserAndComposerCommandsCommute : readyC.Inv ∧ (∃ b, Instr.accept 0xAA = .accept b) ∧
    (∃ e, Instr.compose false = .compose e) := ⟨readyC_inv, ⟨_, rfl⟩, ⟨_, rfl⟩⟩

/-! ## Witnesses: streams of bytes -/

/-- The session that six bytes leave in another block of the same configuration, beside another composer. -/
theorem witness_ChunkingDoesNotMatter :
    (State.resetWith cfgC).Inv ∧
    ∃ t, execAll (acceptBuf [0xAA, 0, 0, 0, 0, 2]) (State.resetWith cfgC) = .next t ∧
      { readyC with parser := t.parser }.cfg = (State.resetWith cfgC).cfg ∧
      readyC.composer ≠ (State.resetWith cfgC).composer :=
  ⟨idle_inv_C, nextOr (execAll (acceptBuf [0xAA, 0, 0, 0, 0, 2]) (State.resetWith cfgC)) State.reset,
    next_of (by decide), by decide, by decide⟩

/-- The block after COMPOSE 0. -/
abbrev composed0 (s : State) : State := nextOr (exec (.compose false) s) s

/-- The bytes COMPOSE 0 wrote. -/
abbrev wire0 (s : State) : List Byte := (composed0 s).composer.txbuf.readRun 0 (composed0 s).composer.txCount.toNat

/-- The CFG-C frame of 95_test_vectors.md section 5, one TICK before each byte (TIMEOUT_TICKS 2). -/
theorem witness_ComposedFrameIsReceived :
    readyC.Inv ∧ (State.resetWith cfgC).Inv ∧ (State.resetWith cfgC).cfg = readyC.cfg ∧
    readyC.composer.txLen.toNat ≤ readyC.cfg.maxPayload ∧ exec (.compose false) readyC = .next (composed0 readyC) ∧
    (State.resetWith cfgC).parser.pstate = .sof ∧
    ((wire0 readyC).map fun b => (1, b)).map Prod.snd = wire0 readyC ∧
    ∀ kb ∈ (wire0 readyC).map fun b => ((1 : Nat), b), kb.1 < readyC.cfg.timeoutTicks :=
  ⟨readyC_inv, idle_inv_C, by decide, by decide, next_of (by decide), by decide, by decide, by decide⟩

/-- All but the last byte of the frame, then 2 TICKs. -/
theorem witness_TruncationThenTimeoutRecovers :
    readyC.Inv ∧ (State.resetWith cfgC).Inv ∧ readyC.composer.txLen.toNat ≤ readyC.cfg.maxPayload ∧
    exec (.compose false) readyC = .next (composed0 readyC) ∧ (State.resetWith cfgC).parser.pstate = .sof ∧
    16 < (composed0 readyC).composer.txCount.toNat ∧ readyC.cfg.timeoutTicks ≤ 2 :=
  ⟨readyC_inv, idle_inv_C, by decide, next_of (by decide), by decide, by decide, by decide⟩

/-- Trace T8's oversized frame (95_test_vectors.md section 6): declared length 9 at MAX_PAYLOAD 8. -/
theorem witness_OversizedFrameIsContained :
    (State.resetWith cfgA).Inv ∧ (State.resetWith cfgA).parser.pstate = .sof ∧ Fits cfgA.lenBits 9 ∧
    cfgA.maxPayload < (9 : Word).toNat ∧ headerBytes cfgA 0 9 0x22 = [0x01, 0, 0, 9, 0x22] ∧
    ckField cfgA [0x01, 0, 0, 9, 0x22] = [0xD5] ∧
    ([1, 2, 3, 4, 5, 6, 7, 8, 9] : List Byte).length = (9 : Word).toNat ∧ ([0] : List Byte).length = cfgA.ckw ∧
    (∃ u, execAll (acceptBuf (([0x01, 0, 0, 9, 0x22, 0xD5, 1] : List Byte).take 6)) (State.resetWith cfgA) = .next u) :=
  ⟨idle_inv_A, by decide, by decide, by decide, by decide, by decide, by decide, by decide, exists_next (by decide)⟩

theorem witness_ParserReturnsToSof :
    (sessD .data 0 255 true).Inv ∧ (sessD .data 0 255 true).parser.pstate ≠ .sof ∧
      (List.replicate (cfgD.frameLen 255) (0 : Byte)).length = cfgD.frameLen (2 ^ (8 * cfgD.lenw) - 1) :=
  ⟨inv_of_quiet (by decide), by decide, by simp [cfgD]⟩

/-- The last payload byte 0x42 becomes 0x43 (trace T7). -/
theorem witness_PayloadCorruptionIsDropped :
    readyA.Inv ∧ (State.resetWith cfgA).Inv ∧ readyA.cfg.ckMode ≠ .none ∧
    readyA.composer.txLen.toNat ≤ readyA.cfg.maxPayload ∧ exec (.compose false) readyA = .next (composed0 readyA) ∧
    (State.resetWith cfgA).parser.pstate = .sof ∧ 1 < readyA.composer.txLen.toNat ∧
    (0x43 : Byte) ≠ readyA.composer.txp.read 1 :=
  ⟨readyA_inv, idle_inv_A, by decide, by decide, next_of (by decide), by decide, by decide, by decide⟩

/-- The SOF byte (index 0) and the header checksum byte (index 5, trace T6) changed. -/
theorem witness_HeaderCorruptionIsDropped :
    readyA.Inv ∧ (State.resetWith cfgA).Inv ∧ readyA.cfg.ckMode ≠ .none ∧ readyA.cfg.sofEn = true ∧
    readyA.composer.txLen.toNat ≤ readyA.cfg.maxPayload ∧ exec (.compose false) readyA = .next (composed0 readyA) ∧
    (State.resetWith cfgA).parser.pstate = .sof ∧
    (0 < readyA.cfg.hdrBytes ∧ (0x03 : Byte) ≠ (composed0 readyA).composer.txbuf.read 0 ∧
      readyA.cfg.sofVal ∉ ((wire0 readyA).set 0 0x03).drop 1) ∧
    (5 < readyA.cfg.hdrBytes ∧ (0xDF : Byte) ≠ (composed0 readyA).composer.txbuf.read 5 ∧
      readyA.cfg.sofVal ∉ ((wire0 readyA).set 5 0xDF).drop readyA.cfg.hdrBytes) :=
  ⟨readyA_inv, idle_inv_A, by decide, by decide, by decide, next_of (by decide), by decide, by decide, by decide⟩

/-! ## Witnesses: the response word -/

/-- An illegal word pending, an error, and each command with OK data of its own. -/
theorem witness_ResponseWordLayout :
    ((withWord cfgA 0x0A00000000000000).Inv ∧ (withWord cfgA 0x0A00000000000000).port.pending = 0x0A00000000000000 :: [] ∧
      decode 0x0A00000000000000 = .error .reservedOpcode) ∧
    readyA.Inv ∧ after (exec (.txpWr 8 1) readyA) (raised .badAddr) = true ∧
    after (exec (.compose false) readyA) (answered 9) = true ∧ after (exec (.rdreg 0x21) readyA) (answered 2) = true ∧
    after (exec (.txbRd 14) readyA) (answered 0) = true :=
  ⟨⟨inv_of_quiet (by decide), by decide, by decide⟩, readyA_inv, by decide, by decide, by decide, by decide⟩

/-- (BAD_REG, 0) and (OK, 0xAA013114) as the 40 bits of R84. -/
theorem test_response_bits :
    ({ status := .badReg, data := 0 } : Response).bits = 0x0300000000 ∧
      ({ status := .ok, data := 0xAA013114 } : Response).bits = 0x00AA013114 := by decide

end Sys2Proof.Tests
end

section
/-! PROOFS. The scope (00_scope.md): which configurations have a meaning (R6, R8-R11), and the refusal of
every other one (R11, log 3). -/

namespace Sys2Proof

/-- OVERHEAD_BYTES as R10 adds it up: the marker, the three fields, and the two checksums. -/
theorem Config.overheadBytes_eq (c : Config) :
    c.overheadBytes = (if c.sofEn then 1 else 0) + c.idw + c.lenw + c.typew + 2 * c.ckw := by
  simp only [Config.overheadBytes, Config.hdrBytes, Config.sofb]
  omega

/-- The ranges of R6, R8 and R9 with the derived quantities of R10 written out. -/
theorem Config.ranges_iff (c : Config) :
    c.Ranges ↔
      (c.idw = 1 ∨ c.idw = 2 ∨ c.idw = 4) ∧ (c.lenw = 1 ∨ c.lenw = 2 ∨ c.lenw = 4) ∧
      (c.typew = 1 ∨ c.typew = 2 ∨ c.typew = 4) ∧
      1 ≤ c.maxPayload ∧ c.maxPayload ≤ 2 ^ (8 * c.lenw) - 1 ∧
      c.maxPayload + ((if c.sofEn then 1 else 0) + c.idw + c.lenw + c.typew + 2 * c.ckw) ≤ 2 ^ 24 ∧
      1 ≤ c.timeoutTicks ∧ c.timeoutTicks ≤ 2 ^ 32 - 1 := by
  rw [← c.overheadBytes_eq]
  constructor
  · rintro ⟨hid, hlen, htype, hpos, hmax, htxbuf, htimeout, hbound⟩
    exact ⟨hid, hlen, htype, hpos, hmax, htxbuf, htimeout, hbound⟩
  · rintro ⟨hid, hlen, htype, hpos, hmax, htxbuf, htimeout, hbound⟩
    exact ⟨hid, hlen, htype, hpos, hmax, htxbuf, htimeout, hbound⟩

end Sys2Proof

namespace Sys2Proof.Machine

/-- Every command checks the configuration before anything else (R11, log 3). -/
theorem exec_of_not_wf {s : State} (h : s.cfg.wf = false) (i : Instr) :
    exec i s = .refused .configIllFormed := by
  cases i <;> exact whenConfigured_of_not_wf h _

/-- Whether a step holds, runs a command or answers ILLEGAL, it checks the configuration first, which
taking a word from the port leaves as it is (R11, log 3). -/
theorem step_of_not_wf {s : State} (h : s.cfg.wf = false) : step s = .refused .configIllFormed := by
  obtain ⟨-, hstep⟩ | ⟨w, rest, -, ⟨i, -, hstep⟩ | ⟨r, -, hstep⟩⟩ := step_cases s
  · rw [hstep]
    exact whenConfigured_of_not_wf h _
  · rw [hstep]
    refine exec_of_not_wf ?_ i
    exact h
  · rw [hstep]
    exact whenConfigured_of_not_wf h _

/-- Settles O8: the checks of `Config.wf` are the ranges, and every way a step can go meets the check. -/
theorem illFormedConfigurationIsRefused : Obligations.IllFormedConfigurationIsRefused := by
  intro s
  exact ⟨s.cfg.wf_iff_ranges.trans s.cfg.ranges_iff, fun h => ⟨exec_of_not_wf h, step_of_not_wf h⟩⟩

end Sys2Proof.Machine
end

section
/-! PROOFS. The configuration as RDREG shows it (10_state.md R41): CFG0 and CFG3, field by field. -/

namespace Sys2Proof

/-- The number in a field of a word: shift the field down to bit 0 and drop what stands above it. -/
theorem extractLsb'_toNat_eq_div_mod {w : Nat} (x : BitVec w) (start len : Nat) :
    (x.extractLsb' start len).toNat = x.toNat / 2 ^ start % 2 ^ len := by
  rw [BitVec.extractLsb'_toNat, Nat.shiftRight_eq_div_pow]

/-- The bits of the field of `len` bits from bit `start` on. -/
def fieldMask (start len : Nat) : Word := (BitVec.allOnes len).setWidth 32 <<< start

/-- A field that holds 0 meets the mask of its bits in 0. -/
theorem and_fieldMask_eq_zero {x : Word} {start len : Nat} (h : x.toNat / 2 ^ start % 2 ^ len = 0) :
    x &&& fieldMask start len = 0 := by
  have hx : x.extractLsb' start len = 0 := by
    apply BitVec.eq_of_toNat_eq
    rw [extractLsb'_toNat_eq_div_mod, h]
    rfl
  apply BitVec.eq_of_getLsbD_eq
  intro i hi
  by_cases hin : start ≤ i ∧ i - start < len
  · have hbit := congrArg (BitVec.getLsbD · (i - start)) hx
    have hbit : x.getLsbD i = false := by simpa [hin] using hbit
    simp [hbit]
  · have hbit : (fieldMask start len).getLsbD i = false := by
      simp [fieldMask]
      omega
    simp [hbit]

theorem CkMode.code_le (m : CkMode) : m.code ≤ 3 := by cases m <;> decide

/-- OVERHEAD_BYTES is at most 1 + 4 + 4 + 4 + 2 * 4 = 21, so it fits the eight bits CFG3 has for it (R10, R41). -/
theorem Config.overheadBytes_le {c : Config} (hc : c.wf = true) : c.overheadBytes ≤ 21 := by
  obtain ⟨hid, hlen, htype, -⟩ := Config.ranges hc
  have hck := c.ckw_le
  rw [c.overheadBytes_eq]
  split <;> omega

end Sys2Proof

namespace Sys2Proof.Machine

/-- The fields of CFG0 do not carry into each other: the word is their sum (R41). -/
theorem cfg0Value_toNat {c : Config} (hc : c.wf = true) :
    (cfg0Value c).toNat = c.idw + 2 ^ 4 * c.lenw + 2 ^ 8 * c.typew + 2 ^ 12 * c.ckMode.code
      + 2 ^ 16 * c.sofEn.toNat + 2 ^ 24 * c.sofVal.toNat := by
  obtain ⟨hid, hlen, htype, -⟩ := Config.ranges hc
  have hck := c.ckMode.code_le
  have hen := c.sofEn.toNat_le
  have hval := c.sofVal.isLt
  have hbool : (if c.sofEn then 1 else 0) = c.sofEn.toNat := by cases c.sofEn <;> rfl
  rw [cfg0Value, BitVec.toNat_ofNat, hbool, Nat.mod_eq_of_lt (by omega)]

/-- The fields of CFG3 do not carry into each other (R41). -/
theorem cfg3Value_toNat {c : Config} (hc : c.wf = true) :
    (cfg3Value c).toNat = c.ckw + 2 ^ 8 * c.overheadBytes := by
  have hck := c.ckw_le
  have hover := Config.overheadBytes_le hc
  rw [cfg3Value, BitVec.toNat_ofNat, Nat.mod_eq_of_lt (by omega)]

/-- The bits of CFG0 that R41 gives to no field read as 0. -/
theorem cfg0Value_reserved {c : Config} (hc : c.wf = true) : cfg0Value c &&& 0x00FEC888 = 0 := by
  obtain ⟨hid, hlen, htype, -⟩ := Config.ranges hc
  have hck := c.ckMode.code_le
  have hen := c.sofEn.toNat_le
  have hn := cfg0Value_toNat hc
  have hmask : (0x00FEC888 : Word) =
      fieldMask 3 1 ||| fieldMask 7 1 ||| fieldMask 11 1 ||| fieldMask 14 2 ||| fieldMask 17 7 := by decide
  rw [hmask]
  simp only [BitVec.and_or_distrib_left, BitVec.ofNat_eq_ofNat, BitVec.or_eq_zero_iff]
  and_intros <;> exact and_fieldMask_eq_zero (by omega)

/-- The bits of CFG3 that R41 gives to no field read as 0. -/
theorem cfg3Value_reserved {c : Config} (hc : c.wf = true) : cfg3Value c &&& 0xFFFF00F8 = 0 := by
  have hck := c.ckw_le
  have hover := Config.overheadBytes_le hc
  have hn := cfg3Value_toNat hc
  have hmask : (0xFFFF00F8 : Word) = fieldMask 3 5 ||| fieldMask 16 16 := by decide
  rw [hmask]
  simp only [BitVec.and_or_distrib_left, BitVec.ofNat_eq_ofNat, BitVec.or_eq_zero_iff]
  and_intros <;> exact and_fieldMask_eq_zero (by omega)

/-- SOF_EN stands alone at bit 16 of CFG0 (R41). -/
theorem cfg0Value_sofEn {c : Config} (hc : c.wf = true) : (cfg0Value c).getLsbD 16 = c.sofEn := by
  obtain ⟨hid, hlen, htype, -⟩ := Config.ranges hc
  have hck := c.ckMode.code_le
  have hen := c.sofEn.toNat_le
  have hbit : (cfg0Value c).toNat / 2 ^ 16 % 2 = c.sofEn.toNat := by
    have := cfg0Value_toNat hc
    omega
  rw [BitVec.getLsbD, Nat.testBit_eq_decide_div_mod_eq, hbit]
  cases c.sofEn <;> rfl

/-- Settles O21: the words are sums of fields that do not overlap, so each field is read back by its own
division and remainder. -/
theorem configurationReadbackLayout : Obligations.ConfigurationReadbackLayout := by
  intro c hc
  obtain ⟨hid, hlen, htype, -⟩ := Config.ranges hc
  have hck := c.ckMode.code_le
  have hen := c.sofEn.toNat_le
  have hckw := c.ckw_le
  have hover := Config.overheadBytes_le hc
  have h0 := cfg0Value_toNat hc
  have h3 := cfg3Value_toNat hc
  refine ⟨?idw, ?lenw, ?typew, ?ckMode, cfg0Value_sofEn hc, ?sofVal, cfg0Value_reserved hc, ?ckw, ?overhead,
    cfg3Value_reserved hc⟩
  case ckMode =>
    have hcode : (cfg0Value c).toNat / 2 ^ 12 % 2 ^ 2 = c.ckMode.code := by omega
    rw [extractLsb'_toNat_eq_div_mod, hcode]
    cases c.ckMode <;> rfl
  case sofVal =>
    apply BitVec.eq_of_toNat_eq
    rw [extractLsb'_toNat_eq_div_mod]
    have := c.sofVal.isLt
    omega
  case overhead =>
    rw [extractLsb'_toNat_eq_div_mod, ← c.overheadBytes_eq]
    omega
  all_goals
    rw [extractLsb'_toNat_eq_div_mod]
    omega

end Sys2Proof.Machine
end

section
/-! PROOFS. What one command can do to the block, said once (10_state.md R31-R40, 30_encoding.md R84): an
error response alone, or its effect and an OK response. The writers of each register and buffer follow. -/

namespace Sys2Proof.Machine

/-- A write to an operand register sets that register, at its width, and no other (R36-R38, R241). -/
theorem writeReg_some {c : Config} {k k' : Composer} {r : Reg} {v : Word} (h : writeReg c k r v = some k') :
    k' = { k with txType := trunc c.typeBits v } ∨ k' = { k with txLen := v } ∨
      k' = { k with txId := trunc c.idBits v } := by
  cases r with
  | txType => exact .inl (Option.some.inj h).symm
  | txLen => exact .inr (.inl (Option.some.inj h).symm)
  | txId => exact .inr (.inr (Option.some.inj h).symm)
  | _ => cases h

/-- TICK touches the idle counter alone (R201). -/
theorem tick_eq (c : Config) (p : Parser) : p.tick c = { p with ticks := (p.tick c).ticks } := by
  unfold Parser.tick
  split <;> rfl

@[simp] theorem composed_parser (e : Bool) (s : State) : (composed e s).parser = s.parser := rfl

@[simp] theorem composed_idgen (e : Bool) (s : State) : (composed e s).idgen = (resolveId e s).2 := rfl

@[simp] theorem composed_txType (e : Bool) (s : State) : (composed e s).composer.txType = s.composer.txType := rfl

@[simp] theorem composed_txLen (e : Bool) (s : State) : (composed e s).composer.txLen = s.composer.txLen := rfl

@[simp] theorem composed_txId (e : Bool) (s : State) : (composed e s).composer.txId = s.composer.txId := rfl

@[simp] theorem composed_txp (e : Bool) (s : State) : (composed e s).composer.txp = s.composer.txp := rfl

/-- An explicit ID leaves the ID generator alone (R146). -/
@[simp] theorem resolveId_explicit (s : State) : resolveId true s = (s.composer.txId, s.idgen) := rfl

/-- Without an explicit ID the generator answers and advances (R141, R146). -/
@[simp] theorem resolveId_generated (s : State) :
    resolveId false s = (generatedId s.cfg s.idgen, s.idgen.advance s.cfg) := rfl

/-- What a command that completes leaves in the block before its OK response, one rule for each command. -/
inductive Effect (s : State) : Instr → State → Prop where
  | init (p : Bool) : Effect s (.init p)
      { s with parser := Parser.reset s.cfg, idgen := IdGen.reset p, composer := Composer.reset }
  | accept {b : Byte} {p : Parser} {ev : Option Frame} (h : acceptByte s.cfg b s.parser = .ok (p, ev)) :
      Effect s (.accept b) (({ s with parser := p } : State).emit ev)
  | tick : Effect s .tick { s with parser := s.parser.tick s.cfg }
  | compose {e : Bool} (h : s.composer.txLen.toNat ≤ s.cfg.maxPayload) : Effect s (.compose e) (composed e s)
  | wrreg {n : Addr} {v : Word} {r : Reg} {k : Composer} (h : writeReg s.cfg s.composer r v = some k) :
      Effect s (.wrreg n v) { s with composer := k }
  | rdreg (n : Addr) : Effect s (.rdreg n) s
  | txpWr {i : Addr} {b : Byte} (h : i.toNat < s.cfg.maxPayload) : Effect s (.txpWr i b)
      { s with composer := { s.composer with txp := s.composer.txp.write i.toNat b } }
  | txbRd (i : Addr) : Effect s (.txbRd i) s
  | rxbRd (i : Addr) : Effect s (.rxbRd i) s

/-- The two ways a command ends: with an error status and DATA 0, and nothing else changed (R260); or with its
effect and status OK. -/
inductive Answers (s : State) (i : Instr) : State → Prop where
  | error {st : Status} (h : st ≠ .ok) : Answers s i (s.respond st 0)
  | ok {u : State} (h : Effect s i u) (d : Word) : Answers s i (u.respond .ok d)

theorem Answers.of_raise {s t : State} {i : Instr} {st : Status} (h : raise s st = .next t) (hst : st ≠ .ok) :
    Answers s i t := by
  cases h
  exact .error hst

theorem Answers.of_finish {s t u : State} {i : Instr} {d : Word} (h : finish u d = .next t) (he : Effect s i u) :
    Answers s i t := by
  cases h
  exact .ok he d

/-- A host's read of a buffer byte changes nothing, inside the buffer and outside it (R152, R203). -/
theorem readByteCommand_answers {s t : State} {i : Instr} {sp : Space} {m : Memory} {a : Addr}
    (h : readByteCommand s sp m a = .next t) (he : Effect s i s) : Answers s i t := by
  unfold readByteCommand at h
  split at h
  · exact .of_finish h he
  · exact .of_raise h (by decide)

theorem execAccept_answers {s t : State} {b : Byte} (h : execAccept b s = .next t) : Answers s (.accept b) t := by
  obtain ⟨-, h⟩ := whenConfigured_next h
  cases ha : acceptByte s.cfg b s.parser with
  | error f => simp [ha] at h
  | ok q => exact .of_finish (by simpa only [ha] using h) (.accept ha)

theorem execCompose_answers {s t : State} {e : Bool} (h : execCompose e s = .next t) :
    Answers s (.compose e) t := by
  obtain ⟨-, ⟨-, rfl⟩ | ⟨hlen, rfl⟩⟩ := execCompose_next h
  · exact .error (by decide)
  · exact .ok (.compose hlen) _

theorem execWrreg_answers {s t : State} {n : Addr} {v : Word} (h : execWrreg n v s = .next t) :
    Answers s (.wrreg n v) t := by
  obtain ⟨-, h⟩ := whenConfigured_next h
  split at h
  · exact .of_raise h (by decide)
  · split at h
    · exact .of_raise h (by decide)
    · rename_i hw
      exact .of_finish h (.wrreg hw)

theorem execRdreg_answers {s t : State} {n : Addr} (h : execRdreg n s = .next t) : Answers s (.rdreg n) t := by
  obtain ⟨-, h⟩ := whenConfigured_next h
  split at h
  · exact .of_raise h (by decide)
  · exact .of_finish h (.rdreg n)

theorem execTxpWr_answers {s t : State} {i : Addr} {b : Byte} (h : execTxpWr i b s = .next t) :
    Answers s (.txpWr i b) t := by
  obtain ⟨-, h⟩ := whenConfigured_next h
  split at h
  · rename_i hi
    exact .of_finish h (.txpWr (of_decide_eq_true hi))
  · exact .of_raise h (by decide)

/-- Every command that answers a next state ends in one of the two ways. -/
theorem exec_answers {i : Instr} {s t : State} (h : exec i s = .next t) : Answers s i t := by
  cases i with
  | init p => exact .of_finish (whenConfigured_next h).2 (.init p)
  | accept b => exact execAccept_answers h
  | tick => exact .of_finish (whenConfigured_next h).2 .tick
  | compose e => exact execCompose_answers h
  | wrreg n v => exact execWrreg_answers h
  | rdreg n => exact execRdreg_answers h
  | txpWr k b => exact execTxpWr_answers h
  | txbRd k => exact readByteCommand_answers (whenConfigured_next h).2 (.txbRd k)
  | rxbRd k => exact readByteCommand_answers (whenConfigured_next h).2 (.rxbRd k)

/-- Settles O16: an error changes no register, and each effect names the registers it writes. -/
theorem eachRegisterHasItsWriters : Obligations.EachRegisterHasItsWriters := by
  intro i s t h hinit
  cases exec_answers h with
  | error => simp
  | ok he d =>
    cases he with
    | init p => exact absurd rfl (hinit p)
    | accept => simp
    | tick => simpa using fun _ => tick_eq s.cfg s.parser
    | @compose e => cases e <;> simp
    | wrreg hw => obtain rfl | rfl | rfl := writeReg_some hw <;> simp
    | rdreg | txbRd | rxbRd => simp
    | txpWr => simp

end Sys2Proof.Machine
end

section
/-! PROOFS. The invariant of the machine: reset meets it (10_state.md R43, 42_parser.md R204) and every step
keeps it (R27-R40, 42_parser.md R205-R209, 41_composer.md R153). -/

namespace Sys2Proof.Machine

/-- The empty memory is canonical and inside every buffer (R43). -/
theorem Memory.Within.nil (size : Nat) : Memory.Within size [] := ⟨rfl, by simp⟩

/-- A byte written inside the buffer (R151). -/
theorem Memory.Within.write {size i : Nat} {m : Memory} (h : m.Within size) (hi : i < size) (b : Byte) :
    (m.write i b).Within size :=
  ⟨Memory.write_wf h.1 i b, Memory.write_bound h.2 hi b⟩

/-- Bytes written from index 0 on inside the buffer (R147, R153). -/
theorem Memory.Within.writeRun {size : Nat} {m : Memory} {bs : List Byte} (h : m.Within size)
    (hlen : bs.length ≤ size) : (m.writeRun 0 bs).Within size :=
  ⟨Memory.writeRun_wf h.1 0 bs, Memory.writeRun_bound h.2 (by omega)⟩

/-- The session after reset is one that `parserReset` leaves, with TICKS 0 and RXBUF empty (R43, R182). -/
theorem Parser.reset_inv (c : Config) : (Parser.reset c).Inv c :=
  parserReset_inv (p := Parser.reset c) (Nat.zero_le _) (Memory.Within.nil _)

theorem IdGen.reset_nextId_fits (c : Config) (p : Bool) : Fits c.idBits (IdGen.reset p).nextId :=
  Nat.two_pow_pos _

theorem Composer.reset_inv (c : Config) : Composer.reset.Inv c where
  txTypeFits := Nat.two_pow_pos _
  txIdFits := Nat.two_pow_pos _
  txLastIdFits := Nat.two_pow_pos _
  txCountBound := Nat.zero_le _
  txpWithin := Memory.Within.nil _
  txbufWithin := Memory.Within.nil _

/-- Ports that have answered and emitted nothing. -/
theorem Port.reset_inv (c : Config) : Port.reset.Inv c := by
  constructor <;> simp [Port.reset]

theorem resetWith_inv {c : Config} (hc : c.wf = true) : (State.resetWith c).Inv :=
  ⟨hc, Parser.reset_inv c, IdGen.reset_nextId_fits c false, Composer.reset_inv c, Port.reset_inv c⟩

/-- Settles O9: each part of the block meets its own part of the invariant after reset. -/
theorem resetMeetsTheInvariant : Obligations.ResetMeetsTheInvariant :=
  ⟨fun _ hc => resetWith_inv hc, resetWith_inv (by decide)⟩

/-- The idle counter stops at TIMEOUT_TICKS (R33, R201). -/
theorem tick_ticks_le {c : Config} (hc : c.wf = true) {p : Parser} (h : p.ticks.toNat ≤ c.timeoutTicks) :
    (p.tick c).ticks.toNat ≤ c.timeoutTicks := by
  have hbound := (Config.ranges hc).timeoutBound
  unfold Parser.tick
  split
  · exact h
  · rename_i hrun
    have hrun : p.ticks.toNat < c.timeoutTicks := by simpa [timedOut] using hrun
    rw [succ_toNat hrun (by omega)]
    exact hrun

/-- TICK keeps the parser's invariant. -/
theorem tick_inv {c : Config} (hc : c.wf = true) {p : Parser} (h : p.Inv c) : (p.tick c).Inv c := by
  rw [tick_eq]
  exact { h with ticksBound := tick_ticks_le hc h.ticksBound }

/-- A write to an operand register keeps the composer's invariant (R36-R38). -/
theorem writeReg_inv {c : Config} {k k' : Composer} {r : Reg} {v : Word} (hk : k.Inv c)
    (h : writeReg c k r v = some k') : k'.Inv c := by
  obtain rfl | rfl | rfl := writeReg_some h
  · exact { hk with txTypeFits := trunc_lt _ _ }
  · exact { hk with }
  · exact { hk with txIdFits := trunc_lt _ _ }

/-- ID resolution leaves NEXT_ID at its width (R35, R141). -/
theorem resolveId_nextId_fits {s : State} (h : Fits s.cfg.idBits s.idgen.nextId) (e : Bool) :
    Fits s.cfg.idBits (resolveId e s).2.nextId := by
  cases e with
  | true => exact h
  | false => exact trunc_lt _ _

/-- COMPOSE keeps the composer's invariant: a frame with an accepted length fits TXBUF (R147, R148, R153). -/
theorem composed_composer_inv {s : State} (h : s.composer.Inv s.cfg)
    (hlen : s.composer.txLen.toNat ≤ s.cfg.maxPayload) (e : Bool) : (composed e s).composer.Inv s.cfg := by
  have hfit := s.cfg.frameLen_le_txbufSize hlen
  exact { h with
    txLastIdFits := trunc_lt _ _
    txCountBound := by
      simp only [composed, BitVec.toNat_ofNat]
      exact (Nat.mod_le _ _).trans hfit
    txbufWithin := h.txbufWithin.writeRun (by simpa using hfit) }

/-- Every effect, with its OK response, keeps the invariant. -/
theorem Effect.inv {s u : State} {i : Instr} (hs : s.Inv) (he : Effect s i u) (d : Word) :
    (u.respond .ok d).Inv := by
  have answered : ∀ {v : State}, v.Inv → (v.respond .ok d).Inv := fun hv => hv.respond (by simp)
  cases he with
  | init p =>
    exact answered ⟨hs.configWf, Parser.reset_inv _, IdGen.reset_nextId_fits _ p, Composer.reset_inv _, hs.port⟩
  | @accept b p ev h =>
    obtain ⟨q, ev', hq, hinv, hframe⟩ := acceptByte_good hs.configWf hs.parser b
    cases hq.symm.trans h
    exact { configWf := by simpa using hs.configWf
            parser := by simpa using hinv
            nextIdFits := by simpa using hs.nextIdFits
            composer := by simpa using hs.composer
            port := by simpa using Port.Inv.emit (s := { s with parser := p }) hs.port hframe d }
  | tick => exact answered { hs with parser := tick_inv hs.configWf hs.parser }
  | @compose e h =>
    exact answered ⟨hs.configWf, hs.parser, resolveId_nextId_fits hs.nextIdFits e,
      composed_composer_inv hs.composer h e, hs.port⟩
  | wrreg h => exact answered { hs with composer := writeReg_inv hs.composer h }
  | rdreg | txbRd | rxbRd => exact answered hs
  | txpWr h =>
    exact answered { hs with
      composer := { hs.composer with txpWithin := hs.composer.txpWithin.write h _ } }

/-- Every command keeps the invariant. -/
theorem exec_inv {i : Instr} {s t : State} (hs : s.Inv) (h : exec i s = .next t) : t.Inv := by
  cases exec_answers h with
  | error => exact hs.respond fun _ => rfl
  | ok he d => exact he.inv hs d

/-- The invariant says nothing about what the host has still to issue (log 4). -/
theorem State.Inv.withPending {s : State} (h : s.Inv) (ws : List CmdWord) :
    State.Inv { s with port := { s.port with pending := ws } } :=
  { h with port := { h.port with } }

/-- Settles O10: a step holds, runs one command or answers ILLEGAL, and each keeps the invariant. -/
theorem stepKeepsTheInvariant : Obligations.StepKeepsTheInvariant := by
  intro s t hs h
  obtain ⟨-, hstep⟩ | ⟨w, rest, -, ⟨i, -, hstep⟩ | ⟨r, -, hstep⟩⟩ := step_cases s
  · obtain ⟨-, hnext⟩ := whenConfigured_next (hstep.symm.trans h)
    cases hnext
    exact hs
  · exact exec_inv (hs.withPending rest) (hstep.symm.trans h)
  · obtain ⟨-, hnext⟩ := whenConfigured_next (hstep.symm.trans h)
    cases hnext
    exact (hs.withPending rest).respond fun _ => rfl

end Sys2Proof.Machine
end

section
/-! PROOFS. The canonical form of a byte memory (20_memory.md R60-R62, log 9): its data are its contents. -/

namespace Sys2Proof.Machine

/-- The first listed byte is the one its index reads as. -/
theorem Memory.read_cons_self (k : Nat) (v : Byte) (rest : Memory) : Memory.read ((k, v) :: rest) k = v := by
  simp [Memory.read]

/-- A canonical memory that is not empty reads a byte other than 0 at its first index. -/
theorem Memory.read_head_ne_zero {k : Nat} {v : Byte} {rest : Memory}
    (h : Memory.wf ((k, v) :: rest) = true) : Memory.read ((k, v) :: rest) k ≠ 0 := by
  rw [Memory.read_cons_self]
  exact (Memory.wf_cons.1 h).1

/-- The first index of a canonical memory is the least one that does not read 0. -/
theorem Memory.head_le_of_read_ne_zero {k i : Nat} {v : Byte} {rest : Memory}
    (h : Memory.wf ((k, v) :: rest) = true) (hi : Memory.read ((k, v) :: rest) i ≠ 0) : k ≤ i := by
  obtain ⟨-, hlt, -⟩ := Memory.wf_cons.1 h
  by_contra hik
  have hik : i < k := Nat.not_le.1 hik
  exact hi (Memory.read_of_all_gt (List.forall_mem_cons.2 ⟨hik, fun e he => hik.trans (hlt e he)⟩))

/-- Behind the first entry a canonical memory reads as before, with 0 at the first index. -/
theorem Memory.read_tail {k : Nat} {v : Byte} {rest : Memory} (h : Memory.wf ((k, v) :: rest) = true) (a : Nat) :
    rest.read a = if a = k then 0 else Memory.read ((k, v) :: rest) a := by
  obtain ⟨-, hlt, -⟩ := Memory.wf_cons.1 h
  split
  · rename_i hak
    exact Memory.read_of_all_gt (by rwa [hak])
  · rename_i hak
    simp [Memory.read, hak]

/-- Settles O26, by induction on the list: the first index is the least one that reads other than 0, so the
first entries agree, and so do the reads of what is behind them. -/
theorem canonicalMemoriesAreExtensional : Obligations.CanonicalMemoriesAreExtensional := by
  intro m
  induction m with
  | nil =>
    intro m' _ hm' hread
    cases m' with
    | nil => rfl
    | cons e' rest' => exact absurd (hread e'.1).symm (Memory.read_head_ne_zero hm')
  | cons e rest ih =>
    intro m' hm hm' hread
    cases m' with
    | nil => exact absurd (hread e.1) (Memory.read_head_ne_zero hm)
    | cons e' rest' =>
      obtain ⟨k, v⟩ := e
      obtain ⟨k', v'⟩ := e'
      have hle : k ≤ k' := Memory.head_le_of_read_ne_zero hm (by
        rw [hread]
        exact Memory.read_head_ne_zero hm')
      have hge : k' ≤ k := Memory.head_le_of_read_ne_zero hm' (by
        rw [← hread]
        exact Memory.read_head_ne_zero hm)
      obtain rfl : k = k' := Nat.le_antisymm hle hge
      obtain rfl : v = v' := by simpa only [Memory.read_cons_self] using hread k
      obtain ⟨-, -, hrest⟩ := Memory.wf_cons.1 hm
      obtain ⟨-, -, hrest'⟩ := Memory.wf_cons.1 hm'
      have htail : rest = rest' := ih rest' hrest hrest' fun a => by
        rw [Memory.read_tail hm, Memory.read_tail hm', hread]
      rw [htail]

end Sys2Proof.Machine
end

section
/-! PROOFS. The two units of the block and what their commands leave alone (20_memory.md R69, R78): the reads;
the parser's commands, which see the parser alone; the composer's, which see the ID generator and the composer. -/

namespace Sys2Proof.Machine

/-- A command completes only with a well-formed configuration (R11, log 3). -/
theorem cfg_wf_of_exec_next {i : Instr} {s t : State} (h : exec i s = .next t) : s.cfg.wf = true := by
  by_contra hc
  rw [exec_of_not_wf (by simpa using hc)] at h
  cases h

/-- Settles O25: an error changes nothing but the responses, and the effect of a read is the state itself. -/
theorem readsHaveNoSideEffect : Obligations.ReadsHaveNoSideEffect := by
  intro i s t hi h
  cases exec_answers h with
  | error => simp
  | ok he d =>
    obtain ⟨n, rfl⟩ | ⟨k, rfl⟩ | ⟨k, rfl⟩ := hi
    all_goals
      cases he
      simp

/-- What the frame port carries, the index apart: an emission adds its frame, if there is one (R206). -/
@[simp] theorem emit_frames_map_frame (s : State) (ev : Option Frame) :
    (s.emit ev).port.frames.map FrameEvent.frame = s.port.frames.map FrameEvent.frame ++ ev.toList := by
  cases ev <;> simp

/-- In every state with this configuration and this session the command answers OK, leaves the session `p'` and
emits `ev`, and touches nothing else. -/
def ActsOnParser (c : Config) (a : Instr) (p p' : Parser) (ev : Option Frame) : Prop :=
  ∀ s : State, s.cfg = c → s.parser = p →
    exec a s = .next ((({ s with parser := p' } : State).emit ev).respond .ok 0)

/-- In every state with this configuration, ID generator and composer the command answers `(st, d)`, leaves the
ID generator `g'` and the composer `k'`, and touches nothing else. -/
def ActsOnComposer (c : Config) (a : Instr) (g : IdGen) (k : Composer) (g' : IdGen) (k' : Composer)
    (st : Status) (d : Word) : Prop :=
  ∀ s : State, s.cfg = c → s.idgen = g → s.composer = k →
    exec a s = .next (({ s with idgen := g', composer := k' } : State).respond st d)

theorem accept_actsOnParser {c : Config} (hc : c.wf = true) {b : Byte} {p p' : Parser} {ev : Option Frame}
    (h : acceptByte c b p = .ok (p', ev)) : ActsOnParser c (.accept b) p p' ev := by
  rintro s rfl rfl
  simp [exec, execAccept, hc, h, finish]

theorem tick_actsOnParser {c : Config} (hc : c.wf = true) (p : Parser) :
    ActsOnParser c .tick p (p.tick c) none := by
  rintro s rfl rfl
  exact whenConfigured_of_wf hc _

/-- What a parser command does where it completes is decided by the configuration and the session (R78, R180). -/
theorem actsOnParser_of_next {a : Instr} {s t : State} (ha : a = .tick ∨ ∃ b, a = .accept b)
    (h : exec a s = .next t) : ∃ p' ev, ActsOnParser s.cfg a s.parser p' ev := by
  have hc := cfg_wf_of_exec_next h
  obtain rfl | ⟨b, rfl⟩ := ha
  · exact ⟨_, _, tick_actsOnParser hc _⟩
  · cases hb : acceptByte s.cfg b s.parser with
    | ok r => exact ⟨_, _, accept_actsOnParser hc hb⟩
    | error f => simp [exec, execAccept, hc, hb] at h

/-- From a session of the invariant a parser command always completes (R186, R201, R208). -/
theorem actsOnParser_of_inv {a : Instr} {c : Config} {p : Parser} (ha : a = .tick ∨ ∃ b, a = .accept b)
    (hc : c.wf = true) (hp : p.Inv c) : ∃ p' ev, ActsOnParser c a p p' ev := by
  obtain rfl | ⟨b, rfl⟩ := ha
  · exact ⟨_, _, tick_actsOnParser hc _⟩
  · obtain ⟨p', ev, hb, -, -⟩ := acceptByte_good hc hp b
    exact ⟨_, _, accept_actsOnParser hc hb⟩

/-- A composer command that answers an error in every such state leaves both units as they are (R260). -/
theorem actsOnComposer_of_raise {c : Config} {a : Instr} {g : IdGen} {k : Composer} {st : Status}
    (h : ∀ s : State, s.cfg = c → s.composer = k → exec a s = raise s st) :
    ActsOnComposer c a g k g k st 0 := by
  rintro s hs rfl rfl
  exact h s hs rfl

/-- COMPOSE of a payload that fits leaves the two units as it does from any state with the same ones. -/
theorem composed_actsOnComposer {s : State} (hc : s.cfg.wf = true) (hlen : s.composer.txLen.toNat ≤ s.cfg.maxPayload)
    (e : Bool) :
    ActsOnComposer s.cfg (.compose e) s.idgen s.composer (composed e s).idgen (composed e s).composer .ok
      (BitVec.ofNat 32 (s.cfg.frameLen s.composer.txLen.toNat)) := by
  obtain ⟨c, p, g, k, q⟩ := s
  rintro s' rfl rfl rfl
  exact execCompose_of_fits (s := s') hc hlen e

/-- COMPOSE sees the ID generator and the composer alone (R78, R149). -/
theorem compose_actsOnComposer {c : Config} (hc : c.wf = true) (e : Bool) (g : IdGen) (k : Composer) :
    ∃ g' k' st d, ActsOnComposer c (.compose e) g k g' k' st d := by
  by_cases hlen : c.maxPayload < k.txLen.toNat
  · refine ⟨_, _, .payloadTooLarge, _, actsOnComposer_of_raise ?_⟩
    rintro s rfl rfl
    exact execCompose_of_too_large hc hlen e
  · exact ⟨_, _, _, _, composed_actsOnComposer (s := { State.resetWith c with idgen := g, composer := k }) hc
      (Nat.not_lt.1 hlen) e⟩

/-- TXP_WR writes TXP or answers BAD_ADDR (R151). -/
theorem txpWr_actsOnComposer {c : Config} (hc : c.wf = true) (i : Addr) (b : Byte) (g : IdGen) (k : Composer) :
    ∃ g' k' st d, ActsOnComposer c (.txpWr i b) g k g' k' st d := by
  cases hi : indexOk c .txp i with
  | true =>
    refine ⟨g, { k with txp := k.txp.write i.toNat b }, .ok, 0, ?_⟩
    rintro s rfl rfl rfl
    simp [exec, execTxpWr, hc, hi, finish]
  | false =>
    refine ⟨_, _, .badAddr, _, actsOnComposer_of_raise ?_⟩
    rintro s rfl rfl
    simp [exec, execTxpWr, hc, hi]

/-- WRREG writes an operand register or answers BAD_REG (R241). -/
theorem wrreg_actsOnComposer {c : Config} (hc : c.wf = true) (n : Addr) (v : Word) (g : IdGen) (k : Composer) :
    ∃ g' k' st d, ActsOnComposer c (.wrreg n v) g k g' k' st d := by
  cases hk : (Reg.ofNumber n).bind fun r => writeReg c k r v with
  | some k' =>
    obtain ⟨r, hr, hw⟩ := Option.bind_eq_some_iff.1 hk
    refine ⟨g, k', .ok, 0, ?_⟩
    rintro s rfl rfl rfl
    simp [exec, execWrreg, hc, hr, hw, finish]
  | none =>
    refine ⟨_, _, .badReg, _, actsOnComposer_of_raise ?_⟩
    rintro s rfl rfl
    cases hr : Reg.ofNumber n with
    | none => simp [exec, execWrreg, hc, hr]
    | some r =>
      have hw : writeReg s.cfg s.composer r v = none := by simpa [hr] using hk
      simp [exec, execWrreg, hc, hr, hw]

/-- A composer command always completes, and what it does is decided by the configuration, the ID generator and
the composer (R78, R149). -/
theorem actsOnComposer {a : Instr} {c : Config} (hc : c.wf = true)
    (ha : (∃ e, a = .compose e) ∨ (∃ i b, a = .txpWr i b) ∨ ∃ n v, a = .wrreg n v) (g : IdGen) (k : Composer) :
    ∃ g' k' st d, ActsOnComposer c a g k g' k' st d := by
  obtain ⟨e, rfl⟩ | ⟨i, b, rfl⟩ | ⟨n, v, rfl⟩ := ha
  · exact compose_actsOnComposer hc e g k
  · exact txpWr_actsOnComposer hc i b g k
  · exact wrreg_actsOnComposer hc n v g k

/-- Settles O51: both runs of a command do the one thing its own unit decides. -/
theorem parserAndComposerDoNotInterfere : Obligations.ParserAndComposerDoNotInterfere := by
  constructor
  · intro i s s' t t' hi hcfg hparser h h'
    obtain ⟨p', ev, hact⟩ := actsOnParser_of_next hi h
    cases (hact s rfl rfl).symm.trans h
    cases (hact s' hcfg.symm hparser.symm).symm.trans h'
    simp [List.map_drop]
  · intro e s s' t t' hcfg hidgen hcomposer h h'
    obtain ⟨g', k', st, d, hact⟩ := compose_actsOnComposer (cfg_wf_of_exec_next h) e s.idgen s.composer
    cases (hact s rfl rfl rfl).symm.trans h
    cases (hact s' hcfg.symm hidgen.symm hcomposer.symm).symm.trans h'
    simp

/-- Settles O52: each command finds its own unit as the other left it, untouched. -/
theorem parserAndComposerCommandsCommute : Obligations.ParserAndComposerCommandsCommute := by
  intro a c s hs ha hcmd
  obtain ⟨p', ev, hparser⟩ := actsOnParser_of_inv ha hs.configWf hs.parser
  obtain ⟨g', k', st, d, hcomposer⟩ := actsOnComposer hs.configWf hcmd s.idgen s.composer
  have hac := (execAll_cons (hparser s rfl rfl) [c]).trans
    (execAll_cons (hcomposer _ (by simp) (by simp) (by simp)) [])
  have hca := (execAll_cons (hcomposer s rfl rfl rfl) [a]).trans
    (execAll_cons (hparser _ (by simp) (by simp)) [])
  exact ⟨_, _, hac, hca, by simp, by simp, by simp, by simp⟩

end Sys2Proof.Machine
end

section
/-! PROOFS. The decoder and the encoder are inverse to each other (30_encoding.md R81-R83, R88), and which words
are no command (R86-R88). -/

namespace Sys2Proof

/-! ## Operands and fields -/

/-- A field whose bits from `n` on are 0 is its low `n` bits, widened. -/
theorem setWidth_setWidth_of_high_zero {w : Nat} (n : Nat) {x : BitVec w}
    (h : x &&& (BitVec.allOnes w <<< n) = 0) : (x.setWidth n).setWidth w = x := by
  apply BitVec.eq_of_getLsbD_eq
  intro i hi
  by_cases hin : i < n
  · simp [hi, hin]
  · have hbit := congrArg (BitVec.getLsbD · i) h
    have hbit : x.getLsbD i = false := by simpa [hi, hin] using hbit
    simp [hin, hbit]

/-- A field whose bits above bit 0 are 0 is that bit. -/
theorem ite_getLsbD_zero_of_high_zero {w : Nat} {x : BitVec w} (h : x &&& (BitVec.allOnes w <<< 1) = 0) :
    (if x.getLsbD 0 then 1 else 0) = x := by
  have hbit : (x.setWidth 1).setWidth w = x := setWidth_setWidth_of_high_zero 1 h
  rw [BitVec.setWidth_one] at hbit
  conv_rhs => rw [← hbit]
  apply BitVec.eq_of_toNat_eq
  cases x.getLsbD 0 <;> simp

/-- A field all of whose bits are fixed to 0 is 0. -/
theorem eq_zero_of_and_allOnes {w : Nat} {x : BitVec w} (h : x &&& BitVec.allOnes w = 0) : x = 0 :=
  BitVec.and_allOnes.symm.trans h

/-- The byte operand and the two bit operands, read in the fields they are part of (R82). -/
theorem byteOperand_eq_dField (w : CmdWord) : byteOperand w = (dField w).setWidth 8 := by
  simp [byteOperand, dField, BitVec.setWidth_extractLsb'_of_le]

theorem getLsbD_zero_eq_dField (w : CmdWord) : w.getLsbD 0 = (dField w).getLsbD 0 := by simp [dField]

theorem getLsbD_32_eq_aField (w : CmdWord) : w.getLsbD 32 = (aField w).getLsbD 0 := by simp [aField]

/-- A command's operands are read back from its word (R82, R83). -/
theorem operands_encode (i : Instr) : operands i.op (encode i) = i := by
  cases i with
  | init p => cases p <;> rfl
  | compose e => cases e <;> rfl
  | tick => rfl
  | accept b | txpWr k b =>
    simp [operands, Instr.op, byteOperand_eq_dField, Instr.dOperand, Instr.aOperand]
  | wrreg r v => simp [operands, Instr.op, Instr.dOperand, Instr.aOperand]
  | rdreg k | txbRd k | rxbRd k => simp [operands, Instr.op, Instr.aOperand]

/-- Where a row's fixed A bits are 0, the operands carry all of A (R83, R88). -/
theorem aOperand_operands {w : CmdWord} {o : Op} (h : aField w &&& o.aMask = 0) :
    (operands o w).aOperand = aField w := by
  cases o with
  | init | accept | tick => exact (eq_zero_of_and_allOnes h).symm
  | compose =>
    simp only [operands, Instr.aOperand, getLsbD_32_eq_aField]
    exact ite_getLsbD_zero_of_high_zero h
  | wrreg | rdreg | txpWr | txbRd | rxbRd => rfl

/-- Where a row's fixed D bits are 0, the operands carry all of D (R83, R88). -/
theorem dOperand_operands {w : CmdWord} {o : Op} (h : dField w &&& o.dMask = 0) :
    (operands o w).dOperand = dField w := by
  cases o with
  | init =>
    simp only [operands, Instr.dOperand, getLsbD_zero_eq_dField]
    exact ite_getLsbD_zero_of_high_zero h
  | accept | txpWr =>
    simp only [operands, Instr.dOperand, byteOperand_eq_dField]
    exact setWidth_setWidth_of_high_zero 8 h
  | wrreg => rfl
  | tick | compose | rdreg | txbRd | rxbRd => exact (eq_zero_of_and_allOnes h).symm

/-! ## Decoding and encoding -/

/-- Every command's word fits its row of the opcode table (R88). -/
theorem encode_fits_row (i : Instr) : encode i &&& i.op.mask = i.op.pattern := by
  cases i with
  | init p => exact Laws.FitsRow.init p
  | accept b => exact Laws.FitsRow.accept b
  | tick => exact Laws.FitsRow.tick
  | compose e => exact Laws.FitsRow.compose e
  | wrreg r v => exact Laws.FitsRow.wrreg r v
  | rdreg r => exact Laws.FitsRow.rdreg r
  | txpWr k b => exact Laws.FitsRow.txpWr k b
  | txbRd k => exact Laws.FitsRow.txbRd k
  | rxbRd k => exact Laws.FitsRow.rxbRd k

/-- Settles O1: the word fits its command's row, and the row's operands are the command's own. -/
theorem decodeOfEncodeIsTheCommand : Obligations.DecodeOfEncodeIsTheCommand := fun i =>
  (decode_ok_iff _ i).2 ⟨i.op, encode_fits_row i, (operands_encode i).symm⟩

/-- Settles O2: a word that fits a row is made of the row's opcode and two fields that the operands carry. -/
theorem encodeOfDecodeIsTheWord : Obligations.EncodeOfDecodeIsTheWord := by
  intro w i h
  obtain ⟨o, hfits, rfl⟩ := (decode_ok_iff w i).1 h
  obtain ⟨hop, ha, hd⟩ := (fits_row_iff w o).1 hfits
  rw [encode, operands_op, aOperand_operands ha, dOperand_operands hd, ← hop, pack_fields]

/-- The words that decode to a command are exactly that command's own word. -/
theorem decode_ok_iff_encode_eq (w : CmdWord) (i : Instr) : decode w = .ok i ↔ encode i = w :=
  ⟨encodeOfDecodeIsTheWord w i, by rintro rfl; exact decodeOfEncodeIsTheCommand i⟩

/-- Settles O5: each word is what its command encodes to. -/
theorem wordsOfTheOpcodeMapDecode : Obligations.WordsOfTheOpcodeMapDecode := by
  simp only [Obligations.WordsOfTheOpcodeMapDecode, decode_ok_iff_encode_eq]
  decide

/-! ## Words that are no command -/

/-- A word decodes to a command of the mnemonic `o` exactly when it fits the row of `o` (R88). -/
theorem decodes_to_op_iff (w : CmdWord) (o : Op) :
    (∃ i, decode w = .ok i ∧ i.op = o) ↔ w &&& o.mask = o.pattern := by
  constructor
  · rintro ⟨i, hi, rfl⟩
    obtain ⟨o, hfits, rfl⟩ := (decode_ok_iff w i).1 hi
    rwa [operands_op]
  · intro hfits
    exact ⟨operands o w, (decode_ok_iff w _).2 ⟨o, hfits, rfl⟩, operands_op o w⟩

/-- An assigned opcode with a non-zero reserved field (R88). -/
theorem decode_of_not_fits {w : CmdWord} {o : Op} (hop : opField w = o.byte) (h : w &&& o.mask ≠ o.pattern) :
    decode w = .error .reservedField := by
  simp only [decode, (Op.ofByte_eq_some _ o).2 hop, if_neg h]

/-- The assigned OP values are 0x01-0x09 (R83). -/
theorem Op.byte_range (o : Op) : o.byte ≠ 0 ∧ o.byte.toNat < 0x0A := by cases o <;> decide

/-- OP values 0x00 and 0x0A-0xFF name no opcode (R87). -/
theorem Op.ofByte_of_reserved {b : BitVec 8} (h : b = 0 ∨ 0x0A ≤ b.toNat) : Op.ofByte b = none := by
  cases ho : Op.ofByte b with
  | none => rfl
  | some o =>
    obtain ⟨hne, hlt⟩ := o.byte_range
    rw [← (Op.ofByte_eq_some b o).1 ho] at hne hlt
    exact absurd h (not_or.2 ⟨hne, Nat.not_le.2 hlt⟩)

/-- A reserved opcode (R87). -/
theorem decode_of_reserved {w : CmdWord} (h : opField w = 0 ∨ 0x0A ≤ (opField w).toNat) :
    decode w = .error .reservedOpcode := by
  simp only [decode, Op.ofByte_of_reserved h]

end Sys2Proof

namespace Sys2Proof.Machine

/-- The first pending word is the one that a step takes from the port (R80). -/
theorem takeCommand_of_pending {s : State} {w : CmdWord} {rest : List CmdWord} (hp : s.port.pending = w :: rest) :
    s.takeCommand = some (w, { s with port := { s.port with pending := rest } }) :=
  takeCommand_eq_some.2 ⟨rest, hp, rfl⟩

/-- Settles O6: the step takes the word, decodes it and runs the command. -/
theorem stepRunsTheDecodedCommand : Obligations.StepRunsTheDecodedCommand := by
  intro s w rest i hp hd
  simp only [step, takeCommand_of_pending hp, hd]

/-- A step on a word that is no command takes it from the port and answers ILLEGAL, and that is all (R86-R88). -/
theorem step_of_decode_error {s : State} {w : CmdWord} {rest : List CmdWord} {r : Reject}
    (hc : s.cfg.wf = true) (hp : s.port.pending = w :: rest) (hd : decode w = .error r) :
    step s = .next (({ s with port := { s.port with pending := rest } } : State).respond .illegal 0) := by
  simp only [step, takeCommand_of_pending hp, hd]
  exact whenConfigured_of_wf hc _

/-- Settles O3: the rows written out in the statement are those of the decoder, one for each opcode. -/
theorem wordIsCommandExactlyWhenItsRowMatches : Obligations.WordIsCommandExactlyWhenItsRowMatches := by
  intro w
  refine ⟨?rows, ?unique⟩
  case rows =>
    intro row hrow
    obtain ⟨o, -, rfl⟩ : ∃ o ∈ Op.all, (o, o.pattern, o.mask) = row := List.mem_map.1 hrow
    refine ⟨decodes_to_op_iff w o, fun hop hfits => ?_⟩
    have hd := decode_of_not_fits hop hfits
    exact ⟨hd, fun s rest hc hp => step_of_decode_error hc hp hd⟩
  case unique =>
    intro i j hi hj
    rw [Except.ok.inj (hi.symm.trans hj)]

/-- Settles O4: the decoder refuses the word before it looks at the other fields. -/
theorem reservedOpcodeIsIllegal : Obligations.ReservedOpcodeIsIllegal := by
  intro w hop
  have hd := decode_of_reserved hop
  exact ⟨hd, fun s rest hc hp => step_of_decode_error hc hp hd⟩

end Sys2Proof.Machine
end

section
/-! PROOFS. The response to a command (30_encoding.md R84, R85): its layout, and the DATA of each command. -/

namespace Sys2Proof.Machine

/-! ## The layout -/

@[simp] theorem bits_data (r : Response) : r.bits.extractLsb' 0 32 = r.data :=
  BitVec.extractLsb'_append_eq_right

@[simp] theorem bits_status (r : Response) : r.bits.extractLsb' 32 8 = r.status.code :=
  BitVec.extractLsb'_append_eq_left

theorem Status.code_eq_zero_iff (st : Status) : st.code = 0 ↔ st = .ok := by cases st <;> decide

/-! ## The DATA of a command -/

/-- The DATA that a command answers with status OK (R84). -/
inductive OkData (s : State) : Instr → Word → Prop where
  | init (p : Bool) : OkData s (.init p) 0
  | accept (b : Byte) : OkData s (.accept b) 0
  | tick : OkData s .tick 0
  | compose (e : Bool) : OkData s (.compose e) (BitVec.ofNat 32 (s.cfg.frameLen s.composer.txLen.toNat))
  | wrreg (n : Addr) (v : Word) : OkData s (.wrreg n v) 0
  | rdreg {n : Addr} {reg : Reg} (h : reg.number = n) : OkData s (.rdreg n) (readReg s reg)
  | txpWr (k : Addr) (b : Byte) : OkData s (.txpWr k b) 0
  | txbRd (k : Addr) : OkData s (.txbRd k) ((s.composer.txbuf.read k.toNat).setWidth 32)
  | rxbRd (k : Addr) : OkData s (.rxbRd k) ((s.parser.rxbuf.read k.toNat).setWidth 32)

/-- The command completes with one response, whose DATA is 0 with an error (R84, R260) and the command's own
with OK. -/
def Responds (s : State) (i : Instr) (res : Result) : Prop :=
  ∃ (t : State) (r : Response), res = .next t ∧ t.port.responses = s.port.responses ++ [r] ∧
    (r.status ≠ .ok → r.data = 0) ∧ (r.status = .ok → OkData s i r.data)

theorem Responds.of_raise {s : State} {i : Instr} {st : Status} (hst : st ≠ .ok) : Responds s i (raise s st) :=
  ⟨_, ⟨st, 0⟩, rfl, rfl, fun _ => rfl, fun h => absurd h hst⟩

theorem Responds.of_finish {s u : State} {i : Instr} {d : Word} (hu : u.port.responses = s.port.responses)
    (hd : OkData s i d) : Responds s i (finish u d) :=
  ⟨_, ⟨.ok, d⟩, rfl, by rw [respond_responses, hu], fun h => absurd rfl h, fun _ => hd⟩

/-- A register number names the register that has it (R41). -/
theorem Reg.number_of_ofNumber {n : Addr} {reg : Reg} (h : Reg.ofNumber n = some reg) : reg.number = n := by
  simpa using List.find?_some h

/-- A host's read of a buffer byte answers with it inside the buffer and with BAD_ADDR outside (R152, R203). -/
theorem readByteCommand_responds {s : State} {i : Instr} {sp : Space} {m : Memory} {k : Addr}
    (hd : OkData s i ((m.read k.toNat).setWidth 32)) : Responds s i (readByteCommand s sp m k) := by
  unfold readByteCommand
  split
  · exact .of_finish rfl hd
  · exact .of_raise (by decide)

theorem execAccept_responds {s : State} (hs : s.Inv) (b : Byte) : Responds s (.accept b) (execAccept b s) := by
  obtain ⟨p, ev, hp, -, -⟩ := acceptByte_good hs.configWf hs.parser b
  rw [execAccept, whenConfigured_of_wf hs.configWf, hp]
  exact .of_finish (by simp) (.accept b)

theorem execCompose_responds {s : State} (hc : s.cfg.wf = true) (e : Bool) :
    Responds s (.compose e) (execCompose e s) := by
  by_cases hlen : s.composer.txLen.toNat ≤ s.cfg.maxPayload
  · rw [execCompose_of_fits hc hlen]
    exact .of_finish rfl (.compose e)
  · rw [execCompose_of_too_large hc (Nat.not_le.1 hlen)]
    exact .of_raise (by decide)

theorem execWrreg_responds {s : State} (hc : s.cfg.wf = true) (n : Addr) (v : Word) :
    Responds s (.wrreg n v) (execWrreg n v s) := by
  rw [execWrreg, whenConfigured_of_wf hc]
  split
  · exact .of_raise (by decide)
  · split
    · exact .of_raise (by decide)
    · exact .of_finish rfl (.wrreg n v)

theorem execRdreg_responds {s : State} (hc : s.cfg.wf = true) (n : Addr) :
    Responds s (.rdreg n) (execRdreg n s) := by
  rw [execRdreg, whenConfigured_of_wf hc]
  split
  · exact .of_raise (by decide)
  · rename_i hreg
    exact .of_finish rfl (.rdreg (Reg.number_of_ofNumber hreg))

theorem execTxpWr_responds {s : State} (hc : s.cfg.wf = true) (k : Addr) (b : Byte) :
    Responds s (.txpWr k b) (execTxpWr k b s) := by
  rw [execTxpWr, whenConfigured_of_wf hc]
  split
  · exact .of_finish rfl (.txpWr k b)
  · exact .of_raise (by decide)

/-- In every state of the invariant every command completes with its one response (R84). -/
theorem exec_responds {s : State} (hs : s.Inv) (i : Instr) : Responds s i (exec i s) := by
  have hc := hs.configWf
  cases i with
  | init p =>
    rw [exec, execInit, whenConfigured_of_wf hc]
    exact .of_finish rfl (.init p)
  | accept b => exact execAccept_responds hs b
  | tick =>
    rw [exec, execTick, whenConfigured_of_wf hc]
    exact .of_finish rfl .tick
  | compose e => exact execCompose_responds hc e
  | wrreg n v => exact execWrreg_responds hc n v
  | rdreg n => exact execRdreg_responds hc n
  | txpWr k b => exact execTxpWr_responds hc k b
  | txbRd k =>
    rw [exec, execTxbRd, whenConfigured_of_wf hc]
    exact readByteCommand_responds (.txbRd k)
  | rxbRd k =>
    rw [exec, execRxbRd, whenConfigured_of_wf hc]
    exact readByteCommand_responds (.rxbRd k)

/-- Settles O60: the layout, the answer to a word that is no command, and what each command responds. -/
theorem responseWordLayout : Obligations.ResponseWordLayout := by
  refine ⟨?layout, ?illegal, ?command⟩
  case layout =>
    intro r
    refine ⟨bits_data r, ?_⟩
    rw [bits_status]
    cases r.status <;> rfl
  case illegal =>
    intro s w rest hs hp hnone
    cases hd : decode w with
    | ok i => exact absurd hd (hnone i)
    | error r =>
      refine ⟨_, step_of_decode_error hs.configWf hp hd, ?_⟩
      simp only [respond_responses, List.map_append]
      rfl
  case command =>
    intro i s hs
    obtain ⟨t, r, hexec, hresp, herror, hok⟩ := exec_responds hs i
    refine ⟨t, r, hexec, hresp, ?_⟩
    simp only [bits_status, bits_data, Status.code_eq_zero_iff, ne_eq]
    refine ⟨herror, fun hst => ?_⟩
    have hdata := hok hst
    generalize r.data = d at hdata ⊢
    cases hdata with
    | @rdreg n reg h => simpa using ⟨reg, h, rfl⟩
    | txbRd k | rxbRd k => simp
    | _ => simp

end Sys2Proof.Machine
end

section
/-! PROOFS. SEND and RESPOND (30_encoding.md R93, R94): loading the payload and the operands, then COMPOSE of
what was loaded (41_composer.md R146-R148). -/

namespace Sys2Proof.Machine

/-! ## Loading -/

/-- TXP_WR inside the buffer (R151). -/
theorem txpWr_actsOnComposer_of_lt {c : Config} (hc : c.wf = true) {i : Addr} (hi : i.toNat < c.maxPayload)
    (b : Byte) (g : IdGen) (k : Composer) :
    ActsOnComposer c (.txpWr i b) g k g { k with txp := k.txp.write i.toNat b } .ok 0 := by
  rintro s rfl rfl rfl
  have hok : indexOk s.cfg .txp i = true := decide_eq_true hi
  simp [exec, execTxpWr, hc, hok, finish]

/-- WRREG of an operand register (R241). -/
theorem wrreg_actsOnComposer_of_write {c : Config} (hc : c.wf = true) {n : Addr} {v : Word} {r : Reg}
    {k k' : Composer} (hr : Reg.ofNumber n = some r) (hw : writeReg c k r v = some k') (g : IdGen) :
    ActsOnComposer c (.wrreg n v) g k g k' .ok 0 := by
  rintro s rfl rfl rfl
  simp [exec, execWrreg, hc, hr, hw, finish]

/-- In every state with this configuration, ID generator and composer the commands complete, leave the composer
`k'`, and touch neither the ID generator nor the parser. -/
def RunsOnComposer (c : Config) (is : List Instr) (g : IdGen) (k k' : Composer) : Prop :=
  ∀ s : State, s.cfg = c → s.idgen = g → s.composer = k →
    ∃ t, execAll is s = .next t ∧ t.cfg = c ∧ t.idgen = g ∧ t.composer = k' ∧ t.parser = s.parser

theorem RunsOnComposer.nil (c : Config) (g : IdGen) (k : Composer) : RunsOnComposer c [] g k k :=
  fun s hc hg hk => ⟨s, rfl, hc, hg, hk, rfl⟩

theorem RunsOnComposer.cons {c : Config} {i : Instr} {is : List Instr} {g : IdGen} {k k' k'' : Composer}
    {st : Status} {d : Word} (hi : ActsOnComposer c i g k g k' st d) (his : RunsOnComposer c is g k' k'') :
    RunsOnComposer c (i :: is) g k k'' := by
  intro s hc hg hk
  obtain ⟨t, hrun, hrest⟩ := his (({ s with idgen := g, composer := k' } : State).respond st d) hc rfl rfl
  exact ⟨t, (execAll_cons (hi s hc hg hk) is).trans hrun, hrest⟩

theorem RunsOnComposer.append {c : Config} {is js : List Instr} {g : IdGen} {k k' k'' : Composer}
    (his : RunsOnComposer c is g k k') (hjs : RunsOnComposer c js g k' k'') :
    RunsOnComposer c (is ++ js) g k k'' := by
  intro s hc hg hk
  obtain ⟨t, hrun, htc, htg, htk, htp⟩ := his s hc hg hk
  obtain ⟨u, hrun', huc, hug, huk, hup⟩ := hjs t htc htg htk
  exact ⟨u, (execAll_append hrun).trans hrun', huc, hug, huk, hup.trans htp⟩

/-- The TXP_WRs write the payload into TXP, from index `i` on (R93). -/
theorem loadTxp_runsOnComposer {c : Config} (hc : c.wf = true) (g : IdGen) (k : Composer) (i : Nat)
    (bs : List Byte) (h : i + bs.length ≤ c.maxPayload) :
    RunsOnComposer c (loadTxp i bs) g k { k with txp := k.txp.writeRun i bs } := by
  induction bs generalizing i k with
  | nil => exact .nil c g k
  | cons b bs ih =>
    rw [List.length_cons] at h
    have hsize := (Config.ranges hc).txbuf
    have hi : (BitVec.ofNat 24 i).toNat = i := by
      rw [BitVec.toNat_ofNat, Nat.mod_eq_of_lt (by omega)]
    have hwrite := txpWr_actsOnComposer_of_lt hc (i := BitVec.ofNat 24 i) (by omega) b g k
    rw [hi] at hwrite
    exact .cons hwrite (ih { k with txp := k.txp.write i b } (i + 1) (by omega))

/-- The composer with a payload, its length, its type and an ID loaded (R93, R94). -/
def Composer.loaded (c : Config) (k : Composer) (typ id : Word) (payload : List Byte) : Composer :=
  { k with
    txp := k.txp.writeRun 0 payload
    txType := trunc c.typeBits typ
    txLen := BitVec.ofNat 32 payload.length
    txId := id }

/-- What SEND does before its COMPOSE (R93). -/
theorem sendOperands_runsOnComposer {c : Config} (hc : c.wf = true) (g : IdGen) (k : Composer) (typ : Word)
    {payload : List Byte} (h : payload.length ≤ c.maxPayload) :
    RunsOnComposer c
      (loadTxp 0 payload ++ [.wrreg 0x000020 typ, .wrreg 0x000021 (BitVec.ofNat 32 payload.length)])
      g k (k.loaded c typ k.txId payload) :=
  .append (loadTxp_runsOnComposer hc g k 0 payload (by omega))
    (.cons (wrreg_actsOnComposer_of_write hc (r := .txType) (by decide) rfl g)
      (.cons (wrreg_actsOnComposer_of_write hc (r := .txLen) (by decide) rfl g) (.nil c g _)))

/-- What RESPOND does before its COMPOSE: the same, and the explicit ID (R94). -/
theorem respondOperands_runsOnComposer {c : Config} (hc : c.wf = true) (g : IdGen) (k : Composer)
    (typ id : Word) {payload : List Byte} (h : payload.length ≤ c.maxPayload) :
    RunsOnComposer c
      (loadTxp 0 payload ++ [.wrreg 0x000020 typ, .wrreg 0x000021 (BitVec.ofNat 32 payload.length)]
        ++ [.wrreg 0x000022 id])
      g k (k.loaded c typ (trunc c.idBits id) payload) :=
  .append (sendOperands_runsOnComposer hc g k typ h)
    (.cons (wrreg_actsOnComposer_of_write hc (r := .txId) (by decide) rfl g) (.nil c g _))

/-! ## Composing -/

/-- The staging buffer holds the composed frame (R147). -/
theorem composed_txbuf_readRun (e : Bool) {s : State} (h : s.composer.txbuf.wf = true) :
    (composed e s).composer.txbuf.readRun 0 (s.cfg.frameLen s.composer.txLen.toNat) =
      serialize s.cfg (resolveId e s).1 s.composer.txLen s.composer.txType
        (s.composer.txp.readRun 0 s.composer.txLen.toNat) := by
  have hread := Memory.readRun_writeRun h (serialize s.cfg (resolveId e s).1 s.composer.txLen
    s.composer.txType (s.composer.txp.readRun 0 s.composer.txLen.toNat))
  rwa [serialize_length, Memory.readRun_length] at hread

/-- ID resolution sees the configuration, the ID generator and the composer alone (R146). -/
theorem resolveId_congr (e : Bool) {s t : State} (hc : t.cfg = s.cfg) (hg : t.idgen = s.idgen)
    (hk : t.composer = s.composer) : resolveId e t = resolveId e s := by
  cases e <;> simp [hc, hg, hk]

/-- A payload that fits keeps its length in TX_LEN (R8, R37). -/
theorem payload_length_toNat {c : Config} (hc : c.wf = true) {payload : List Byte}
    (h : payload.length ≤ c.maxPayload) : (BitVec.ofNat 32 payload.length).toNat = payload.length := by
  have hsize := (Config.ranges hc).txbuf
  rw [BitVec.toNat_ofNat, Nat.mod_eq_of_lt (by omega)]

/-- Commands that load a type and a payload, then COMPOSE: the frame of that type and payload, with the ID that
resolves there (R93, R94, R146-R148). -/
theorem execAll_compose_of_loaded {s : State} (hs : s.Inv) {is : List Instr} {typ txId id : Word}
    {payload : List Byte} (hlen : payload.length ≤ s.cfg.maxPayload)
    (hrun : RunsOnComposer s.cfg is s.idgen s.composer (s.composer.loaded s.cfg typ txId payload))
    {e : Bool} {g : IdGen}
    (hid : resolveId e { s with composer := s.composer.loaded s.cfg typ txId payload } = (id, g))
    (hfits : Fits s.cfg.idBits id) :
    ∃ (t : State) (n : Nat), execAll (is ++ [.compose e]) s = .next t ∧
      t.composer.txCount = BitVec.ofNat 32 n ∧ n = s.cfg.frameLen payload.length ∧
      t.composer.txbuf.readRun 0 n =
        serialize s.cfg id (BitVec.ofNat 32 payload.length) (trunc s.cfg.typeBits typ) payload ∧
      t.composer.txLastId = id ∧ t.idgen = g ∧ t.parser = s.parser ∧
      t.port.responses.getLast? = some { status := .ok, data := BitVec.ofNat 32 n } := by
  obtain ⟨u, hu, hcfg, hidgen, hcomposer, hparser⟩ := hrun s rfl rfl rfl
  have hidu : resolveId e u = (id, g) :=
    (resolveId_congr (s := { s with composer := s.composer.loaded s.cfg typ txId payload }) e hcfg hidgen
      hcomposer).trans hid
  have htxLen : u.composer.txLen.toNat = payload.length := by
    rw [hcomposer]
    exact payload_length_toNat hs.configWf hlen
  have hpayload : u.composer.txp.readRun 0 payload.length = payload := by
    rw [hcomposer]
    exact Memory.readRun_writeRun hs.composer.txpWithin.1 payload
  have htxbuf := composed_txbuf_readRun e (s := u) (by rw [hcomposer]; exact hs.composer.txbufWithin.1)
  have hcompose : exec (.compose e) u =
      .next ((composed e u).respond .ok (BitVec.ofNat 32 (s.cfg.frameLen payload.length))) := by
    rw [← htxLen, ← hcfg]
    exact execCompose_of_fits (hcfg ▸ hs.configWf) (by rwa [htxLen, hcfg]) e
  rw [htxLen, hcfg, hidu, hpayload, hcomposer] at htxbuf
  refine ⟨_, _, (execAll_append hu).trans (execAll_cons hcompose []), ?txCount, rfl, htxbuf, ?txLastId, ?idgen,
    hparser, by simp⟩
  case txCount => simp [composed, htxLen, hcfg]
  case txLastId => simp [composed, hidu, hcfg, trunc_of_lt hfits]
  case idgen => simp [hidu]

/-- Settles O37: both expansions load the same operands; SEND's COMPOSE generates its ID, and RESPOND's takes
the one its WRREG left. -/
theorem sendComposesItsPayload : Obligations.SendComposesItsPayload := by
  intro id typ payload s hs hlen
  have hsend := execAll_compose_of_loaded hs hlen
    (sendOperands_runsOnComposer hs.configWf s.idgen s.composer typ hlen) (e := false) rfl
    (generatedId_lt hs.configWf s.idgen)
  have hrespond := execAll_compose_of_loaded hs hlen
    (respondOperands_runsOnComposer hs.configWf s.idgen s.composer typ id hlen) (e := true) rfl (trunc_lt _ _)
  rw [List.append_assoc] at hsend
  rw [List.append_assoc, List.append_assoc] at hrespond
  exact ⟨hsend, hrespond⟩

end Sys2Proof.Machine
end

section
/-! PROOFS. The checksum generators (40_checksum.md): the table-driven and the bitwise form of the CRCs, the
corner cases of XOR8 and CRC16, and the detection of a changed byte. -/

namespace Sys2Proof

/-! ## One CRC update -/

section
variable {w : Nat} (poly : BitVec w)

/-- A bit of the shifted word, with the polynomial's bit XORed in when the bit shifted out is set (R117). -/
theorem crcStep_getLsbD (x : BitVec w) (i : Nat) :
    (crcStep poly x).getLsbD i = (x.getLsbD (1 + i) ^^ (x.getLsbD 0 && poly.getLsbD i)) := by
  cases hx : x.getLsbD 0 <;> simp [crcStep, hx]

/-- The shift step is linear. -/
theorem crcStep_xor (x y : BitVec w) : crcStep poly (x ^^^ y) = crcStep poly x ^^^ crcStep poly y := by
  apply BitVec.eq_of_getLsbD_eq
  intro i _
  simp only [BitVec.getLsbD_xor, crcStep_getLsbD, Bool.and_xor_distrib_right]
  simp only [Bool.xor_assoc, Bool.xor_left_comm]

theorem crcSteps8_xor (x y : BitVec w) :
    crcSteps8 poly (x ^^^ y) = crcSteps8 poly x ^^^ crcSteps8 poly y := by
  simp only [crcSteps8, crcStep_xor]

/-- Eight steps only shift when no low bit is set: none of them meets the polynomial. -/
theorem crcSteps8_of_low_zero {x : BitVec w} (h : ∀ i < 8, x.getLsbD i = false) :
    crcSteps8 poly x = x >>> 8 := by
  simp [crcSteps8, crcStep, h, ← BitVec.shiftRight_add]

/-- An accumulator with a byte XORed in: the bits above the low byte, and the index into the table. -/
theorem xor_setWidth_eq_high_xor_index (acc : BitVec w) (b : Byte) :
    acc ^^^ b.setWidth w = (acc >>> 8 <<< 8) ^^^ (acc.setWidth 8 ^^^ b).setWidth w := by
  apply BitVec.eq_of_getLsbD_eq
  intro i hi
  by_cases hlow : i < 8
  · simp [hi, hlow]
  · have hback : 8 + (i - 8) = i := by omega
    simp [hi, hlow, hback, BitVec.getLsbD_of_ge b i (by omega)]

/-- R118, for a CRC of any width: the high bits are only shifted, and the low byte's eight steps stand in the
table. -/
theorem crcAdd_eq_crcSteps8 (acc : BitVec w) (b : Byte) :
    crcAdd poly acc b = crcSteps8 poly (acc ^^^ b.setWidth w) := by
  have hhigh : crcSteps8 poly (acc >>> 8 <<< 8) = acc >>> 8 <<< 8 >>> 8 :=
    crcSteps8_of_low_zero poly fun i hi => by simp [hi]
  have hback : acc >>> 8 <<< 8 >>> 8 = acc >>> 8 := by
    apply BitVec.eq_of_getLsbD_eq
    intro i hi
    simpa [hi] using BitVec.lt_of_getLsbD
  rw [xor_setWidth_eq_high_xor_index, crcSteps8_xor, hhigh, hback]
  rfl

variable {poly}

/-- A step leaves in the top bit the bit it shifted out, where the polynomial has its top bit set. -/
theorem crcStep_msb (h : poly.msb = true) (x : BitVec w) : (crcStep poly x).msb = x.getLsbD 0 := by
  cases hx : x.getLsbD 0 <;> simp [crcStep, hx, h]

/-- A shift by one loses nothing but bit 0. -/
theorem eq_of_ushiftRight_one_eq {x y : BitVec w} (h0 : x.getLsbD 0 = y.getLsbD 0) (h : x >>> 1 = y >>> 1) :
    x = y := by
  apply BitVec.eq_of_getLsbD_eq
  intro i _
  cases i with
  | zero => exact h0
  | succ i => simpa [Nat.add_comm] using congrArg (BitVec.getLsbD · i) h

theorem crcStep_injective (hpoly : poly.msb = true) : Function.Injective (crcStep poly) := by
  intro x y h
  have h0 : x.getLsbD 0 = y.getLsbD 0 := by rw [← crcStep_msb hpoly, h, crcStep_msb hpoly]
  apply eq_of_ushiftRight_one_eq h0
  cases hy : y.getLsbD 0 <;> simpa [crcStep, h0, hy] using h

theorem crcSteps8_injective (hpoly : poly.msb = true) : Function.Injective (crcSteps8 poly) :=
  (crcStep_injective hpoly).iterate 8

theorem crcAdd_left_injective (hpoly : poly.msb = true) (b : Byte) :
    Function.Injective (crcAdd poly · b) := by
  intro acc acc' h
  simp only [crcAdd_eq_crcSteps8] at h
  simpa using crcSteps8_injective hpoly h

theorem crcAdd_right_injective (hpoly : poly.msb = true) (hw : 8 ≤ w) (acc : BitVec w) :
    Function.Injective (crcAdd poly acc) := by
  intro b b' h
  simp only [crcAdd_eq_crcSteps8] at h
  have hb : b.setWidth w = b'.setWidth w := by simpa using crcSteps8_injective hpoly h
  simpa [hw] using congrArg (BitVec.setWidth 8) hb

end

theorem P16_msb : P16.msb = true := by decide

theorem P32_msb : P32.msb = true := by decide

/-- Settles O27: both CRCs are instances of the update over any width. -/
theorem tableDrivenCrcEqualsBitwise : Obligations.TableDrivenCrcEqualsBitwise :=
  ⟨crcAdd_eq_crcSteps8 P16, crcAdd_eq_crcSteps8 P32⟩

/-! ## Corner cases -/

/-- XOR8 is the complement of the XOR of all bytes (R114). -/
theorem ckOf_xor8 (bs : List Byte) : ckOf .xor8 bs = (~~~ bs.foldl (· ^^^ ·) 0).setWidth 32 := by
  have hfold : bs.foldl (ckAdd .xor8) ((0 : Byte).setWidth 32) = (bs.foldl (· ^^^ ·) (0 : Byte)).setWidth 32 :=
    List.foldl_hom (BitVec.setWidth 32) fun acc b => by simp [ckAdd]
  have hback : ((bs.foldl (· ^^^ ·) (0 : Byte)).setWidth 32).setWidth 8 = bs.foldl (· ^^^ ·) (0 : Byte) :=
    BitVec.setWidth_setWidth_of_le _ (by decide)
  show (~~~ ((bs.foldl (ckAdd .xor8) ((0 : Byte).setWidth 32)).setWidth 8)).setWidth 32 = _
  rw [hfold, hback]

/-- The XOR of the bytes does not depend on their order (R115). -/
theorem ckOf_xor8_perm {bs bs' : List Byte} (h : bs.Perm bs') : ckOf .xor8 bs = ckOf .xor8 bs' := by
  rw [ckOf_xor8, ckOf_xor8, h.foldl_eq]

/-- Two leading bytes enter XOR8 by their XOR alone. -/
theorem ckOf_xor8_cons_cons (a b : Byte) (bs : List Byte) :
    ckOf .xor8 (a :: b :: bs) = ckOf .xor8 ((a ^^^ b) :: bs) := by
  simp [ckOf_xor8]

/-- A 0 byte does not enter XOR8. -/
theorem ckOf_xor8_zero_cons (bs : List Byte) : ckOf .xor8 (0 :: bs) = ckOf .xor8 bs := by
  simp [ckOf_xor8]

/-- A leading 0 byte keeps the seed of CRC16 at 0 (R119). -/
theorem ckOf_crc16_zero_cons (bs : List Byte) : ckOf .crc16 (0 :: bs) = ckOf .crc16 bs := by
  have hseed : ckAdd .crc16 (ckReset .crc16) 0 = ckReset .crc16 := by decide
  rw [ckOf, List.foldl_cons, hseed]
  rfl

/-- Settles O29: XOR8 depends on the XOR of its bytes alone, and a leading 0 byte keeps the seed of CRC16. -/
theorem checksumCornerCases : Obligations.ChecksumCornerCases := by
  refine ⟨by decide, ?single, fun _ _ => ckOf_xor8_perm, ?cancel, ?undetected, ?zeros⟩
  case single =>
    intro b
    simp [ckOf_xor8]
  case cancel =>
    intro b bs
    rw [ckOf_xor8_cons_cons, BitVec.xor_self]
    exact ckOf_xor8_zero_cons bs
  case undetected =>
    intro x a b bs
    have hxor : (a ^^^ x) ^^^ (b ^^^ x) = a ^^^ b := by
      rw [BitVec.xor_assoc, BitVec.xor_comm b, ← BitVec.xor_assoc x, BitVec.xor_self, BitVec.zero_xor]
    rw [ckOf_xor8_cons_cons, hxor, ← ckOf_xor8_cons_cons]
  case zeros =>
    intro n bs
    induction n with
    | zero => rfl
    | succ n ih => rw [List.replicate_succ, List.cons_append, ckOf_crc16_zero_cons, ih]

/-! ## A changed byte -/

/-- Words inside the low `n` bits agree when those bits do. -/
theorem eq_of_setWidth_eq_of_lt {n : Nat} {x y : Word} (hx : x.toNat < 2 ^ n) (hy : y.toNat < 2 ^ n)
    (h : x.setWidth n = y.setWidth n) : x = y := by
  apply BitVec.eq_of_toNat_eq
  have hmod := congrArg BitVec.toNat h
  rwa [BitVec.toNat_setWidth, BitVec.toNat_setWidth, Nat.mod_eq_of_lt hx, Nat.mod_eq_of_lt hy] at hmod

/-- Widening a value to a word loses nothing. -/
theorem setWidth_word_injective {n : Nat} (hn : n ≤ 32) :
    Function.Injective (BitVec.setWidth 32 : BitVec n → Word) := by
  intro x y h
  simpa [hn] using congrArg (BitVec.setWidth n) h

/-- One byte keeps different accumulators apart (R28 says that they fit). -/
theorem ckAdd_left_inj (m : CkMode) {acc acc' : Word} (h : acc.toNat < 2 ^ (8 * m.width))
    (h' : acc'.toNat < 2 ^ (8 * m.width)) (b : Byte) : ckAdd m acc b = ckAdd m acc' b ↔ acc = acc' := by
  refine ⟨fun heq => ?_, fun heq => by rw [heq]⟩
  cases m with
  | none => exact heq
  | xor8 =>
    have hlow := setWidth_word_injective (by decide) heq
    exact eq_of_setWidth_eq_of_lt h h' ((BitVec.xor_left_inj b).1 hlow)
  | crc16 =>
    have hlow := setWidth_word_injective (by decide) heq
    exact eq_of_setWidth_eq_of_lt h h' (crcAdd_left_injective P16_msb b hlow)
  | crc32 => exact crcAdd_left_injective P32_msb b heq

/-- Different bytes leave different accumulators, with every variant but NONE. -/
theorem ckAdd_right_injective {m : CkMode} (hm : m ≠ .none) (acc : Word) : Function.Injective (ckAdd m acc) := by
  intro b b' heq
  cases m with
  | none => exact absurd rfl hm
  | xor8 => exact (BitVec.xor_right_inj _).1 (setWidth_word_injective (by decide) heq)
  | crc16 => exact crcAdd_right_injective P16_msb (by decide) _ (setWidth_word_injective (by decide) heq)
  | crc32 => exact crcAdd_right_injective P32_msb (by decide) _ heq

/-- The final value tells accumulators apart. -/
theorem ckFinal_inj (m : CkMode) {acc acc' : Word} (h : acc.toNat < 2 ^ (8 * m.width))
    (h' : acc'.toNat < 2 ^ (8 * m.width)) : ckFinal m acc = ckFinal m acc' ↔ acc = acc' := by
  refine ⟨fun heq => ?_, fun heq => by rw [heq]⟩
  cases m with
  | none => exact eq_of_setWidth_eq_of_lt h h' (Subsingleton.elim (α := BitVec 0) _ _)
  | xor8 =>
    have hlow := setWidth_word_injective (by decide) heq
    exact eq_of_setWidth_eq_of_lt h h' (BitVec.not_inj.1 hlow)
  | crc16 => exact eq_of_setWidth_eq_of_lt h h' (setWidth_word_injective (by decide) heq)
  | crc32 => exact BitVec.not_inj.1 heq

/-- The same bytes keep different accumulators apart. -/
theorem ckFold_inj (m : CkMode) {acc acc' : Word} (h : acc.toNat < 2 ^ (8 * m.width))
    (h' : acc'.toNat < 2 ^ (8 * m.width)) (bs : List Byte) :
    bs.foldl (ckAdd m) acc = bs.foldl (ckAdd m) acc' ↔ acc = acc' := by
  induction bs generalizing acc acc' with
  | nil => rfl
  | cons b bs ih => exact (ih (ckAdd_lt m h b) (ckAdd_lt m h' b)).trans (ckAdd_left_inj m h h' b)

/-- Settles O30: the accumulators part at the changed byte, and neither the bytes behind it nor the final value
bring them together. -/
theorem singleByteChangeIsDetected : Obligations.SingleByteChangeIsDetected := by
  intro m xs ys b b' hm hb heq
  have hpre := ckFold_lt m (ckReset_lt m) xs
  have hb₁ := ckAdd_lt m hpre b
  have hb₂ := ckAdd_lt m hpre b'
  rw [ckOf, ckOf, List.foldl_append, List.foldl_append, List.foldl_cons, List.foldl_cons,
    ckFinal_inj m (ckFold_lt m hb₁ ys) (ckFold_lt m hb₂ ys), ckFold_inj m hb₁ hb₂] at heq
  exact hb (ckAdd_right_injective hm _ heq)

/-! ## The check values -/

/-- Settles O28, by evaluation. -/
theorem checksumCheckValues : Obligations.ChecksumCheckValues := by
  unfold Obligations.ChecksumCheckValues
  decide

end Sys2Proof
end

section
/-! PROOFS. The commands on the composer's buffers (41_composer.md R151, R152): TXP_WR and TXB_RD, inside the
buffer and outside it. -/

namespace Sys2Proof.Machine

/-- An index outside TXP (R151, R262). -/
theorem exec_txpWr_of_ge {s : State} (hc : s.cfg.wf = true) {i : Addr} (hi : s.cfg.maxPayload ≤ i.toNat)
    (b : Byte) : exec (.txpWr i b) s = raise s .badAddr := by
  have hout : indexOk s.cfg .txp i = false := decide_eq_false (Nat.not_lt.2 hi)
  simp [exec, execTxpWr, hc, hout]

/-- Settles O22: inside the buffer TXP_WR is one memory write, which a canonical TXP reads back. -/
theorem txpWrWritesOneByte : Obligations.TxpWrWritesOneByte := by
  intro i b s hs
  have hc := hs.configWf
  have hwf := hs.composer.txpWithin.1
  refine ⟨decodeOfEncodeIsTheCommand (.txpWr i b), fun hi => exec_txpWr_of_ge hc hi b, fun hi => ?_⟩
  exact ⟨s.composer.txp.write i.toNat b, txpWr_actsOnComposer_of_lt hc hi b s.idgen s.composer s rfl rfl rfl,
    Memory.read_write_same hwf i.toNat b, fun a ha => Memory.read_write_other hwf b ha⟩

/-- A host's read inside the buffer (R152, R203). -/
theorem readByteCommand_of_lt (s : State) {sp : Space} (m : Memory) {i : Addr} (hi : i.toNat < sp.size s.cfg) :
    readByteCommand s sp m i = finish s (BitVec.ofNat 32 (m.read i.toNat).toNat) := by
  simp [readByteCommand, indexOk, hi]

/-- A host's read outside the buffer (R152, R203, R262). -/
theorem readByteCommand_of_ge (s : State) {sp : Space} (m : Memory) {i : Addr} (hi : sp.size s.cfg ≤ i.toNat) :
    readByteCommand s sp m i = raise s .badAddr := by
  simp [readByteCommand, indexOk, Nat.not_lt.2 hi]

/-- Settles O23: TXB_RD is a host's read of TXBUF, whose size is MAX_PAYLOAD + OVERHEAD_BYTES. -/
theorem txbRdReadsTheStagingBuffer : Obligations.TxbRdReadsTheStagingBuffer := by
  intro i s hc
  have hread : exec (.txbRd i) s = readByteCommand s .txbuf s.composer.txbuf i := whenConfigured_of_wf hc _
  refine ⟨decodeOfEncodeIsTheCommand (.txbRd i), fun hi => ?outside, fun hi => ?inside⟩
  case outside => exact hread.trans (readByteCommand_of_ge s _ hi)
  case inside => exact hread.trans (readByteCommand_of_lt s _ hi)

end Sys2Proof.Machine
end

section
/-! PROOFS. The ID generator (41_composer.md R141-R143): the counter, the peer bit and the period. -/

namespace Sys2Proof.Machine

/-- The ID field is no wider than its 32-bit container, so the counter's modulus divides the container's (R6,
log 10). -/
theorem two_pow_idBits_dvd {c : Config} (hc : c.wf = true) : 2 ^ c.idBits ∣ 2 ^ 32 := by
  have hid := (Config.ranges hc).idw
  apply Nat.pow_dvd_pow
  unfold Config.idBits
  omega

/-- NEXT_ID counts modulo 2^IDB: the container's own wrap does not show (R142). -/
theorem advance_nextId_toNat {c : Config} (hc : c.wf = true) (g : IdGen) :
    (g.advance c).nextId.toNat = (g.nextId.toNat + 1) % 2 ^ c.idBits := by
  rw [advance_nextId, trunc_toNat, BitVec.toNat_add, Nat.mod_mod_of_dvd _ (two_pow_idBits_dvd hc)]
  rfl

theorem iterate_advance_peer (c : Config) (g : IdGen) (n : Nat) : ((IdGen.advance c)^[n] g).peer = g.peer := by
  induction n with
  | zero => rfl
  | succ n ih => rw [Function.iterate_succ_apply', advance_peer, ih]

theorem iterate_advance_nextId_toNat {c : Config} (hc : c.wf = true) {g : IdGen} (hg : Fits c.idBits g.nextId)
    (n : Nat) : ((IdGen.advance c)^[n] g).nextId.toNat = (g.nextId.toNat + n) % 2 ^ c.idBits := by
  induction n with
  | zero => exact (Nat.mod_eq_of_lt hg).symm
  | succ n ih => rw [Function.iterate_succ_apply', advance_nextId_toNat hc, ih, Nat.mod_add_mod, Nat.add_assoc]

/-- Below the peer bit a generated ID is the counter's low bits (R141, R142). -/
theorem generatedId_toNat_mod {c : Config} (hc : c.wf = true) (g : IdGen) :
    (generatedId c g).toNat % 2 ^ (c.idBits - 1) = g.nextId.toNat % 2 ^ (c.idBits - 1) := by
  rw [generatedId_toNat hc]
  cases g.peer <;> simp

/-- Bit IDB-1 of a generated ID is PEER (R143). -/
theorem generatedId_getLsbD_peer {c : Config} (hc : c.wf = true) (g : IdGen) :
    (generatedId c g).getLsbD (c.idBits - 1) = g.peer := by
  have hlow : g.nextId.toNat % 2 ^ (c.idBits - 1) < 2 ^ (c.idBits - 1) := Nat.mod_lt _ (Nat.two_pow_pos _)
  rw [BitVec.getLsbD, generatedId_toNat hc]
  cases g.peer with
  | false => exact Nat.testBit_lt_two_pow hlow
  | true =>
    rw [if_pos rfl, Nat.add_comm, Nat.testBit_two_pow_add_eq, Nat.testBit_lt_two_pow hlow]
    rfl

/-- The generator shows PEER and the counter's low IDB-1 bits, and nothing else (R141). -/
theorem generatedId_congr {c : Config} (hc : c.wf = true) {g g' : IdGen} (hpeer : g.peer = g'.peer)
    (hlow : g.nextId.toNat % 2 ^ (c.idBits - 1) = g'.nextId.toNat % 2 ^ (c.idBits - 1)) :
    generatedId c g = generatedId c g' := by
  apply BitVec.eq_of_toNat_eq
  rw [generatedId_toNat hc, generatedId_toNat hc, hpeer, hlow]

/-- Settles O36: 2^(IDB-1) calls add to NEXT_ID what its low IDB-1 bits, all that the generator shows of it, do
not see. -/
theorem generatedIdsRepeatWithTheirPeriod : Obligations.GeneratedIdsRepeatWithTheirPeriod := by
  intro c g n hc hg
  refine ⟨iterate_advance_nextId_toNat hc hg n, generatedId_toNat_mod hc g, ?period⟩
  refine generatedId_congr hc (iterate_advance_peer c g _) ?_
  have hdvd : 2 ^ (c.idBits - 1) ∣ 2 ^ c.idBits := Nat.pow_dvd_pow 2 (Nat.sub_le _ _)
  rw [iterate_advance_nextId_toNat hc hg, Nat.mod_mod_of_dvd _ hdvd]
  exact Nat.add_mod_right _ _

end Sys2Proof.Machine
end

section
/-! PROOFS. COMPOSE (41_composer.md R143-R148): the failed one, the ID that the frame carries, and the frame in
the staging buffer. -/

namespace Sys2Proof.Machine

/-- Settles O32: the length check comes before everything else, for either form of ID. -/
theorem composeTooLargeChangesNothing : Obligations.ComposeTooLargeChangesNothing :=
  fun e _ hc hlen => execCompose_of_too_large hc hlen e

/-! ## The ID -/

/-- The resolved ID fits its field, so TX_LAST_ID holds it whole (R38, R146). -/
theorem resolveId_fits {s : State} (hs : s.Inv) (e : Bool) : Fits s.cfg.idBits (resolveId e s).1 := by
  cases e with
  | true => exact hs.composer.txIdFits
  | false => exact generatedId_lt hs.configWf s.idgen

theorem composed_txLastId {s : State} {e : Bool} (hid : Fits s.cfg.idBits (resolveId e s).1) :
    (composed e s).composer.txLastId = (resolveId e s).1 := trunc_of_lt hid

/-- Settles O34: TX_LAST_ID is the resolved ID, which is TX_ID or the generator's number. -/
theorem composeResolvesTheId : Obligations.ComposeResolvesTheId := by
  intro s hs hlen
  have hc := hs.configWf
  refine ⟨⟨_, execCompose_of_fits hc hlen true, composed_txLastId (resolveId_fits hs true), rfl⟩,
    ⟨_, execCompose_of_fits hc hlen false, ?lastId, advance_nextId_toNat hc s.idgen, rfl⟩⟩
  case lastId =>
    rw [respond_composer, composed_txLastId (resolveId_fits hs false)]
    exact generatedId_toNat hc s.idgen

/-- A COMPOSE 0 that succeeds leaves the generated ID in TX_LAST_ID (R141, R148). -/
theorem txLastId_of_exec_compose_false {s t : State} (hlen : s.composer.txLen.toNat ≤ s.cfg.maxPayload)
    (h : exec (.compose false) s = .next t) : t.composer.txLastId = generatedId s.cfg s.idgen := by
  obtain ⟨hc, ⟨hlarge, -⟩ | ⟨-, rfl⟩⟩ := execCompose_next h
  · omega
  · exact composed_txLastId (e := false) (generatedId_lt hc s.idgen)

/-- Settles O35: equal IDs would agree in bit IDB-1, which is the PEER of either block. -/
theorem generatedIdsArePartitionedByPeer : Obligations.GeneratedIdsArePartitionedByPeer := by
  intro s t s' t' hc hc' hidw hlen hlen' h h'
  have hbit : t.composer.txLastId.getLsbD (8 * s.cfg.idw - 1) = s.idgen.peer := by
    rw [txLastId_of_exec_compose_false hlen h]
    exact generatedId_getLsbD_peer hc s.idgen
  have hbit' : t'.composer.txLastId.getLsbD (8 * s.cfg.idw - 1) = s'.idgen.peer := by
    rw [txLastId_of_exec_compose_false hlen' h', ← hidw]
    exact generatedId_getLsbD_peer hc' s'.idgen
  exact ⟨hbit, fun hpeer hid => hpeer (by rw [← hbit, ← hbit', hid])⟩

/-! ## The frame -/

/-- A checksum field is present unless CK_MODE is NONE (R96). -/
theorem ckField_eq (c : Config) (bs : List Byte) :
    ckField c bs = if c.ckMode = .none then [] else beBytes c.ckw (ckOf c.ckMode bs) := by
  split
  · rename_i hnone
    rw [ckField, c.ckw_eq_zero.2 hnone, beBytes_zero]
  · rfl

/-- The part of the frame behind the payload: present with a checksum and a payload (R96, R147). -/
theorem payloadCk_eq (c : Config) (payload : List Byte) :
    (if payload = [] then [] else ckField c payload) =
      if c.ckMode ≠ .none ∧ 0 < payload.length then beBytes c.ckw (ckOf c.ckMode payload) else [] := by
  cases payload with
  | nil => simp
  | cons b bs => simp [ckField_eq]

/-- The frame that COMPOSE puts together in this state (R147). -/
def composedFrame (e : Bool) (s : State) : List Byte :=
  serialize s.cfg (resolveId e s).1 s.composer.txLen s.composer.txType
    (s.composer.txp.readRun 0 s.composer.txLen.toNat)

theorem composedFrame_length (e : Bool) (s : State) :
    (composedFrame e s).length = s.cfg.frameLen s.composer.txLen.toNat := by
  simp [composedFrame]

theorem composed_txbuf (e : Bool) (s : State) :
    (composed e s).composer.txbuf = s.composer.txbuf.writeRun 0 (composedFrame e s) := rfl

/-- The staging buffer's bytes are the frame's, below its length (R147). -/
theorem composed_txbuf_read_of_lt {s : State} (h : s.composer.txbuf.wf = true) (e : Bool) {k : Nat}
    (hk : k < (composedFrame e s).length) :
    (composedFrame e s)[k]? = some ((composed e s).composer.txbuf.read k) := by
  rw [composed_txbuf, Memory.read_writeRun h]
  simp [hk]

/-- The staging buffer keeps its bytes from the frame's length on (R147). -/
theorem composed_txbuf_read_of_ge {s : State} (h : s.composer.txbuf.wf = true) (e : Bool) {k : Nat}
    (hk : (composedFrame e s).length ≤ k) :
    (composed e s).composer.txbuf.read k = s.composer.txbuf.read k := by
  rw [composed_txbuf, Memory.read_writeRun h, if_neg (by omega)]

/-- Settles O33: the frame is `composedFrame`, whose length field holds TX_LEN whole, and a successful COMPOSE
leaves `composed`. -/
theorem composeWritesTheFrame : Obligations.ComposeWritesTheFrame := by
  intro e s hs hlen
  have hc := hs.configWf
  have hwf := hs.composer.txbufWithin.1
  have hfit := s.cfg.frameLen_le_txbufSize hlen
  have hn := composedFrame_length e s
  refine ⟨_, headerBytes s.cfg (resolveId e s).1 s.composer.txLen s.composer.txType,
    s.composer.txp.readRun 0 s.composer.txLen.toNat, composedFrame e s, (resolveId e s).1,
    execCompose_of_fits hc hlen e, ?id, ?hdr, Memory.readRun_length _ _ _, ?payload, ?out, hn, ?fits,
    fun _ => composed_txbuf_read_of_lt hwf e, fun _ => composed_txbuf_read_of_ge hwf e, ?composer, ?idgen,
    rfl, rfl, ?port⟩
  case id => cases e <;> rfl
  case hdr => rw [headerBytes, trunc_of_lt (len_fits hc hlen)]
  case payload =>
    intro j hj
    rw [Memory.readRun_length] at hj
    rw [Memory.readRun_getElem?, if_pos hj, Nat.zero_add]
  case out => rw [composedFrame, serialize, ckField_eq, payloadCk_eq]
  case fits => exact hn.trans_le hfit
  case composer => rw [hn]; rfl
  case idgen => cases e <;> rfl
  case port => rw [hn]; rfl

end Sys2Proof.Machine
end

section
/-! PROOFS. Byte order (00_scope.md R16, 42_parser.md R185): what a field holds after the bytes it takes, and the
composer's bytes of a value. -/

namespace Sys2Proof

/-- The next byte of a big-endian number (R16). -/
def appendByte (v : Nat) (b : Byte) : Nat := v * 256 + b.toNat

/-- Bytes behind a number: it moves up by their count. -/
theorem foldl_appendByte (v : Nat) (bs : List Byte) :
    bs.foldl appendByte v = v * 256 ^ bs.length + bs.foldl appendByte 0 := by
  induction bs using List.reverseRecOn with
  | nil => simp
  | append_singleton bs b ih =>
    simp only [List.foldl_concat, List.length_append, List.length_singleton, appendByte] at ih ⊢
    rw [ih]
    ring

theorem foldl_appendByte_lt (bs : List Byte) : bs.foldl appendByte 0 < 256 ^ bs.length := by
  induction bs using List.reverseRecOn with
  | nil => simp
  | append_singleton bs b ih =>
    have hb := b.isLt
    simp only [List.foldl_concat, List.length_append, List.length_singleton, appendByte, Nat.pow_succ]
    omega

/-- Byte lists of one length are the same when they are the same number. -/
theorem eq_of_foldl_appendByte_eq {xs ys : List Byte} (hlen : xs.length = ys.length)
    (h : xs.foldl appendByte 0 = ys.foldl appendByte 0) : xs = ys := by
  induction xs using List.reverseRecOn generalizing ys with
  | nil => exact (List.length_eq_zero_iff.1 hlen.symm).symm
  | append_singleton xs x ih =>
    cases ys using List.reverseRecOn with
    | nil => simp at hlen
    | append_singleton ys y =>
      have hx := x.isLt
      have hy := y.isLt
      simp only [List.foldl_concat, appendByte] at h
      have hlast : x = y := BitVec.eq_of_toNat_eq (by omega)
      rw [ih (by simpa using hlen) (by omega), hlast]

/-- Modulo its width a field takes bytes as a number does, whatever it held before (R16). -/
theorem foldl_shiftIn_modEq {n : Nat} (hn : n ≤ 4) (acc : Word) (bs : List Byte) :
    (bs.foldl (shiftIn n) acc).toNat ≡ bs.foldl appendByte acc.toNat [MOD 2 ^ (8 * n)] := by
  induction bs using List.reverseRecOn with
  | nil => rfl
  | append_singleton bs b ih =>
    rw [List.foldl_concat, List.foldl_concat, shiftIn_toNat hn]
    exact (Nat.mod_modEq _ _).trans ((ih.mul_right 256).add_right _)

theorem foldl_shiftIn_lt {n : Nat} {acc : Word} {bs : List Byte} (hbs : bs ≠ []) :
    (bs.foldl (shiftIn n) acc).toNat < 2 ^ (8 * n) := by
  cases bs using List.reverseRecOn with
  | nil => exact absurd rfl hbs
  | append_singleton bs b =>
    rw [List.foldl_concat]
    exact shiftIn_lt n _ b

/-- A field that has taken as many bytes as it has holds their number and nothing of what it held before
(R185). -/
theorem foldl_shiftIn_toNat {n : Nat} (hpos : 1 ≤ n) (hn : n ≤ 4) (acc : Word) {bs : List Byte}
    (hlen : bs.length = n) : (bs.foldl (shiftIn n) acc).toNat = bs.foldl appendByte 0 := by
  have hwidth : 2 ^ (8 * n) = 256 ^ bs.length := by rw [hlen, Nat.pow_mul]
  have hmod := foldl_shiftIn_modEq hn acc bs
  have hfield : (bs.foldl (shiftIn n) acc).toNat < 2 ^ (8 * n) :=
    foldl_shiftIn_lt (by rintro rfl; simp at hlen; omega)
  rw [foldl_appendByte, hwidth] at hmod
  rw [hwidth] at hfield
  refine Nat.ModEq.eq_of_lt_of_lt (hmod.trans ?_) hfield (foldl_appendByte_lt bs)
  exact Nat.mul_add_mod_self_right _ _ _

/-- The composer's bytes of a value are the value's low bytes as a big-endian number (R16). -/
theorem foldl_appendByte_beBytes (n : Nat) (v : Word) :
    (beBytes n v).foldl appendByte 0 = v.toNat % 2 ^ (8 * n) := by
  induction n with
  | zero => simp [Nat.mod_one]
  | succ n ih =>
    have hbyte : ((v >>> (8 * n)).setWidth 8).toNat = v.toNat / 2 ^ (8 * n) % 2 ^ 8 := by
      simp [Nat.shiftRight_eq_div_pow]
    have hwidth : 256 ^ n = 2 ^ (8 * n) := (Nat.pow_mul 2 8 n).symm
    rw [beBytes, List.foldl_cons, foldl_appendByte, ih, beBytes_length, appendByte, hbyte, hwidth,
      Nat.mul_add_one 8 n, Nat.pow_add, Nat.mod_mul]
    ring

/-- Settles O31: both directions read the bytes with `appendByte`. -/
theorem fieldsAreBigEndian : Obligations.FieldsAreBigEndian := by
  intro n hpos hn
  exact ⟨fun acc bs hlen => foldl_shiftIn_toNat hpos hn acc hlen,
    fun v => ⟨beBytes_length n v, foldl_appendByte_beBytes n v⟩⟩

/-- A field takes the composer's bytes of a value back to the value, at the field's width (R185). -/
theorem foldl_shiftIn_beBytes {n : Nat} (hpos : 1 ≤ n) (hn : n ≤ 4) (acc v : Word) :
    (beBytes n v).foldl (shiftIn n) acc = trunc (8 * n) v := by
  apply BitVec.eq_of_toNat_eq
  rw [foldl_shiftIn_toNat hpos hn acc (beBytes_length n v), foldl_appendByte_beBytes, trunc_toNat]

/-- A field that has taken different bytes holds a different value. -/
theorem foldl_shiftIn_inj {n : Nat} (hpos : 1 ≤ n) (hn : n ≤ 4) {acc acc' : Word} {xs ys : List Byte}
    (hx : xs.length = n) (hy : ys.length = n) :
    xs.foldl (shiftIn n) acc = ys.foldl (shiftIn n) acc' ↔ xs = ys := by
  refine ⟨fun h => ?_, ?_⟩
  · have hnum := congrArg BitVec.toNat h
    rw [foldl_shiftIn_toNat hpos hn acc hx, foldl_shiftIn_toNat hpos hn acc' hy] at hnum
    exact eq_of_foldl_appendByte_eq (hx.trans hy.symm) hnum
  · rintro rfl
    apply BitVec.eq_of_toNat_eq
    rw [foldl_shiftIn_toNat hpos hn acc hx, foldl_shiftIn_toNat hpos hn acc' hx]

end Sys2Proof
end

section
/-! PROOFS. The state steps as equations (42_parser.md R184, R190-R197): a byte is taken into the session and, at its
field's width, the field ends. -/

namespace Sys2Proof.Machine

/-- ID takes a byte (R191). -/
def takeId (c : Config) (p : Parser) (b : Byte) : Parser :=
  { p with rxCk := ckAdd c.ckMode p.rxCk b, rxId := shiftIn c.idw p.rxId b, rxi := p.rxi + 1 }

/-- LEN takes a byte (R192). -/
def takeLen (c : Config) (p : Parser) (b : Byte) : Parser :=
  { p with rxCk := ckAdd c.ckMode p.rxCk b, rxLen := shiftIn c.lenw p.rxLen b, rxi := p.rxi + 1 }

/-- TYPE takes a byte (R193). -/
def takeType (c : Config) (p : Parser) (b : Byte) : Parser :=
  { p with rxCk := ckAdd c.ckMode p.rxCk b, rxType := shiftIn c.typew p.rxType b, rxi := p.rxi + 1 }

/-- HEAD_CKSUM and DATA_CKSUM take a byte (R194, R196). -/
def takeRef (c : Config) (p : Parser) (b : Byte) : Parser :=
  { p with rxRef := shiftIn c.ckw p.rxRef b, rxi := p.rxi + 1 }

/-- DATA takes a byte, or only counts it while discarding (R195). -/
def takeData (c : Config) (p : Parser) (b : Byte) : Parser :=
  { p with
    rxCk := if p.discard then p.rxCk else ckAdd c.ckMode p.rxCk b
    rxbuf := if p.discard then p.rxbuf else p.rxbuf.write p.rxi.toNat b
    rxi := p.rxi + 1 }

/-- The next state of a session whose field is complete. -/
def Parser.goTo (p : Parser) (st : PState) : Parser := { p with pstate := st, rxi := 0 }

section
variable {c : Config} {p : Parser}

theorem stepByte_sof (hs : p.pstate = .sof) (b : Byte) : stepByte c b p =
    if b = c.sofVal then .ok (beginFrame c p, none) else .ok (p, none) := by
  simp only [stepByte, hs, stepSof]

theorem stepByte_id (hs : p.pstate = .id) (b : Byte) : stepByte c b p =
    if (takeId c p b).rxi.toNat = c.idw then .ok ((takeId c p b).goTo .len, none)
    else .ok (takeId c p b, none) := by
  simp only [stepByte, hs, stepId, takeId, Parser.goTo]

theorem stepByte_len (hs : p.pstate = .len) (b : Byte) : stepByte c b p =
    if (takeLen c p b).rxi.toNat = c.lenw then .ok ((takeLen c p b).goTo .type, none)
    else .ok (takeLen c p b, none) := by
  simp only [stepByte, hs, stepLen, takeLen, Parser.goTo]

/-- The end of TYPE (R193, R184). -/
def endType (c : Config) (p : Parser) : ParserResult :=
  if c.ckMode = .none then enterData c p else .ok ({ p.goTo .headCksum with rxRef := 0 }, none)

theorem stepByte_type (hs : p.pstate = .type) (b : Byte) : stepByte c b p =
    if (takeType c p b).rxi.toNat = c.typew then endType c (takeType c p b)
    else .ok (takeType c p b, none) := by
  simp only [stepByte, hs, stepType, takeType, endType, Parser.goTo]

/-- The end of HEAD_CKSUM (R194). -/
def endHead (c : Config) (p : Parser) : ParserResult :=
  if ckMatches c p then enterData c p else .ok (parserReset c p, none)

theorem stepByte_headCksum (hs : p.pstate = .headCksum) (b : Byte) : stepByte c b p =
    if (takeRef c p b).rxi.toNat = c.ckw then endHead c (takeRef c p b)
    else .ok (takeRef c p b, none) := by
  simp only [stepByte, hs, stepHead, takeRef, endHead]

/-- The end of DATA_CKSUM (R196). -/
def endDck (c : Config) (p : Parser) : ParserResult := endFrame c p (!p.discard && ckMatches c p)

theorem stepByte_dataCksum (hs : p.pstate = .dataCksum) (b : Byte) : stepByte c b p =
    if (takeRef c p b).rxi.toNat = c.ckw then endDck c (takeRef c p b)
    else .ok (takeRef c p b, none) := by
  simp only [stepByte, hs, stepDck, takeRef, endDck]

/-- The end of DATA (R195). -/
def endData (c : Config) (p : Parser) : ParserResult :=
  if c.ckMode = .none then endFrame c p (!p.discard)
  else .ok ({ p.goTo .dataCksum with rxRef := 0 }, none)

/-- With the store index inside RXBUF, or discarding, the payload byte is taken without a fault (R195, R208). -/
theorem takePayload_of_room (hroom : p.discard = false → p.rxi.toNat < c.maxPayload) (b : Byte) :
    takePayload c b p = .ok { p with
      rxCk := if p.discard then p.rxCk else ckAdd c.ckMode p.rxCk b
      rxbuf := if p.discard then p.rxbuf else p.rxbuf.write p.rxi.toNat b } := by
  rw [takePayload_ok]
  cases hd : p.discard with
  | true => exact .inl ⟨rfl, by simp [← hd]⟩
  | false => exact .inr ⟨rfl, hroom hd, by simp [← hd]⟩

theorem stepByte_data (hs : p.pstate = .data) (hroom : p.discard = false → p.rxi.toNat < c.maxPayload)
    (b : Byte) : stepByte c b p =
      if (takeData c p b).rxi = p.rxLen then endData c (takeData c p b) else .ok (takeData c p b, none) := by
  have hstep : stepByte c b p = stepData c b p := by simp only [stepByte, hs]
  rw [hstep, stepData, takePayload_of_room hroom]
  rfl

/-- An empty payload completes the frame (R184). -/
theorem enterData_of_empty (h : p.rxLen = 0) : enterData c p =
    .ok (parserReset c p, some { id := p.rxId, typ := p.rxType, len := 0, payload := [] }) := by
  rw [enterData, if_pos h]
  exact endFrame_ok.2 ⟨rfl, .inr ⟨rfl, by simp [h], by simp [h, Memory.readRun]⟩⟩

/-- Any other payload is collected, or discarded when it is too long (R184). -/
theorem enterData_of_nonempty (h : p.rxLen ≠ 0) : enterData c p =
    .ok ({ p.goTo .data with rxCk := ckReset c.ckMode, discard := decide (c.maxPayload < p.rxLen.toNat) }, none) :=
  if_neg h

end

end Sys2Proof.Machine
end

section
/-! PROOFS. The parser's three commands as single commands (42_parser.md R186-R188, R199-R203): what ACCEPT leaves
of the session in every state, TICK and RXB_RD. -/

namespace Sys2Proof.Machine

/-- Settles O24: RXB_RD is a host's read of RXBUF, whose size is MAX_PAYLOAD. -/
theorem rxbRdReadsThePayloadBuffer : Obligations.RxbRdReadsThePayloadBuffer := by
  intro i s hc
  have hread : exec (.rxbRd i) s = readByteCommand s .rxbuf s.parser.rxbuf i := whenConfigured_of_wf hc _
  exact ⟨decodeOfEncodeIsTheCommand (.rxbRd i), fun hi => hread.trans (readByteCommand_of_ge s _ hi),
    fun hi => hread.trans (readByteCommand_of_lt s _ hi)⟩

/-! ## TICK -/

/-- Below the threshold a TICK counts (R201). -/
theorem tick_of_running {c : Config} {p : Parser} (h : p.ticks.toNat < c.timeoutTicks) :
    p.tick c = { p with ticks := p.ticks + 1 } := by
  simp [Parser.tick, timedOut, h]

/-- At the threshold a TICK changes nothing (R201). -/
theorem tick_of_timedOut {c : Config} {p : Parser} (h : c.timeoutTicks ≤ p.ticks.toNat) : p.tick c = p := by
  simp [Parser.tick, timedOut, h]

/-- Below the threshold the counter does not wrap (R33). -/
theorem succ_ticks_toNat {c : Config} (hc : c.wf = true) {p : Parser} (h : p.ticks.toNat < c.timeoutTicks) :
    (p.ticks + 1).toNat = p.ticks.toNat + 1 := by
  have hbound := (Config.ranges hc).timeoutBound
  exact succ_toNat h (by omega)

/-- Settles O49: TICK leaves `Parser.tick` of the session, on either side of the threshold. -/
theorem tickIncrementsAndSaturates : Obligations.TickIncrementsAndSaturates := by
  intro s hc
  have htick := tick_actsOnParser hc s.parser s rfl rfl
  refine ⟨decodeOfEncodeIsTheCommand .tick, fun h => ?below, fun h => ?saturated⟩
  case below =>
    refine ⟨s.parser.ticks + 1, succ_ticks_toNat hc h, ?_⟩
    rwa [tick_of_running h] at htick
  case saturated => rwa [tick_of_timedOut h] at htick

/-! ## ACCEPT sees the session behind the timeout check -/

/-- Two sessions that the timeout check makes the same take a byte alike (R187). -/
theorem acceptByte_congr {c : Config} {p q : Parser} (h : clearIdle c p = clearIdle c q) (b : Byte) :
    acceptByte c b p = acceptByte c b q := by
  rw [acceptByte, acceptByte, beforeByte, beforeByte, h]

theorem exec_accept_congr {s : State} {p : Parser} (h : clearIdle s.cfg s.parser = clearIdle s.cfg p) (b : Byte) :
    exec (.accept b) s = exec (.accept b) { s with parser := p } := by
  show execAccept b s = execAccept b { s with parser := p }
  rw [execAccept, execAccept, acceptByte_congr h]
  rfl

/-- The reset session with TICKS 0 is what the timeout check makes of itself. -/
theorem clearIdle_parserReset (c : Config) (p : Parser) :
    clearIdle c { parserReset c p with ticks := 0 } = { parserReset c p with ticks := 0 } := by
  unfold clearIdle
  split <;> rfl

/-- Settles O39: the timeout check makes the two sessions the same. -/
theorem timeoutResetsBeforeTheByte : Obligations.TimeoutResetsBeforeTheByte := by
  intro b s
  refine ⟨fun h => exec_accept_congr ?running b, fun h => exec_accept_congr ?timedOut b⟩
  case running =>
    have hpos : (0 : Word).toNat < s.cfg.timeoutTicks := Nat.zero_lt_of_lt h
    rw [clearIdle_of_running h, clearIdle_of_running hpos]
  case timedOut =>
    rw [clearIdle_of_timedOut h]
    exact (clearIdle_parserReset s.cfg s.parser).symm

/-! ## What one byte can do to the session -/

/-- What every parser action that completes leaves: the idle counter `n`, the buffer `m`, and with an event the
idle session of R204 behind a frame as R206 and R209 say. -/
def Leaves (c : Config) (n : Word) (m : Memory) (r : ParserResult) : Prop :=
  ∀ q ev, r = .ok (q, ev) → q.ticks = n ∧ q.rxbuf = m ∧
    ∀ f, ev = some f → (q.pstate = .sof ∧ q.Idle c) ∧
      f.len.toNat ≤ c.maxPayload ∧ f.payload.length = f.len.toNat

theorem Leaves.ok {c : Config} (p : Parser) : Leaves c p.ticks p.rxbuf (.ok (p, none)) := by
  rintro q ev ⟨⟩
  exact ⟨rfl, rfl, by simp⟩

/-- The end of a frame (R197, R199). -/
theorem endFrame_leaves (c : Config) (p : Parser) (d : Bool) : Leaves c p.ticks p.rxbuf (endFrame c p d) := by
  intro q ev h
  obtain ⟨rfl, ⟨-, rfl⟩ | ⟨-, hlen, rfl⟩⟩ := endFrame_ok.1 h
  · exact ⟨rfl, rfl, by simp⟩
  · refine ⟨rfl, rfl, ?_⟩
    rintro f ⟨⟩
    exact ⟨⟨rfl, rfl, rfl, rfl, rfl, rfl, rfl, rfl⟩, hlen, by simp⟩

/-- The end of a header (R184). -/
theorem enterData_leaves (c : Config) (p : Parser) : Leaves c p.ticks p.rxbuf (enterData c p) := by
  unfold enterData
  split
  · exact endFrame_leaves c p true
  · exact .ok _

/-- RXBUF after a byte: the byte is stored in DATA with DISCARD = 0 and nowhere else (R195, R208). -/
def rxbufAfter (b : Byte) (p : Parser) : Memory :=
  if p.pstate = .data ∧ p.discard = false then p.rxbuf.write p.rxi.toNat b else p.rxbuf

theorem rxbufAfter_of_not_data {p : Parser} (h : p.pstate ≠ .data) (b : Byte) : rxbufAfter b p = p.rxbuf :=
  if_neg fun hdata => h hdata.1

/-- The payload byte touches RX_CK and RXBUF alone (R195). -/
theorem takePayload_eq {c : Config} {b : Byte} {p q : Parser} (hs : p.pstate = .data)
    (h : takePayload c b p = .ok q) : q = { p with rxCk := q.rxCk, rxbuf := rxbufAfter b p } := by
  obtain ⟨hd, rfl⟩ | ⟨hd, -, rfl⟩ := takePayload_ok.1 h
  · rw [rxbufAfter, if_neg (by simp [hd])]
  · rw [rxbufAfter, if_pos ⟨hs, hd⟩]

theorem stepData_leaves {c : Config} {b : Byte} {p : Parser} (hs : p.pstate = .data) :
    Leaves c p.ticks (rxbufAfter b p) (stepData c b p) := by
  unfold stepData
  cases h : takePayload c b p with
  | error f => rintro q ev ⟨⟩
  | ok q =>
    rw [takePayload_eq hs h]
    dsimp only
    split
    · split
      · exact endFrame_leaves _ _ _
      · exact .ok _
    · exact .ok _

/-- One state step (R186-R197). -/
theorem stepByte_leaves (c : Config) (b : Byte) (p : Parser) :
    Leaves c p.ticks (rxbufAfter b p) (stepByte c b p) := by
  by_cases hdata : p.pstate = .data
  · simpa only [stepByte, hdata] using stepData_leaves hdata
  rw [rxbufAfter_of_not_data hdata]
  cases hs : p.pstate with
  | data => exact absurd hs hdata
  | sof =>
    rw [stepByte_sof hs]
    split
    · exact .ok (beginFrame c p)
    · exact .ok p
  | id =>
    rw [stepByte_id hs]
    split
    · exact .ok ((takeId c p b).goTo .len)
    · exact .ok (takeId c p b)
  | len =>
    rw [stepByte_len hs]
    split
    · exact .ok ((takeLen c p b).goTo .type)
    · exact .ok (takeLen c p b)
  | type =>
    rw [stepByte_type hs, endType]
    split
    · split
      · exact enterData_leaves c (takeType c p b)
      · exact .ok { (takeType c p b).goTo .headCksum with rxRef := 0 }
    · exact .ok (takeType c p b)
  | headCksum =>
    rw [stepByte_headCksum hs, endHead]
    split
    · split
      · exact enterData_leaves c (takeRef c p b)
      · exact .ok (parserReset c (takeRef c p b))
    · exact .ok (takeRef c p b)
  | dataCksum =>
    rw [stepByte_dataCksum hs, endDck]
    split
    · exact endFrame_leaves c (takeRef c p b) _
    · exact .ok (takeRef c p b)

/-- ACCEPT's part in the parser (R186, R188). -/
theorem acceptByte_leaves (c : Config) (b : Byte) (p : Parser) :
    Leaves c 0 (rxbufAfter b (beforeByte c p)) (acceptByte c b p) := by
  rw [← beforeByte_ticks c p]
  exact stepByte_leaves c b (beforeByte c p)

/-- Settles O38: the invariant rules out every fault, and every state step keeps the cleared counter. -/
theorem acceptAlwaysAnswersOk : Obligations.AcceptAlwaysAnswersOk := by
  intro b s hs
  obtain ⟨q, ev, hq, -, -⟩ := acceptByte_good hs.configWf hs.parser b
  obtain ⟨hticks, -, -⟩ := acceptByte_leaves _ _ _ _ _ hq
  exact ⟨_, accept_actsOnParser hs.configWf hq s rfl rfl, by simp, by simpa using hticks, by simp, by simp,
    by simp, by simp⟩

/-- No effect of a command changes the configuration or the words still pending. -/
theorem Effect.cfg_pending {s u : State} {i : Instr} (h : Effect s i u) :
    u.cfg = s.cfg ∧ u.port.pending = s.port.pending := by
  cases h <;> simp [composed]

theorem exec_cfg_pending {i : Instr} {s t : State} (h : exec i s = .next t) :
    t.cfg = s.cfg ∧ t.port.pending = s.port.pending := by
  cases exec_answers h with
  | error => exact ⟨rfl, rfl⟩
  | ok he d => exact he.cfg_pending

/-- A command leaves the frame port as it was, or it is an ACCEPT whose parser action emits a frame (R199). -/
theorem exec_frames {i : Instr} {s t : State} (h : exec i s = .next t) :
    t.port.frames = s.port.frames ∨
      ∃ b f, i = .accept b ∧ acceptByte s.cfg b s.parser = .ok (t.parser, some f) ∧
        t.port.frames = s.port.frames ++ [{ index := s.port.responses.length, frame := f }] := by
  cases exec_answers h with
  | error => exact .inl rfl
  | ok he d =>
    cases he with
    | @accept b p ev hb =>
      cases ev with
      | none => exact .inl rfl
      | some f => exact .inr ⟨b, f, rfl, by simpa using hb, by simp⟩
    | _ => exact .inl rfl

/-- Settles O15: a parser action that emits has just reset the session. -/
theorem onlyAcceptEmitsAndAtMostOneFrame : Obligations.OnlyAcceptEmitsAndAtMostOneFrame := by
  intro i s t h
  obtain ⟨hcfg, hpending⟩ := exec_cfg_pending h
  refine ⟨hcfg, hpending, (exec_frames h).imp_right ?_⟩
  rintro ⟨b, f, rfl, hb, hframes⟩
  obtain ⟨-, -, hev⟩ := acceptByte_leaves _ _ _ _ _ hb
  obtain ⟨⟨hsof, hidle⟩, -⟩ := hev f rfl
  exact ⟨b, f, rfl, hframes, hsof, hcfg ▸ hidle⟩

/-- Settles O48: the new event is the one that ACCEPT's parser action emitted. -/
theorem noOversizedFrameIsDispatched : Obligations.NoOversizedFrameIsDispatched := by
  intro i s t e h hnew hold
  obtain hsame | ⟨b, f, -, hb, hframes⟩ := exec_frames h
  · exact absurd (hsame ▸ hnew) hold
  · obtain ⟨-, -, hev⟩ := acceptByte_leaves _ _ _ _ _ hb
    rw [hframes, List.mem_append, List.mem_singleton] at hnew
    obtain rfl := hnew.resolve_left hold
    exact (hev f rfl).2

/-- A session in SOF stays there, or begins a frame (R189). -/
theorem openFrame_pstate_of_sof (c : Config) {p : Parser} (h : p.pstate = .sof) :
    (openFrame c p).pstate = .sof ∨ (openFrame c p).pstate = .id := by
  unfold openFrame
  split
  · exact .inr rfl
  · exact .inl h

/-- Behind the timeout check and the opening of a frame the session is in SOF or ID, or it is the running
frame as it was (R187, R189). -/
theorem beforeByte_cases (c : Config) (p : Parser) :
    ((beforeByte c p).pstate = .sof ∨ (beforeByte c p).pstate = .id) ∨
      p.ticks.toNat < c.timeoutTicks ∧ beforeByte c p = { p with ticks := 0 } := by
  by_cases ht : p.ticks.toNat < c.timeoutTicks
  · by_cases hs : p.pstate = .sof
    · rw [beforeByte, clearIdle_of_running ht]
      exact .inl (openFrame_pstate_of_sof c (p := { p with ticks := 0 }) hs)
    · exact .inr ⟨ht, beforeByte_of_running ht hs⟩
  · rw [beforeByte, clearIdle_of_timedOut (Nat.not_lt.1 ht)]
    exact .inl (openFrame_pstate_of_sof c (p := { parserReset c p with ticks := 0 }) rfl)

/-- RXI is below the bound of the state that the session is in (R205 (a), (b)). -/
theorem rxi_lt_of_pstate {c : Config} {p : Parser} (h : p.Inv c) {st : PState} (hs : p.pstate = st) :
    p.rxi.toNat < Parser.rxiBound c { p with pstate := st } := by
  subst hs
  exact h.rxiBelow

/-- In DATA with DISCARD = 0 the store index is inside RXBUF (R205 (c), R208). -/
theorem rxi_lt_maxPayload {c : Config} {p : Parser} (h : p.Inv c) (hs : p.pstate = .data)
    (hd : p.discard = false) : p.rxLen.toNat ≤ c.maxPayload ∧ p.rxi.toNat < c.maxPayload := by
  have hlen := h.discardInPayload (.inl hs)
  have hrxi : p.rxi.toNat < p.rxLen.toNat := rxi_lt_of_pstate h hs
  rw [hd] at hlen
  have hlen : p.rxLen.toNat ≤ c.maxPayload := by simpa using hlen.symm
  omega

/-- ACCEPT stores its byte in a running DATA state with DISCARD = 0, and nowhere else (R195, R208). -/
theorem rxbufAfter_beforeByte (c : Config) (b : Byte) (p : Parser) :
    (p.ticks.toNat < c.timeoutTicks ∧ p.pstate = .data ∧ p.discard = false ∧
      rxbufAfter b (beforeByte c p) = p.rxbuf.write p.rxi.toNat b) ∨
    rxbufAfter b (beforeByte c p) = p.rxbuf := by
  obtain hearly | ⟨ht, hbefore⟩ := beforeByte_cases c p
  · have hdata : (beforeByte c p).pstate ≠ .data := by rcases hearly with h | h <;> simp [h]
    exact .inr ((rxbufAfter_of_not_data hdata b).trans (beforeByte_rxbuf c p))
  · rw [hbefore]
    by_cases hstore : p.pstate = .data ∧ p.discard = false
    · exact .inl ⟨ht, hstore.1, hstore.2, if_pos hstore⟩
    · exact .inr (if_neg hstore)

/-- Settles O47: the other commands leave the session, or TICKS alone, and ACCEPT's one write is that of R195. -/
theorem rxbufWritesStayInside : Obligations.RxbufWritesStayInside := by
  intro i s t a hs h hinit hne
  cases exec_answers h with
  | error => exact absurd rfl hne
  | ok he d =>
    cases he with
    | init p => exact absurd rfl (hinit p)
    | tick =>
      rw [respond_parser, tick_eq] at hne
      exact absurd rfl hne
    | @accept b p ev hb =>
      obtain ⟨-, hbuf, -⟩ := acceptByte_leaves _ _ _ _ _ hb
      rw [respond_parser, emit_parser] at hne ⊢
      obtain ⟨ht, hdata, hd, hwrite⟩ | hsame := rxbufAfter_beforeByte s.cfg b s.parser
      · obtain ⟨-, hrxi⟩ := rxi_lt_maxPayload hs.parser hdata hd
        rw [hbuf, hwrite, Memory.read_write hs.parser.rxbufWithin.1] at hne ⊢
        by_cases ha : a = s.parser.rxi.toNat
        · exact ⟨ha ▸ hrxi, ha, hdata, hd, ht, b, rfl, if_pos ha⟩
        · exact absurd (if_neg ha) hne
      · rw [hbuf, hsame] at hne
        exact absurd rfl hne
    | _ => exact absurd rfl hne

/-! ## Reachable states -/

/-- A step keeps the configuration. -/
theorem step_cfg {s t : State} (h : step s = .next t) : t.cfg = s.cfg := by
  obtain ⟨-, hstep⟩ | ⟨w, rest, -, ⟨i, -, hstep⟩ | ⟨r, -, hstep⟩⟩ := step_cases s
  · cases (whenConfigured_next (hstep.symm.trans h)).2
    rfl
  · exact (exec_cfg_pending (hstep.symm.trans h)).1
  · cases (whenConfigured_next (hstep.symm.trans h)).2
    rfl

/-- The states of a host's run are states of the invariant. -/
theorem Reachable.inv {c : Config} (hc : c.wf = true) {s : State} (h : Reachable c s) : s.Inv ∧ s.cfg = c := by
  induction h with
  | reset => exact ⟨resetWith_inv hc, rfl⟩
  | issue ws _ ih => exact ⟨ih.1.withPending ws, ih.2⟩
  | step _ hstep ih => exact ⟨stepKeepsTheInvariant _ _ ih.1 hstep, (step_cfg hstep).trans ih.2⟩

/-- Settles O12: the rules are clauses of the parser's invariant. -/
theorem reachableStatesMeetTheParserRules : Obligations.ReachableStatesMeetTheParserRules := by
  intro c s hc hr
  obtain ⟨hs, rfl⟩ := hr.inv hc
  have hp := hs.parser
  have hrxi := fun st => rxi_lt_of_pstate hp (st := st)
  refine ⟨hp.idle, hrxi .id, hrxi .len, hrxi .type, ?cksum, ?data, rxi_lt_maxPayload hp, ?discard, ?none,
    ?code⟩
  case cksum => exact fun h => h.elim (hrxi .headCksum) (hrxi .dataCksum)
  case data =>
    intro h
    have hlt : s.parser.rxi.toNat < s.parser.rxLen.toNat := hrxi .data h
    omega
  case discard =>
    intro hd
    have hin : s.parser.inPayload := by
      by_contra hout
      simp [hp.discardElsewhere hout] at hd
    exact ⟨hin, by simpa [hd] using (hp.discardInPayload hin).symm⟩
  case none =>
    intro hnone
    have hckw := s.cfg.ckw_eq_zero.2 hnone
    have hnot : ¬ s.parser.rxi.toNat < s.cfg.ckw := by omega
    exact ⟨fun h => hnot (hrxi .headCksum h), fun h => hnot (hrxi .dataCksum h)⟩
  case code => cases s.parser.pstate <;> decide

end Sys2Proof.Machine
end

section
/-! PROOFS. The parser, state by state (42_parser.md R184, R189-R197): what one ACCEPT does in each of the seven
states. -/

namespace Sys2Proof.Machine

/-- ACCEPT in a running frame is its state step, with the idle counter clear (R186-R188). -/
theorem exec_accept_of_running {s : State} (hs : s.Inv) (ht : s.parser.ticks.toNat < s.cfg.timeoutTicks)
    (hne : s.parser.pstate ≠ .sof) {b : Byte} {q : Parser} {ev : Option Frame}
    (h : stepByte s.cfg b { s.parser with ticks := 0 } = .ok (q, ev)) :
    exec (.accept b) s = .next ((({ s with parser := q } : State).emit ev).respond .ok 0) := by
  refine accept_actsOnParser hs.configWf ?_ s rfl rfl
  rwa [acceptByte, beforeByte_of_running ht hne]

/-- RXI counts without wrapping (R26, R205 (a), (b)). -/
theorem succ_rxi_toNat {c : Config} (hc : c.wf = true) {p : Parser} (h : p.Inv c) :
    (p.rxi + 1).toNat = p.rxi.toNat + 1 := by
  have hr := Config.ranges hc
  refine succ_toNat h.rxiBelow ?_
  have hidw := hr.idw
  have hlenw := hr.lenw
  have htypew := hr.typew
  have hckw := c.ckw_le
  have hlen := p.rxLen.isLt
  unfold Parser.rxiBound
  cases p.pstate <;> dsimp only <;> omega

/-- A byte in SOF reaches a session that is idle, whether or not it timed out: nothing but TICKS changes before
the state step (R187, R204). -/
theorem clearIdle_of_sof {c : Config} {p : Parser} (h : p.Inv c) (hsof : p.pstate = .sof) :
    clearIdle c p = { p with ticks := 0 } := by
  obtain ⟨hrxi, hdiscard, hid, hlen, htype, href, hck⟩ := h.idle hsof
  unfold clearIdle
  split
  · simp [parserReset, hsof, hrxi, hdiscard, hid, hlen, htype, href, hck]
  · rfl

/-- A byte alone is the field's value (R16). -/
theorem shiftIn_zero {n : Nat} (hn : 1 ≤ n) (b : Byte) : shiftIn n 0 b = b.setWidth 32 := by
  have hb := b.isLt
  have hle : 2 ^ 8 ≤ 2 ^ (8 * n) := Nat.pow_le_pow_right (by omega) (by omega)
  simp only [shiftIn, BitVec.ofNat_eq_ofNat, BitVec.zero_shiftLeft, BitVec.zero_or]
  exact trunc_of_lt (by rw [BitVec.toNat_setWidth]; omega)

/-- Settles O40: the byte meets the idle session, in SOF with a marker and already in ID without one. -/
theorem byteInSof : Obligations.ByteInSof := by
  intro b s hs hsof
  have hrun := fun q ev h =>
    accept_actsOnParser (b := b) (p := s.parser) (p' := q) (ev := ev) hs.configWf h s rfl rfl
  obtain ⟨hrxi, hdiscard, hid, -⟩ := hs.parser.idle hsof
  simp only [acceptByte, beforeByte, clearIdle_of_sof hs.parser hsof] at hrun
  refine ⟨fun hen hb => ?other, fun hen hb => ?marker, fun hen => ?first⟩
  case other =>
    refine hrun _ none ?_
    rw [openFrame_of_marker hen, stepByte_sof (p := { s.parser with ticks := 0 }) hsof, if_neg hb]
  case marker =>
    refine hrun _ none ?_
    rw [openFrame_of_marker hen, stepByte_sof (p := { s.parser with ticks := 0 }) hsof, if_pos hb]
    simp [beginFrame, hen, hb, hrxi, hdiscard]
  case first =>
    refine hrun _ none ?_
    rw [openFrame_of_sof (p := { s.parser with ticks := 0 }) hen hsof, stepByte_id (beginFrame_pstate _ _)]
    have hidw : 1 ≤ s.cfg.idw := by have := (Config.ranges hs.configWf).idw; omega
    have hcount : (takeId s.cfg (beginFrame s.cfg { s.parser with ticks := 0 }) b).rxi.toNat = 1 := rfl
    have hfield : shiftIn s.cfg.idw (beginFrame s.cfg { s.parser with ticks := 0 }).rxId b = b.setWidth 32 := by
      rw [beginFrame_rxId, hid, shiftIn_zero hidw]
    rw [hcount, takeId, hfield]
    by_cases hone : s.cfg.idw = 1
    · simp [Parser.goTo, beginFrame, hen, hdiscard, hone]
    · simp [beginFrame, hen, hdiscard, hone, Ne.symm hone]

/-- Settles O41: the field's byte is counted before the count is compared with the width. -/
theorem byteInIdOrLen : Obligations.ByteInIdOrLen := by
  intro b s hs ht
  have hrxi := succ_rxi_toNat hs.configWf hs.parser
  refine ⟨fun hid => ?id, fun hlen => ?len⟩
  case id =>
    refine exec_accept_of_running (ev := none) hs ht (by simp [hid]) ?_
    rw [stepByte_id (p := { s.parser with ticks := 0 }) hid, takeId, hrxi]
    split <;> simp [Parser.goTo, hid]
  case len =>
    refine exec_accept_of_running (ev := none) hs ht (by simp [hlen]) ?_
    rw [stepByte_len (p := { s.parser with ticks := 0 }) hlen, takeLen, hrxi]
    split <;> simp [Parser.goTo, hlen]

/-- Settles O42: TYPE's end is `endType`, and with NONE that is the end of the header. -/
theorem byteInType : Obligations.ByteInType := by
  intro b s hs ht htype
  have hrun := fun q ev => exec_accept_of_running (b := b) (q := q) (ev := ev) hs ht (by simp [htype])
  rw [stepByte_type (p := { s.parser with ticks := 0 }) htype, takeType,
    succ_rxi_toNat hs.configWf hs.parser] at hrun
  refine ⟨fun hmid => hrun _ none (if_neg hmid), ?cksum, ?data, ?empty⟩
  case cksum =>
    intro hend hck
    exact hrun _ none ((if_pos hend).trans (if_neg hck))
  case data =>
    intro hend hck hlen
    rw [hrun _ none ((if_pos hend).trans ((if_pos hck).trans (enterData_of_nonempty hlen))), hck]
    rfl
  case empty =>
    intro hend hck hlen
    rw [hrun _ (some _) ((if_pos hend).trans ((if_pos hck).trans (enterData_of_empty hlen))), parserReset, hck]
    rfl

/-- Settles O43: the comparison stands in `endHead`, before the length is looked at. -/
theorem byteInHeadCksum : Obligations.ByteInHeadCksum := by
  intro b s hs ht hhead
  have hrun := fun q ev => exec_accept_of_running (b := b) (q := q) (ev := ev) hs ht (by simp [hhead])
  rw [stepByte_headCksum (p := { s.parser with ticks := 0 }) hhead, takeRef,
    succ_rxi_toNat hs.configWf hs.parser] at hrun
  refine ⟨fun hmid => hrun _ none (if_neg hmid), ?mismatch, ?data, ?empty⟩
  case mismatch =>
    intro hend hck
    exact hrun _ none ((if_pos hend).trans (if_neg (by simpa [ckMatches] using hck)))
  case data =>
    intro hend hck hlen
    exact hrun _ none ((if_pos hend).trans ((if_pos (by simpa [ckMatches] using hck)).trans
      (enterData_of_nonempty hlen)))
  case empty =>
    intro hend hck hlen
    exact hrun _ (some _) ((if_pos hend).trans ((if_pos (by simpa [ckMatches] using hck)).trans
      (enterData_of_empty hlen)))

/-- RXBUF as DATA leaves it: the byte stands at RXI and nothing else has changed, or nothing has (R195). -/
theorem takeData_rxbuf_read {c : Config} {p : Parser} (hwf : p.rxbuf.wf = true) (b : Byte) :
    (p.discard = true → (takeData c p b).rxbuf = p.rxbuf) ∧
    (p.discard = false → (takeData c p b).rxbuf.read p.rxi.toNat = b ∧
      ∀ a, a ≠ p.rxi.toNat → (takeData c p b).rxbuf.read a = p.rxbuf.read a) := by
  refine ⟨fun hd => by simp [takeData, hd], fun hd => ?_⟩
  have hbuf : (takeData c p b).rxbuf = p.rxbuf.write p.rxi.toNat b := by simp [takeData, hd]
  rw [hbuf]
  exact ⟨Memory.read_write_same hwf _ b, fun a ha => Memory.read_write_other hwf b ha⟩

/-- RXI reaches RX_LEN when their numbers agree (R195). -/
theorem takeData_rxi_eq_iff {c : Config} (hc : c.wf = true) {p : Parser} (h : p.Inv c) (b : Byte) :
    (takeData c { p with ticks := 0 } b).rxi = p.rxLen ↔ p.rxi.toNat + 1 = p.rxLen.toNat := by
  rw [← BitVec.toNat_inj, takeData, succ_rxi_toNat hc h]

/-- One running DATA byte (R195): the invariant keeps its store inside RXBUF. -/
theorem stepByte_data_of_inv {s : State} (hs : s.Inv) (hdata : s.parser.pstate = .data) (b : Byte) :
    stepByte s.cfg b { s.parser with ticks := 0 } =
      if s.parser.rxi.toNat + 1 = s.parser.rxLen.toNat then
        endData s.cfg (takeData s.cfg { s.parser with ticks := 0 } b)
      else .ok (takeData s.cfg { s.parser with ticks := 0 } b, none) := by
  have hroom := fun hd => (rxi_lt_maxPayload hs.parser hdata hd).2
  rw [stepByte_data (p := { s.parser with ticks := 0 }) hdata hroom]
  simp only [takeData_rxi_eq_iff hs.configWf hs.parser]

/-- Settles O44: the memory is the one `takeData` leaves, and before the frame's end no branch emits. -/
theorem byteInData : Obligations.ByteInData := by
  intro b s hs ht hdata hmore
  obtain ⟨hkept, hstored⟩ :=
    takeData_rxbuf_read (c := s.cfg) (p := { s.parser with ticks := 0 }) hs.parser.rxbufWithin.1 b
  refine ⟨_, hkept, hstored, exec_accept_of_running (ev := none) hs ht (by simp [hdata]) ?_⟩
  rw [stepByte_data_of_inv hs hdata]
  by_cases hend : s.parser.rxi.toNat + 1 = s.parser.rxLen.toNat
  · rw [if_pos hend, endData, if_neg (hmore.resolve_left (not_not.2 hend))]
    simp [takeData, Parser.goTo, hend]
  · rw [if_neg hend]
    simp [takeData, hend, hdata]

/-- Settles O45: with NONE the end of DATA is the end of the frame, and DISCARD decides. -/
theorem lastByteInDataWithoutChecksum : Obligations.LastByteInDataWithoutChecksum := by
  intro b s hs ht hdata hend hck
  obtain ⟨hkept, hstored⟩ :=
    takeData_rxbuf_read (c := s.cfg) (p := { s.parser with ticks := 0 }) hs.parser.rxbufWithin.1 b
  refine ⟨_, hkept, hstored, ?_⟩
  have hrun := fun q ev => exec_accept_of_running (b := b) (q := q) (ev := ev) hs ht (by simp [hdata])
  rw [stepByte_data_of_inv hs hdata, if_pos hend, endData, if_pos hck] at hrun
  cases hd : s.parser.discard with
  | true =>
    rw [hrun _ none (endFrame_ok.2 ⟨rfl, .inl ⟨by simp [takeData, hd], rfl⟩⟩), parserReset, hck]
    rfl
  | false =>
    obtain ⟨hlen, -⟩ := rxi_lt_maxPayload hs.parser hdata hd
    rw [hrun _ (some _) (endFrame_ok.2 ⟨rfl, .inr ⟨by simp [takeData, hd], hlen, rfl⟩⟩), parserReset, hck]
    rfl

/-- Settles O46: the end of DATA_CKSUM resets either way, and emits when both conditions hold. -/
theorem byteInDataCksum : Obligations.ByteInDataCksum := by
  intro b s hs ht hdck
  have hrun := fun q ev => exec_accept_of_running (b := b) (q := q) (ev := ev) hs ht (by simp [hdck])
  rw [stepByte_dataCksum (p := { s.parser with ticks := 0 }) hdck, takeRef,
    succ_rxi_toNat hs.configWf hs.parser] at hrun
  refine ⟨fun hmid => hrun _ none (if_neg hmid), fun hend => ?last⟩
  case last =>
    rw [if_pos hend, endDck] at hrun
    by_cases hmatch : s.parser.discard = false ∧
        ckFinal s.cfg.ckMode s.parser.rxCk = shiftIn s.cfg.ckw s.parser.rxRef b
    · have hlen : s.parser.rxLen.toNat ≤ s.cfg.maxPayload := by
        simpa [hmatch.1] using (hs.parser.discardInPayload (.inr hdck)).symm
      rw [if_pos hmatch]
      exact hrun _ (some _) (endFrame_ok.2 ⟨rfl, .inr ⟨by simpa [ckMatches] using hmatch, hlen, rfl⟩⟩)
    · rw [if_neg hmatch]
      exact hrun _ none (endFrame_ok.2 ⟨rfl, .inl ⟨by simpa [ckMatches] using hmatch, rfl⟩⟩)

end Sys2Proof.Machine
end

section
/-! PROOFS. Runs of the parser's commands (20_memory.md R70, 42_parser.md R201, R202): TICKs between bytes, and the
bytes of one frame. -/

namespace Sys2Proof.Machine

/-! ## Runs of parser commands -/

/-- The state after `n` parser commands that answered OK, left the session `p` and emitted nothing before the last
of them, which emitted `ev`. -/
def State.ran (s : State) (n : Nat) (p : Parser) (ev : Option Frame) : State :=
  { s with
    parser := p
    port := { s.port with
      responses := s.port.responses ++ List.replicate n { status := .ok, data := 0 }
      frames := s.port.frames ++ ev.toList.map fun f => { index := s.port.responses.length + n - 1, frame := f } } }

@[simp] theorem ran_parser (s : State) (n : Nat) (p : Parser) (ev : Option Frame) : (s.ran n p ev).parser = p := rfl

@[simp] theorem ran_none_frames (s : State) (n : Nat) (p : Parser) :
    (s.ran n p none).port.frames = s.port.frames := List.append_nil _

@[simp] theorem ran_some_frames (s : State) (n : Nat) (p : Parser) (f : Frame) :
    (s.ran n p (some f)).port.frames =
      s.port.frames ++ [{ index := s.port.responses.length + n - 1, frame := f }] := rfl

/-- In every state with this configuration and this session the commands all answer OK, leave the session `p'` and
emit nothing before the last of them, which emits `ev`; they touch nothing else. -/
def RunsOnParser (c : Config) (is : List Instr) (p p' : Parser) (ev : Option Frame) : Prop :=
  ∀ s : State, s.cfg = c → s.parser = p → execAll is s = .next (s.ran is.length p' ev)

theorem RunsOnParser.nil (c : Config) (p : Parser) : RunsOnParser c [] p p none := by
  rintro s rfl rfl
  simp [State.ran]

theorem ActsOnParser.runs {c : Config} {a : Instr} {p p' : Parser} {ev : Option Frame}
    (h : ActsOnParser c a p p' ev) : RunsOnParser c [a] p p' ev := by
  intro s hc hp
  rw [execAll_cons (h s hc hp), execAll_nil]
  cases ev <;> simp [State.ran, State.emit, State.respond]

theorem RunsOnParser.append {c : Config} {is js : List Instr} {p p' p'' : Parser} {ev : Option Frame}
    (his : RunsOnParser c is p p' none) (hjs : RunsOnParser c js p' p'' ev) :
    RunsOnParser c (is ++ js) p p'' ev := by
  intro s hc hp
  rw [execAll_append (his s hc hp), hjs (s.ran is.length p' none) hc rfl]
  simp [State.ran, Nat.add_assoc]

/-! ## TICKs -/

/-- What `k` TICKs make of the session. -/
def Parser.tickN (c : Config) (k : Nat) (p : Parser) : Parser := (Parser.tick c)^[k] p

theorem tickN_runsOnParser {c : Config} (hc : c.wf = true) (k : Nat) (p : Parser) :
    RunsOnParser c (tickN k) p (p.tickN c k) none := by
  induction k generalizing p with
  | zero => exact .nil c p
  | succ k ih => exact (tick_actsOnParser hc p).runs.append (ih (p.tick c))

theorem Parser.tickN_inv {c : Config} (hc : c.wf = true) {p : Parser} (h : p.Inv c) (k : Nat) :
    (p.tickN c k).Inv c := by
  induction k generalizing p with
  | zero => exact h
  | succ k ih => exact ih (tick_inv hc h)

/-- `k` TICKs touch TICKS alone, which counts them up to TIMEOUT_TICKS (R201, R202). -/
theorem Parser.tickN_eq {c : Config} (hc : c.wf = true) {p : Parser} (h : p.ticks.toNat ≤ c.timeoutTicks)
    (k : Nat) : p.tickN c k =
      { p with ticks := BitVec.ofNat 32 (min (p.ticks.toNat + k) c.timeoutTicks) } := by
  induction k generalizing p with
  | zero => simp [Parser.tickN, Nat.min_eq_left h]
  | succ k ih =>
    have hstep : p.tickN c (k + 1) = (p.tick c).tickN c k := rfl
    rw [hstep, ih (tick_ticks_le hc h)]
    by_cases ht : p.ticks.toNat < c.timeoutTicks
    · rw [tick_of_running ht, succ_ticks_toNat hc ht, Nat.add_right_comm, Nat.add_assoc]
    · rw [tick_of_timedOut (Nat.not_lt.1 ht), Nat.min_eq_right (by omega), Nat.min_eq_right (by omega)]

theorem Parser.tickN_ticks_toNat {c : Config} (hc : c.wf = true) {p : Parser}
    (h : p.ticks.toNat ≤ c.timeoutTicks) (k : Nat) :
    (p.tickN c k).ticks.toNat = min (p.ticks.toNat + k) c.timeoutTicks := by
  have hbound := (Config.ranges hc).timeoutBound
  rw [Parser.tickN_eq hc h, BitVec.toNat_ofNat, Nat.mod_eq_of_lt (by omega)]

/-- After TIMEOUT_TICKS TICKs or more a byte meets the reset session (R187, R202). -/
theorem clearIdle_tickN_of_ge {c : Config} (hc : c.wf = true) {p : Parser} (h : p.ticks.toNat ≤ c.timeoutTicks)
    {k : Nat} (hk : c.timeoutTicks ≤ k) : clearIdle c (p.tickN c k) = { parserReset c p with ticks := 0 } := by
  have htimedOut : c.timeoutTicks ≤ (p.tickN c k).ticks.toNat := by
    rw [Parser.tickN_ticks_toNat hc h]
    omega
  rw [clearIdle_of_timedOut htimedOut, Parser.tickN_eq hc h]
  rfl

/-- After fewer TICKs since the last byte it meets the session as that byte left it (R188, R202). -/
theorem clearIdle_tickN_of_lt {c : Config} (hc : c.wf = true) {p : Parser} (h : p.ticks = 0)
    {k : Nat} (hk : k < c.timeoutTicks) : clearIdle c (p.tickN c k) = clearIdle c p := by
  have hp : p.ticks.toNat = 0 := by rw [h]; rfl
  have hrunning : (p.tickN c k).ticks.toNat < c.timeoutTicks := by
    rw [Parser.tickN_ticks_toNat hc (by omega)]
    omega
  rw [clearIdle_of_running hrunning, clearIdle_of_running (by omega), Parser.tickN_eq hc (by omega)]

/-- An idle session is idle however many TICKs come (R187, R204). -/
theorem clearIdle_tickN_of_sof {c : Config} (hc : c.wf = true) {p : Parser} (h : p.Inv c) (hsof : p.pstate = .sof)
    (k : Nat) : clearIdle c (p.tickN c k) = clearIdle c p := by
  have htick := Parser.tickN_eq hc h.ticksBound k
  have hstays : (p.tickN c k).pstate = .sof := by rw [htick]; exact hsof
  rw [clearIdle_of_sof (Parser.tickN_inv hc h k) hstays, clearIdle_of_sof h hsof, htick]

/-- Settles O50: the timeout check makes the session after the TICKs and the session of the statement the same. -/
theorem ticksSinceTheLastByteDecideTheTimeout : Obligations.TicksSinceTheLastByteDecideTheTimeout := by
  intro k b s hs hticks
  have hc := hs.configWf
  have hzero : s.parser.ticks.toNat = 0 := by rw [hticks]; rfl
  have hpos := (Config.ranges hc).timeoutPos
  refine ⟨_, tickN_runsOnParser hc k s.parser s rfl rfl, ?_, rfl, rfl, by simp, ?_⟩
  · rw [ran_parser, Parser.tickN_eq hc hs.parser.ticksBound, hzero, Nat.zero_add]
  · obtain ⟨q, ev, hq, -, -⟩ := acceptByte_good hc (Parser.tickN_inv hc hs.parser k) b
    have hsame : clearIdle s.cfg (s.parser.tickN s.cfg k) = clearIdle s.cfg
        (if s.cfg.timeoutTicks ≤ k then parserReset s.cfg s.parser else s.parser) := by
      split
      · rename_i hk
        have hreset : (parserReset s.cfg s.parser).ticks.toNat < s.cfg.timeoutTicks := hzero.trans_lt hpos
        rw [clearIdle_tickN_of_ge hc hs.parser.ticksBound hk, clearIdle_of_running hreset]
      · rename_i hk
        exact clearIdle_tickN_of_lt hc hticks (Nat.not_le.1 hk)
    exact ⟨_, _, accept_actsOnParser hc hq _ rfl rfl,
      accept_actsOnParser hc ((acceptByte_congr hsame b).symm.trans hq) _ rfl rfl, by simp, by simp⟩

/-! ## The bytes of one frame -/

/-- The parser takes the bytes without a fault, from the session `p` to the session `q`. No byte before the last
brings it back to SOF or emits a FRAME; the last one emits `ev`. -/
inductive Receives (c : Config) : List Byte → Parser → Parser → Option Frame → Prop where
  | nil (p : Parser) : Receives c [] p p none
  | last {b : Byte} {p q : Parser} {ev : Option Frame} (h : acceptByte c b p = .ok (q, ev)) : Receives c [b] p q ev
  | cons {b : Byte} {bs : List Byte} {p q r : Parser} {ev : Option Frame} (h : acceptByte c b p = .ok (q, none))
      (hne : q.pstate ≠ .sof) (hbs : Receives c bs q r ev) : Receives c (b :: bs) p r ev

section
variable {c : Config} {bs bs' : List Byte} {p p' q r : Parser} {ev : Option Frame}

theorem Receives.append (h : Receives c bs p q none) (hne : q.pstate ≠ .sof) (h' : Receives c bs' q r ev) :
    Receives c (bs ++ bs') p r ev := by
  generalize hnone : (none : Option Frame) = o at h
  induction h with
  | nil => exact h'
  | last hb =>
    subst hnone
    exact .cons hb hne h'
  | cons h hq _ ih => exact .cons h hq (ih hne h' hnone)

/-- Sessions that take a first byte alike receive alike. -/
theorem Receives.congr (hsame : ∀ b, acceptByte c b p' = acceptByte c b p) (hbs : bs ≠ [])
    (h : Receives c bs p q ev) : Receives c bs p' q ev := by
  cases h with
  | nil => exact absurd rfl hbs
  | last h => exact .last ((hsame _).trans h)
  | cons h hne hrest => exact .cons ((hsame _).trans h) hne hrest

/-- Within the frame the parser has emitted nothing and is not in SOF. -/
theorem Receives.take (h : Receives c bs p q ev) {m : Nat} (hm : m < bs.length) :
    ∃ r, Receives c (bs.take m) p r none ∧ (0 < m → r.pstate ≠ .sof) := by
  induction h generalizing m with
  | nil => simp at hm
  | @last b p _ _ _ =>
    obtain rfl : m = 0 := by simpa using hm
    exact ⟨p, .nil p, by simp⟩
  | @cons b bs p q r ev h hne _ ih =>
    cases m with
    | zero => exact ⟨p, .nil p, by simp⟩
    | succ m =>
      obtain ⟨r', hr', hsof⟩ := ih (m := m) (by simpa using hm)
      refine ⟨r', .cons h hne hr', fun _ => ?_⟩
      cases m with
      | zero => cases hr'; exact hne
      | succ m => exact hsof (Nat.succ_pos m)

/-- The commands that feed the bytes. -/
theorem Receives.runs (hc : c.wf = true) (h : Receives c bs p q ev) : RunsOnParser c (acceptBuf bs) p q ev := by
  induction h with
  | nil p => exact .nil c p
  | last h => exact (accept_actsOnParser hc h).runs
  | cons h _ _ ih => exact (accept_actsOnParser hc h).runs.append ih

/-- TICKs and then one byte: the byte does what it does from a session that the timeout check makes the same. -/
theorem feedByte_runsOnParser (hc : c.wf = true) {k : Nat} (hsame : clearIdle c (p.tickN c k) = clearIdle c p)
    {b : Byte} (h : acceptByte c b p = .ok (q, ev)) :
    RunsOnParser c (tickN k ++ [.accept b]) p q ev :=
  (tickN_runsOnParser hc k p).append
    (accept_actsOnParser hc ((acceptByte_congr hsame b).trans h)).runs

/-- With fewer than TIMEOUT_TICKS TICKs before each byte the bytes do what they do alone (R202), the first one too
where TICKs do not matter to the session it finds. -/
theorem Receives.runs_feed (hc : c.wf = true) (h : Receives c bs p q ev) {kbs : List (Nat × Byte)}
    (hkbs : kbs.map Prod.snd = bs) (hk : ∀ kb ∈ kbs, kb.1 < c.timeoutTicks)
    (hp : ∀ k < c.timeoutTicks, clearIdle c (p.tickN c k) = clearIdle c p) : RunsOnParser c (feed kbs) p q ev := by
  induction h generalizing kbs with
  | nil p =>
    obtain rfl := List.map_eq_nil_iff.1 hkbs
    exact .nil c p
  | last hb =>
    obtain ⟨⟨k, b⟩, rfl, rfl⟩ := List.map_eq_singleton_iff.1 hkbs
    have hfeed : feed [(k, b)] = tickN k ++ [.accept b] := List.append_nil _
    rw [hfeed]
    exact feedByte_runsOnParser hc (hp k (hk (k, b) (by simp))) hb
  | cons hb hne _ ih =>
    obtain ⟨⟨k, b⟩, kbs', rfl, rfl, hrest⟩ := List.map_eq_cons_iff.1 hkbs
    obtain ⟨hk, hks⟩ := List.forall_mem_cons.1 hk
    obtain ⟨hticks, -, -⟩ := acceptByte_leaves _ _ _ _ _ hb
    exact (feedByte_runsOnParser hc (hp k hk) hb).append
      (ih hrest hks fun _ hlt => clearIdle_tickN_of_lt hc hticks hlt)

end

end Sys2Proof.Machine
end

section
/-! PROOFS. The bytes of a frame through the parser's states (42_parser.md R189-R197): a field of a frame, the header,
the payload. -/

namespace Sys2Proof.Machine

/-! ## Collecting the bytes of one field -/

/-- In the sessions of `In` the parser collects `w` bytes: each is taken by `take`, and at the last one the field ends
with `fin`. -/
structure Collects (c : Config) (In : Parser → Prop) (w : Nat) (take : Parser → Byte → Parser)
    (fin : Parser → ParserResult) : Prop where
  running : ∀ {p}, In p → p.ticks = 0 ∧ p.pstate ≠ .sof
  step : ∀ {p} (b), In p → p.rxi.toNat < w →
    stepByte c b p = if (take p b).rxi.toNat = w then fin (take p b) else .ok (take p b, none)
  keeps : ∀ {p} (b), In p → In (take p b)
  rxi : ∀ p b, (take p b).rxi = p.rxi + 1
  width : w < 2 ^ 32

/-- A byte behind another one, within a frame, meets the session as it is. -/
theorem beforeByte_of_awake {c : Config} (hc : c.wf = true) {p : Parser} (ht : p.ticks = 0) (hs : p.pstate ≠ .sof) :
    beforeByte c p = p := by
  have hpos := (Config.ranges hc).timeoutPos
  have hzero : p.ticks.toNat = 0 := by rw [ht]; rfl
  rw [beforeByte_of_running (by omega) hs, ← ht]

/-- The bytes that complete a field. -/
theorem Collects.receives {c : Config} (hc : c.wf = true) {In : Parser → Prop} {w : Nat}
    {take : Parser → Byte → Parser} {fin : Parser → ParserResult} (h : Collects c In w take fin) {bs : List Byte}
    {p q : Parser} {ev : Option Frame} (hp : In p) (hbs : bs ≠ []) (hlen : p.rxi.toNat + bs.length = w)
    (hfin : fin (bs.foldl take p) = .ok (q, ev)) : Receives c bs p q ev := by
  induction bs generalizing p with
  | nil => exact absurd rfl hbs
  | cons b bs ih =>
    obtain ⟨hticks, hrunning⟩ := h.running hp
    have hwidth := h.width
    rw [List.length_cons] at hlen
    have hcount : (take p b).rxi.toNat = p.rxi.toNat + 1 := by
      rw [h.rxi]
      exact succ_toNat (n := w) (by omega) hwidth
    have hstep : acceptByte c b p =
        if p.rxi.toNat + 1 = w then fin (take p b) else .ok (take p b, none) := by
      rw [acceptByte, beforeByte_of_awake hc hticks hrunning, h.step b hp (by omega), hcount]
    cases bs with
    | nil => exact .last (hstep.trans ((if_pos hlen).trans hfin))
    | cons b' bs =>
      rw [List.length_cons] at hlen
      exact .cons (hstep.trans (if_neg (by omega))) (h.running (h.keeps b hp)).2
        (ih (h.keeps b hp) (List.cons_ne_nil _ _) (by rw [hcount, List.length_cons]; omega) hfin)

/-- The running sessions of one state. -/
abbrev InState (st : PState) (p : Parser) : Prop := p.pstate = st ∧ p.ticks = 0

section
variable {c : Config} (hc : c.wf = true)
include hc

theorem collects_id : Collects c (InState .id) c.idw (takeId c) fun p => .ok (p.goTo .len, none) where
  running h := ⟨h.2, by simp [h.1]⟩
  step b h _ := stepByte_id h.1 b
  keeps _ h := h
  rxi _ _ := rfl
  width := by have := (Config.ranges hc).idw; omega

theorem collects_len : Collects c (InState .len) c.lenw (takeLen c) fun p => .ok (p.goTo .type, none) where
  running h := ⟨h.2, by simp [h.1]⟩
  step b h _ := stepByte_len h.1 b
  keeps _ h := h
  rxi _ _ := rfl
  width := by have := (Config.ranges hc).lenw; omega

theorem collects_type : Collects c (InState .type) c.typew (takeType c) (endType c) where
  running h := ⟨h.2, by simp [h.1]⟩
  step b h _ := stepByte_type h.1 b
  keeps _ h := h
  rxi _ _ := rfl
  width := by have := (Config.ranges hc).typew; omega

omit hc

theorem collects_headCksum : Collects c (InState .headCksum) c.ckw (takeRef c) (endHead c) where
  running h := ⟨h.2, by simp [h.1]⟩
  step b h _ := stepByte_headCksum h.1 b
  keeps _ h := h
  rxi _ _ := rfl
  width := by have := c.ckw_le; omega

theorem collects_dataCksum : Collects c (InState .dataCksum) c.ckw (takeRef c) (endDck c) where
  running h := ⟨h.2, by simp [h.1]⟩
  step b h _ := stepByte_dataCksum h.1 b
  keeps _ h := h
  rxi _ _ := rfl
  width := by have := c.ckw_le; omega

/-- The running sessions in DATA with this length, which fits RXBUF unless they discard (R205 (c)). -/
abbrev InDataState (c : Config) (len : Word) (p : Parser) : Prop :=
  InState .data p ∧ p.rxLen = len ∧ (p.discard = false → len.toNat ≤ c.maxPayload)

theorem collects_data (len : Word) : Collects c (InDataState c len) len.toNat (takeData c) (endData c) where
  running h := ⟨h.1.2, by simp [h.1.1]⟩
  step {p} b h hlt := by
    obtain ⟨⟨hs, -⟩, rfl, hroom⟩ := h
    rw [stepByte_data hs fun hd => hlt.trans_le (hroom hd)]
    simp only [BitVec.toNat_inj]
  keeps _ h := h
  rxi _ _ := rfl
  width := len.isLt

end

/-! ## What the collected bytes make of the session -/

section
variable (c : Config) (p : Parser) (st : PState) (bs : List Byte)

theorem goTo_foldl_takeId : (bs.foldl (takeId c) p).goTo st =
    { p.goTo st with rxCk := bs.foldl (ckAdd c.ckMode) p.rxCk, rxId := bs.foldl (shiftIn c.idw) p.rxId } := by
  induction bs generalizing p with
  | nil => rfl
  | cons b bs ih => exact ih (takeId c p b)

theorem goTo_foldl_takeLen : (bs.foldl (takeLen c) p).goTo st =
    { p.goTo st with rxCk := bs.foldl (ckAdd c.ckMode) p.rxCk, rxLen := bs.foldl (shiftIn c.lenw) p.rxLen } := by
  induction bs generalizing p with
  | nil => rfl
  | cons b bs ih => exact ih (takeLen c p b)

theorem goTo_foldl_takeType : (bs.foldl (takeType c) p).goTo st =
    { p.goTo st with rxCk := bs.foldl (ckAdd c.ckMode) p.rxCk, rxType := bs.foldl (shiftIn c.typew) p.rxType } := by
  induction bs generalizing p with
  | nil => rfl
  | cons b bs ih => exact ih (takeType c p b)

theorem goTo_foldl_takeRef : (bs.foldl (takeRef c) p).goTo st =
    { p.goTo st with rxRef := bs.foldl (shiftIn c.ckw) p.rxRef } := by
  induction bs generalizing p with
  | nil => rfl
  | cons b bs ih => exact ih (takeRef c p b)

/-- While discarding the bytes are only counted (R195). -/
theorem goTo_foldl_takeData_of_discard {p : Parser} (hd : p.discard = true) :
    (bs.foldl (takeData c) p).goTo st = p.goTo st := by
  induction bs generalizing p with
  | nil => rfl
  | cons b bs ih =>
    refine (ih (p := takeData c p b) hd).trans ?_
    simp [takeData, Parser.goTo, hd]

/-- Otherwise they are checksummed and stored from index RXI on (R195). -/
theorem goTo_foldl_takeData_of_store {p : Parser} {bs : List Byte} (hd : p.discard = false)
    (hlen : p.rxi.toNat + bs.length < 2 ^ 32) : (bs.foldl (takeData c) p).goTo st =
      { p.goTo st with
        rxCk := bs.foldl (ckAdd c.ckMode) p.rxCk
        rxbuf := p.rxbuf.writeRun p.rxi.toNat bs } := by
  induction bs generalizing p with
  | nil => rfl
  | cons b bs ih =>
    rw [List.length_cons] at hlen
    have hcount : (takeData c p b).rxi.toNat = p.rxi.toNat + 1 := succ_toNat (Nat.lt_succ_self _) (by omega)
    refine (ih (p := takeData c p b) hd (by omega)).trans ?_
    rw [hcount]
    simp [takeData, Parser.goTo, hd, Memory.writeRun]

@[simp] theorem goTo_pstate : (p.goTo st).pstate = st := rfl

@[simp] theorem goTo_rxi : (p.goTo st).rxi = 0 := rfl

/-- What ends a field looks neither at PSTATE nor at RXI. -/
theorem endType_goTo : endType c (p.goTo st) = endType c p := rfl

theorem endHead_goTo : endHead c (p.goTo st) = endHead c p := rfl

theorem endData_goTo : endData c (p.goTo st) = endData c p := rfl

theorem endDck_goTo : endDck c (p.goTo st) = endDck c p := rfl

end

end Sys2Proof.Machine
end

section
/-! PROOFS. Whole frames through the parser (42_parser.md R183-R197): the header with any checksum bytes, the payload
with any checksum bytes, and the frames that COMPOSE writes (41_composer.md R147). -/

namespace Sys2Proof.Machine

/-! ## The idle session -/

/-- The idle session of R204 with TICKS 0 and this RXBUF. -/
def idleWith (c : Config) (m : Memory) : Parser := { Parser.reset c with rxbuf := m }

theorem parserReset_eq_idleWith {c : Config} {p : Parser} (h : p.ticks = 0) :
    parserReset c p = idleWith c p.rxbuf := by
  rw [parserReset, h]
  rfl

/-- The idle session passes the timeout check as it is (R187). -/
theorem clearIdle_idleWith (c : Config) (m : Memory) : clearIdle c (idleWith c m) = idleWith c m :=
  clearIdle_parserReset c (idleWith c m)

/-- The timeout check makes the session the idle one with this RXBUF. -/
def IdleBehindCheck (c : Config) (m : Memory) (p : Parser) : Prop := clearIdle c p = idleWith c m

theorem idleBehindCheck_idleWith (c : Config) (m : Memory) : IdleBehindCheck c m (idleWith c m) :=
  clearIdle_idleWith c m

/-- Every session of the invariant in SOF is idle, timed out or not (R187, R204). -/
theorem idleBehindCheck_of_sof {c : Config} {p : Parser} (h : p.Inv c) (hsof : p.pstate = .sof) :
    IdleBehindCheck c p.rxbuf p := by
  obtain ⟨hrxi, hdiscard, hid, hlen, htype, href, hck⟩ := h.idle hsof
  refine (clearIdle_of_sof h hsof).trans ?_
  simp [idleWith, Parser.reset, hsof, hrxi, hdiscard, hid, hlen, htype, href, hck]

theorem Receives.of_idleBehindCheck {c : Config} {m : Memory} {p q : Parser} {bs : List Byte} {ev : Option Frame}
    (h : IdleBehindCheck c m p) (hbs : bs ≠ []) (hreceives : Receives c bs (idleWith c m) q ev) :
    Receives c bs p q ev :=
  hreceives.congr (acceptByte_congr (h.trans (clearIdle_idleWith c m).symm)) hbs

/-! ## The header -/

/-- The bytes before ID (R97). -/
def markerBytes (c : Config) : List Byte := if c.sofEn then [c.sofVal] else []

/-- The session in a state of the header, with nothing of that state's field taken, behind these bytes of ID, LEN and
TYPE. -/
def inHeader (c : Config) (m : Memory) (st : PState) (ids lens types : List Byte) : Parser :=
  { pstate := st
    rxi := 0
    rxId := ids.foldl (shiftIn c.idw) 0
    rxLen := lens.foldl (shiftIn c.lenw) 0
    rxType := types.foldl (shiftIn c.typew) 0
    rxCk := (markerBytes c ++ (ids ++ (lens ++ types))).foldl (ckAdd c.ckMode) (ckReset c.ckMode)
    rxRef := 0
    discard := false
    ticks := 0
    rxbuf := m }

theorem beginFrame_idleWith (c : Config) (m : Memory) :
    beginFrame c (idleWith c m) = inHeader c m .id [] [] [] := by
  rw [beginFrame, inHeader, markerBytes]
  split <;> rfl

/-- The marker, or the first ID byte without one, begins a frame (R189, R190). -/
theorem Receives.begin {c : Config} (hc : c.wf = true) {m : Memory} {bs : List Byte} {q : Parser} {ev : Option Frame}
    (hbs : bs ≠ []) (h : Receives c bs (inHeader c m .id [] [] []) q ev) :
    Receives c (markerBytes c ++ bs) (idleWith c m) q ev := by
  rw [← beginFrame_idleWith] at h
  cases hen : c.sofEn with
  | true =>
    have hmarker : acceptByte c c.sofVal (idleWith c m) = .ok (beginFrame c (idleWith c m), none) := by
      rw [acceptByte, beforeByte, clearIdle_idleWith, openFrame_of_marker hen, stepByte_sof rfl, if_pos rfl]
    simpa [markerBytes, hen] using Receives.cons hmarker (by simp) h
  | false =>
    have hsame : ∀ b, acceptByte c b (idleWith c m) = acceptByte c b (beginFrame c (idleWith c m)) := by
      intro b
      rw [acceptByte, acceptByte, beforeByte, clearIdle_idleWith, openFrame_of_sof hen rfl,
        beforeByte_of_awake hc (p := beginFrame c _) rfl (by simp)]
    simpa [markerBytes, hen] using h.congr hsame hbs

/-- Bytes that are as many as a field has. -/
structure HeaderFields (c : Config) (ids lens types : List Byte) : Prop where
  ids : ids.length = c.idw
  lens : lens.length = c.lenw
  types : types.length = c.typew

section
variable {c : Config} (hc : c.wf = true) {m : Memory} {ids lens types cks : List Byte}
include hc

/-- ID, LEN and TYPE, whatever their bytes are (R191-R193). -/
theorem receives_fields (hf : HeaderFields c ids lens types) {q : Parser} {ev : Option Frame}
    (h : endType c (inHeader c m .type ids lens types) = .ok (q, ev)) :
    Receives c (markerBytes c ++ (ids ++ (lens ++ types))) (idleWith c m) q ev := by
  have hr := Config.ranges hc
  have nonempty : ∀ {bs : List Byte} {n : Nat}, bs.length = n → 1 ≤ n → bs ≠ [] := by
    rintro bs n hlen hn rfl
    simp at hlen
    omega
  have hids : ids ≠ [] := nonempty hf.ids (by have := hr.idw; omega)
  have hlens : lens ≠ [] := nonempty hf.lens (by have := hr.lenw; omega)
  have htypes : types ≠ [] := nonempty hf.types (by have := hr.typew; omega)
  have hid : Receives c ids (inHeader c m .id [] [] []) (inHeader c m .len ids [] []) none := by
    refine (collects_id hc).receives hc ⟨rfl, rfl⟩ hids (by simp [inHeader, hf.ids]) ?_
    rw [goTo_foldl_takeId]
    simp [inHeader, Parser.goTo]
  have hlen : Receives c lens (inHeader c m .len ids [] []) (inHeader c m .type ids lens []) none := by
    refine (collects_len hc).receives hc ⟨rfl, rfl⟩ hlens (by simp [inHeader, hf.lens]) ?_
    rw [goTo_foldl_takeLen]
    simp [inHeader, Parser.goTo]
  have htype : Receives c types (inHeader c m .type ids lens []) q ev := by
    refine (collects_type hc).receives hc ⟨rfl, rfl⟩ htypes (by simp [inHeader, hf.types]) ?_
    rw [← endType_goTo _ _ .type, goTo_foldl_takeType]
    simpa [inHeader, Parser.goTo] using h
  exact .begin hc (by simp [hids]) (hid.append (by simp [inHeader]) (hlen.append (by simp [inHeader]) htype))

/-- The header and any CKW bytes behind it, which are none with CK_MODE = NONE: the comparison decides (R193, R194). -/
theorem receives_header (hf : HeaderFields c ids lens types) (hck : cks.length = c.ckw) {q : Parser}
    {ev : Option Frame}
    (h : endHead c { inHeader c m .headCksum ids lens types with rxRef := cks.foldl (shiftIn c.ckw) 0 } =
      .ok (q, ev)) :
    Receives c (markerBytes c ++ (ids ++ (lens ++ types)) ++ cks) (idleWith c m) q ev := by
  by_cases hnone : c.ckMode = .none
  · obtain rfl : cks = [] := List.length_eq_zero_iff.1 (hck.trans (c.ckw_eq_zero.2 hnone))
    rw [List.append_nil]
    refine receives_fields hc hf ?_
    rw [endType, if_pos hnone]
    rwa [endHead, if_pos (by simp [ckMatches, hnone, ckFinal])] at h
  · have hcks : cks ≠ [] := by
      rintro rfl
      exact hnone (c.ckw_eq_zero.1 hck.symm)
    refine (receives_fields hc hf (q := inHeader c m .headCksum ids lens types) (ev := none) ?_).append
      (by simp [inHeader]) ?_
    · rw [endType, if_neg hnone]
      rfl
    · refine collects_headCksum.receives hc ⟨rfl, rfl⟩ hcks (by simp [inHeader, hck]) ?_
      rw [← endHead_goTo _ _ .headCksum, goTo_foldl_takeRef]
      exact h

/-- A header with other checksum bytes than its own is dropped without an event (R194, R265). -/
theorem receives_header_of_ne (hf : HeaderFields c ids lens types) (hck : cks.length = c.ckw)
    (hne : ckOf c.ckMode (markerBytes c ++ (ids ++ (lens ++ types))) ≠ cks.foldl (shiftIn c.ckw) 0) :
    Receives c (markerBytes c ++ (ids ++ (lens ++ types)) ++ cks) (idleWith c m) (idleWith c m) none := by
  refine receives_header hc hf hck ((if_neg ?_).trans ?_)
  · simpa [ckMatches, inHeader, ckOf] using hne
  · rw [parserReset_eq_idleWith rfl]
    rfl

end

/-! ## A composed header -/

theorem width_bounds {n : Nat} (h : n = 1 ∨ n = 2 ∨ n = 4) : 1 ≤ n ∧ n ≤ 4 := by omega

/-- The session at the first payload byte of a frame with this header (R184). -/
def inData (c : Config) (m : Memory) (id len typ : Word) : Parser :=
  { pstate := .data
    rxi := 0
    rxId := trunc c.idBits id
    rxLen := len
    rxType := trunc c.typeBits typ
    rxCk := ckReset c.ckMode
    rxRef := ckOf c.ckMode (headerBytes c id len typ)
    discard := decide (c.maxPayload < len.toNat)
    ticks := 0
    rxbuf := m }

/-- A checksum field holds its checksum, which is 0 with no field (R125). -/
theorem foldl_shiftIn_ckField (c : Config) (bs : List Byte) :
    (ckField c bs).foldl (shiftIn c.ckw) 0 = ckOf c.ckMode bs := by
  by_cases hnone : c.ckMode = .none
  · simp [ckField, c.ckw_eq_zero.2 hnone, ckOf, hnone, ckFinal]
  · have hpos : 1 ≤ c.ckw := Nat.pos_of_ne_zero fun h => hnone (c.ckw_eq_zero.1 h)
    rw [ckField, foldl_shiftIn_beBytes hpos c.ckw_le]
    exact trunc_of_lt (ckOf_lt _ _)

section
variable {c : Config} (hc : c.wf = true) {m : Memory} {id len typ : Word} (hlen : Fits c.lenBits len)
include hc hlen

/-- A header that the composer writes is verified, and the session then holds its values (R147, R194). -/
theorem receives_headerBytes {q : Parser} {ev : Option Frame}
    (h : enterData c { inData c m id len typ with discard := false } = .ok (q, ev)) :
    Receives c (headerBytes c id len typ ++ ckField c (headerBytes c id len typ)) (idleWith c m) q ev := by
  have hr := Config.ranges hc
  have hheader : headerBytes c id len typ =
      markerBytes c ++ (beBytes c.idw id ++ (beBytes c.lenw len ++ beBytes c.typew typ)) := by
    simp [headerBytes, markerBytes, trunc_of_lt hlen]
  have hfields : HeaderFields c (beBytes c.idw id) (beBytes c.lenw len) (beBytes c.typew typ) := by
    constructor <;> simp
  have hreceives := receives_header hc (m := m) hfields (ckField_length c (headerBytes c id len typ)) (q := q)
    (ev := ev)
  rw [← hheader] at hreceives
  refine hreceives ((if_pos ?_).trans ?_)
  · rw [ckMatches, beq_iff_eq, foldl_shiftIn_ckField, hheader]
    rfl
  · obtain ⟨hidPos, hidLe⟩ := width_bounds hr.idw
    obtain ⟨hlenPos, hlenLe⟩ := width_bounds hr.lenw
    obtain ⟨htypePos, htypeLe⟩ := width_bounds hr.typew
    have hl : (beBytes c.lenw len).foldl (shiftIn c.lenw) 0 = len :=
      (foldl_shiftIn_beBytes hlenPos hlenLe 0 len).trans (trunc_of_lt hlen)
    rw [inHeader, foldl_shiftIn_beBytes hidPos hidLe, foldl_shiftIn_beBytes htypePos htypeLe, hl,
      foldl_shiftIn_ckField]
    exact h

end

/-! ## The payload -/

/-- The session with a payload and then checksum bytes taken from the first payload byte on (R195, R196). -/
def payloadTaken (c : Config) (p : Parser) (payload cks : List Byte) : Parser :=
  { p with
    rxCk := if p.discard then p.rxCk else payload.foldl (ckAdd c.ckMode) p.rxCk
    rxRef := cks.foldl (shiftIn c.ckw) 0
    rxbuf := if p.discard then p.rxbuf else p.rxbuf.writeRun 0 payload }

theorem goTo_foldl_takeData (c : Config) {p : Parser} (hrxi : p.rxi = 0) {bs : List Byte} (hlen : bs.length < 2 ^ 32)
    (st : PState) : (bs.foldl (takeData c) p).goTo st =
      { (payloadTaken c p bs []).goTo st with rxRef := p.rxRef } := by
  cases hd : p.discard with
  | true =>
    rw [goTo_foldl_takeData_of_discard c st bs hd]
    simp [payloadTaken, Parser.goTo, hd]
  | false =>
    rw [goTo_foldl_takeData_of_store c st hd (by simpa [hrxi] using hlen)]
    simp [payloadTaken, hd, hrxi, Parser.goTo]

/-- The payload and any CKW bytes behind it: DISCARD and the comparison decide (R195, R196). -/
theorem receives_payload {c : Config} (hc : c.wf = true) {p : Parser} {len : Word} (hp : InDataState c len p)
    (hrxi : p.rxi = 0) {payload cks : List Byte} (hpayload : payload ≠ []) (hlen : payload.length = len.toNat)
    (hck : cks.length = c.ckw) {q : Parser} {ev : Option Frame}
    (h : endDck c (payloadTaken c p payload cks) = .ok (q, ev)) : Receives c (payload ++ cks) p q ev := by
  have hdata : ∀ {q : Parser} {ev : Option Frame},
      endData c { payloadTaken c p payload [] with rxRef := p.rxRef } = .ok (q, ev) →
        Receives c payload p q ev := by
    intro q ev h
    refine (collects_data len).receives hc hp hpayload (by simp [hrxi, hlen]) ?_
    rw [← endData_goTo _ _ .data, goTo_foldl_takeData c hrxi (hlen ▸ len.isLt)]
    exact h
  by_cases hnone : c.ckMode = .none
  · obtain rfl : cks = [] := List.length_eq_zero_iff.1 (hck.trans (c.ckw_eq_zero.2 hnone))
    have hmatch : ckMatches c (payloadTaken c p payload []) = true := by
      simp [ckMatches, hnone, ckFinal, payloadTaken]
    rw [endDck, hmatch, Bool.and_true] at h
    rw [List.append_nil]
    exact hdata ((if_pos hnone).trans h)
  · have hcks : cks ≠ [] := by
      rintro rfl
      exact hnone (c.ckw_eq_zero.1 hck.symm)
    refine (hdata (if_neg hnone)).append PState.noConfusion ?_
    refine collects_dataCksum.receives hc ⟨rfl, hp.1.2⟩ hcks (by rw [hck]; exact Nat.zero_add _) ?_
    rw [← endDck_goTo _ _ .dataCksum, goTo_foldl_takeRef]
    exact h

end Sys2Proof.Machine
end

section
/-! PROOFS. Streams of frames (42_parser.md R207-R214): a composed frame comes out, and truncated, oversized and
corrupted frames do not. -/

namespace Sys2Proof.Machine

/-! ## Frames with a good header -/

section
variable {c : Config} (hc : c.wf = true) {m : Memory} {id len typ : Word} (hlen : Fits c.lenBits len)
include hc hlen

/-- A frame with no payload ends with its header (R184). -/
theorem receives_empty_frame (hzero : len = 0) :
    Receives c (headerBytes c id len typ ++ ckField c (headerBytes c id len typ)) (idleWith c m) (idleWith c m)
      (some { id := trunc c.idBits id, typ := trunc c.typeBits typ, len := len, payload := [] }) := by
  refine receives_headerBytes hc hlen ((enterData_of_empty hzero).trans ?_)
  rw [parserReset_eq_idleWith rfl, hzero]
  rfl

/-- Any other frame, with any checksum bytes behind its payload: the end of DATA_CKSUM decides (R195, R196). -/
theorem receives_frame {payload cks : List Byte} (hpayload : payload ≠ []) (hcount : payload.length = len.toNat)
    (hck : cks.length = c.ckw) {q : Parser} {ev : Option Frame}
    (h : endDck c (payloadTaken c (inData c m id len typ) payload cks) = .ok (q, ev)) :
    Receives c (headerBytes c id len typ ++ ckField c (headerBytes c id len typ) ++ (payload ++ cks))
      (idleWith c m) q ev := by
  have hne : len ≠ 0 := by
    rintro rfl
    exact hpayload (List.length_eq_zero_iff.1 hcount)
  refine (receives_headerBytes hc hlen (enterData_of_nonempty hne)).append (by simp) ?_
  have hin : InDataState c len (inData c m id len typ) := ⟨⟨rfl, rfl⟩, rfl, by simp [inData]⟩
  exact receives_payload hc hin rfl hpayload hcount hck h

/-- A payload that fits is stored, and the frame comes out exactly when its checksum bytes are the payload's own
(R195-R197). -/
theorem receives_frame_of_fits {payload cks : List Byte} (hpayload : payload ≠ []) (hcount : payload.length = len.toNat)
    (hck : cks.length = c.ckw) (hfits : len.toNat ≤ c.maxPayload) (hm : m.wf = true) :
    Receives c (headerBytes c id len typ ++ ckField c (headerBytes c id len typ) ++ (payload ++ cks))
      (idleWith c m) (idleWith c (m.writeRun 0 payload))
      (if ckOf c.ckMode payload = cks.foldl (shiftIn c.ckw) 0 then
        some { id := trunc c.idBits id, typ := trunc c.typeBits typ, len := len, payload := payload }
      else none) := by
  have hd : decide (c.maxPayload < len.toNat) = false := by simpa using hfits
  refine receives_frame hc hlen hpayload hcount hck (endFrame_ok.2 ⟨?_, ?_⟩)
  · rw [parserReset_eq_idleWith rfl]
    simp [payloadTaken, inData, hd]
  · split
    · rename_i heq
      refine .inr ⟨?_, hfits, ?_⟩
      · simpa [payloadTaken, inData, hd, ckMatches, ckOf] using heq
      · have hread : (m.writeRun 0 payload).readRun 0 len.toNat = payload :=
          hcount ▸ Memory.readRun_writeRun hm payload
        simp [payloadTaken, inData, hd, hread]
    · rename_i hne
      refine .inl ⟨?_, rfl⟩
      simpa [payloadTaken, inData, hd, ckMatches, ckOf] using hne

/-- An oversized payload is only counted (R195, R208, R209). -/
theorem receives_frame_of_oversized {payload cks : List Byte} (hcount : payload.length = len.toNat)
    (hck : cks.length = c.ckw) (hover : c.maxPayload < len.toNat) :
    Receives c (headerBytes c id len typ ++ ckField c (headerBytes c id len typ) ++ (payload ++ cks))
      (idleWith c m) (idleWith c m) none := by
  have hpayload : payload ≠ [] := by
    rintro rfl
    simp at hcount
    omega
  refine receives_frame hc hlen hpayload hcount hck (endFrame_ok.2 ⟨?_, .inl ⟨?_, rfl⟩⟩)
  · rw [parserReset_eq_idleWith rfl]
    simp [payloadTaken, inData, hover]
  · simp [payloadTaken, inData, hover]

end

/-! ## The frames that COMPOSE writes -/

/-- The payload that COMPOSE takes from TXP (R147). -/
def txPayload (s : State) : List Byte := s.composer.txp.readRun 0 s.composer.txLen.toNat

theorem txPayload_length (s : State) : (txPayload s).length = s.composer.txLen.toNat := Memory.readRun_length _ _ _

/-- The header that COMPOSE writes (R147). -/
def txHeader (e : Bool) (s : State) : List Byte :=
  headerBytes s.cfg (resolveId e s).1 s.composer.txLen s.composer.txType

/-- What COMPOSE sends (R146, R147). -/
def sentFrame (e : Bool) (s : State) : Frame :=
  { id := (resolveId e s).1, typ := s.composer.txType, len := s.composer.txLen, payload := txPayload s }

/-- Header, header checksum, payload and, behind a payload, its checksum (R96, R147). -/
theorem composedFrame_eq (e : Bool) (s : State) : composedFrame e s =
    txHeader e s ++ ckField s.cfg (txHeader e s) ++
      (txPayload s ++ if txPayload s = [] then [] else ckField s.cfg (txPayload s)) :=
  List.append_assoc _ _ _

theorem composedFrame_ne_nil {s : State} (hc : s.cfg.wf = true) (e : Bool) : composedFrame e s ≠ [] := by
  have hidw := (Config.ranges hc).idw
  rw [← List.length_pos_iff, composedFrame_length, Config.frameLen, Config.hdrBytes]
  omega

/-- What a successful COMPOSE leaves for the host to read (R147, R148). -/
structure Wrote (e : Bool) (s t : State) : Prop where
  count : t.composer.txCount.toNat = (composedFrame e s).length
  bytes : t.composer.txbuf.readRun 0 t.composer.txCount.toNat = composedFrame e s
  lastId : t.composer.txLastId = (resolveId e s).1

theorem compose_wrote {e : Bool} {s t : State} (hs : s.Inv) (hfits : s.composer.txLen.toNat ≤ s.cfg.maxPayload)
    (h : exec (.compose e) s = .next t) : Wrote e s t := by
  obtain rfl := Host.Outcome.next.inj ((execCompose_of_fits hs.configWf hfits e).symm.trans h)
  have hcount : (BitVec.ofNat 32 (s.cfg.frameLen s.composer.txLen.toNat)).toNat =
      s.cfg.frameLen s.composer.txLen.toNat := by
    have hle := s.cfg.frameLen_le_txbufSize hfits
    have hsize := (Config.ranges hs.configWf).txbuf
    rw [BitVec.toNat_ofNat, Nat.mod_eq_of_lt (by unfold Config.txbufSize at hle; omega)]
  refine ⟨hcount.trans (composedFrame_length e s).symm, ?_, composed_txLastId (resolveId_fits hs e)⟩
  exact (congrArg (Memory.readRun _ 0) hcount).trans (composed_txbuf_readRun e hs.composer.txbufWithin.1)

/-- A composed frame comes out of an idle parser as it was sent (R211). -/
theorem receives_composedFrame {s : State} (hs : s.Inv) (hfits : s.composer.txLen.toNat ≤ s.cfg.maxPayload) (e : Bool)
    {m : Memory} (hm : m.wf = true) :
    Receives s.cfg (composedFrame e s) (idleWith s.cfg m) (idleWith s.cfg (m.writeRun 0 (txPayload s)))
      (some (sentFrame e s)) := by
  have hc := hs.configWf
  have hlen : Fits s.cfg.lenBits s.composer.txLen := len_fits hc hfits
  have hid := trunc_of_lt (resolveId_fits hs e)
  have htyp := trunc_of_lt hs.composer.txTypeFits
  have hcount := txPayload_length s
  rw [composedFrame_eq, sentFrame]
  by_cases hempty : txPayload s = []
  · have hzero : s.composer.txLen = 0 := BitVec.eq_of_toNat_eq (by rw [← hcount, hempty]; rfl)
    have h := receives_empty_frame hc (m := m) (id := (resolveId e s).1) (typ := s.composer.txType) hlen hzero
    rw [hid, htyp] at h
    simpa [hempty, txHeader, Memory.writeRun] using h
  · have h := receives_frame_of_fits hc (id := (resolveId e s).1) (typ := s.composer.txType) hlen hempty hcount
      (ckField_length s.cfg (txPayload s)) hfits hm
    rw [if_pos (foldl_shiftIn_ckField _ _).symm, hid, htyp] at h
    rwa [if_neg hempty]

/-- Settles O54: the TICKs before a byte do not matter, to the idle session or within the frame. -/
theorem composedFrameIsReceived : Obligations.ComposedFrameIsReceived := by
  intro e s t r kbs hs hr hcfg hfits hcompose hsof hkbs hk
  have hc := hs.configWf
  obtain ⟨-, hbytes, hlastId⟩ := compose_wrote hs hfits hcompose
  have hparser : r.parser.Inv s.cfg := hcfg ▸ hr.parser
  have hreceives := (receives_composedFrame hs hfits e hparser.rxbufWithin.1).of_idleBehindCheck
    (idleBehindCheck_of_sof hparser hsof) (composedFrame_ne_nil hc e)
  have hrun := hreceives.runs_feed hc (hkbs.trans hbytes) hk fun k _ => clearIdle_tickN_of_sof hc hparser hsof k
  exact ⟨_, hrun r hcfg rfl, by rw [hlastId]; rfl, rfl⟩

end Sys2Proof.Machine
end

section
/-! PROOFS. Recovery (42_parser.md R212-R214): behind a truncated, an oversized or a corrupted frame the parser is
idle, and the next composed frame comes out. -/

namespace Sys2Proof.Machine

/-! ## The next frame -/

/-- A composed frame fed to an idle session (R211). -/
theorem composedFrame_runs {s : State} (hs : s.Inv) (hfits : s.composer.txLen.toNat ≤ s.cfg.maxPayload) (e : Bool)
    {m : Memory} (hm : m.wf = true) {p : Parser} (h : IdleBehindCheck s.cfg m p) :
    RunsOnParser s.cfg (acceptBuf (composedFrame e s)) p (idleWith s.cfg (m.writeRun 0 (txPayload s)))
      (some (sentFrame e s)) :=
  ((receives_composedFrame hs hfits e hm).of_idleBehindCheck h (composedFrame_ne_nil hs.configWf e)).runs hs.configWf

theorem acceptByte_inv {c : Config} (hc : c.wf = true) {b : Byte} {p q : Parser} {ev : Option Frame} (hp : p.Inv c)
    (h : acceptByte c b p = .ok (q, ev)) : q.Inv c := by
  obtain ⟨q', ev', hq', hinv, -⟩ := acceptByte_good hc hp b
  cases hq'.symm.trans h
  exact hinv

/-- Every session within a frame meets the invariant. -/
theorem Receives.inv {c : Config} (hc : c.wf = true) {bs : List Byte} {p q : Parser} {ev : Option Frame}
    (h : Receives c bs p q ev) (hp : p.Inv c) : q.Inv c := by
  induction h with
  | nil => exact hp
  | last hb => exact acceptByte_inv hc hp hb
  | cons hb _ _ ih => exact ih (acceptByte_inv hc hp hb)

/-- A shorter run of reads is the beginning of a longer one. -/
theorem Memory.take_readRun (m : Memory) (i : Nat) {k n : Nat} (h : k ≤ n) :
    (m.readRun i n).take k = m.readRun i k := by
  apply List.ext_getElem?
  intro j
  rw [List.getElem?_take, Memory.readRun_getElem?, Memory.readRun_getElem?]
  split
  · rw [if_pos (by omega)]
  · rfl

/-- Settles O55: the TICKs reset whatever session the truncated frame left, and the fresh frame meets an idle parser. -/
theorem truncationThenTimeoutRecovers : Obligations.TruncationThenTimeoutRecovers := by
  intro e e' s t s' t' r m k hs hs' hr hcfg hcfg' hfits hfits' hcompose hcompose' hsof hm hk
  have hc := hs.configWf
  obtain ⟨hcount, hbytes, -⟩ := compose_wrote hs hfits hcompose
  obtain ⟨-, hbytes', hlastId'⟩ := compose_wrote hs' (hcfg' ▸ hfits') hcompose'
  have hparser : r.parser.Inv s.cfg := hcfg ▸ hr.parser
  have hwhole := (receives_composedFrame hs hfits e hparser.rxbufWithin.1).of_idleBehindCheck
    (idleBehindCheck_of_sof hparser hsof) (composedFrame_ne_nil hc e)
  obtain ⟨q, hstale, -⟩ := hwhole.take (hcount ▸ hm)
  have hq := hstale.inv hc hparser
  have hidle : IdleBehindCheck s.cfg q.rxbuf (q.tickN s.cfg k) :=
    clearIdle_tickN_of_ge hc hq.ticksBound hk
  have hfresh := composedFrame_runs hs' (hcfg' ▸ hfits') e' hq.rxbufWithin.1 (hcfg' ▸ hidle)
  rw [hcfg'] at hfresh
  have hrun := ((hstale.runs hc).append (tickN_runsOnParser hc k q)).append hfresh
  rw [← hbytes, Memory.take_readRun _ _ hm.le, ← hbytes'] at hrun
  exact ⟨_, hrun r hcfg rfl, by simp [hlastId', sentFrame, txPayload], rfl⟩

/-- Settles O56: the header is verified, and the payload and its checksum are counted to their end. -/
theorem oversizedFrameIsContained : Obligations.OversizedFrameIsContained := by
  intro r id len typ hdr payload ck all hr hsof hlen hover hhdr hcount hck hall
  have hc := hr.configWf
  have hreceives := receives_frame_of_oversized hc (m := r.parser.rxbuf) (id := id) (typ := typ) hlen hcount hck hover
  rw [← hhdr, ← List.append_assoc, ← hall] at hreceives
  have hpayload : payload ≠ [] := by
    rintro rfl
    rw [List.length_nil] at hcount
    omega
  have hreceives := hreceives.of_idleBehindCheck (idleBehindCheck_of_sof hr.parser hsof) (by simp [hall, hpayload])
  refine ⟨⟨_, hreceives.runs hc r rfl rfl, by simp, rfl, rfl⟩, fun m u hpos hm hrun => ?_⟩
  obtain ⟨q, hstale, hinside⟩ := hreceives.take hm
  obtain rfl := Host.Outcome.next.inj ((hstale.runs hc r rfl rfl).symm.trans hrun)
  exact hinside hpos

/-! ## Corrupted frames -/

/-- A stream that leaves the parser idle without an event, and then a composed frame. -/
theorem dropped_then_received {e : Bool} {c : Config} {s t r : State} (hs : s.Inv) (hcfg : s.cfg = c)
    (hfits : s.composer.txLen.toNat ≤ c.maxPayload) (hcompose : exec (.compose e) s = .next t) {bs : List Byte}
    {m : Memory} (hm : m.wf = true) (hr : r.cfg = c)
    (hdrop : RunsOnParser c (acceptBuf bs) r.parser (idleWith c m) none) :
    ∃ u v, execAll (acceptBuf bs) r = .next u ∧
      u.port.frames = r.port.frames ∧ u.parser.pstate = .sof ∧
      execAll (acceptBuf (t.composer.txbuf.readRun 0 t.composer.txCount.toNat)) u = .next v ∧
      v.port.frames.map FrameEvent.frame = r.port.frames.map FrameEvent.frame ++
        [{ id := t.composer.txLastId, typ := s.composer.txType, len := s.composer.txLen
           payload := s.composer.txp.readRun 0 s.composer.txLen.toNat }] := by
  subst hcfg
  obtain ⟨-, hbytes, hlastId⟩ := compose_wrote hs hfits hcompose
  have hnext := composedFrame_runs hs hfits e hm (idleBehindCheck_idleWith s.cfg m)
  rw [hbytes]
  exact ⟨_, _, hdrop r hr rfl, by simp, rfl, hnext _ hr rfl, by simp [hlastId, sentFrame, txPayload]⟩

/-- A checksum tells bytes from the same bytes with one of them changed (G8). -/
theorem ckOf_set_ne {m : CkMode} (hm : m ≠ .none) {bs : List Byte} {j : Nat} {b : Byte} (hj : j < bs.length)
    (hb : bs[j]? ≠ some b) : ckOf m (bs.set j b) ≠ ckOf m bs := by
  rw [List.getElem?_eq_getElem hj] at hb
  have hsplit : bs = bs.take j ++ bs[j] :: bs.drop (j + 1) := by simp
  rw [List.set_eq_take_append_cons_drop, if_pos hj]
  conv_rhs => rw [hsplit]
  exact singleByteChangeIsDetected m _ _ _ _ hm fun h => hb (by rw [h])

/-- Header and header checksum are the bytes before the payload (R10). -/
theorem txHeader_length (e : Bool) (s : State) :
    (txHeader e s ++ ckField s.cfg (txHeader e s)).length = s.cfg.hdrBytes := by
  simp [txHeader, Config.hdrBytes]

/-- A change of payload byte `j` of a composed frame (R96). -/
theorem composedFrame_set_payload (e : Bool) {s : State} (hne : txPayload s ≠ []) {j : Nat}
    (hj : j < (txPayload s).length) (b : Byte) : (composedFrame e s).set (s.cfg.hdrBytes + j) b =
      txHeader e s ++ ckField s.cfg (txHeader e s) ++
        ((txPayload s).set j b ++ ckField s.cfg (txPayload s)) := by
  rw [composedFrame_eq, if_neg hne, ← txHeader_length e s, List.set_append_right _ _ (by omega),
    Nat.add_sub_cancel_left, List.set_append_left _ _ hj]

/-- Settles O58: the header is good and the payload's checksum does not match any more. -/
theorem payloadCorruptionIsDropped : Obligations.PayloadCorruptionIsDropped := by
  intro e e' s t s' t' r j b hs hs' hr hcfg hcfg' hckm hfits hfits' hcompose hcompose' hsof hj hb
  have hc := hs.configWf
  obtain ⟨-, hbytes, -⟩ := compose_wrote hs hfits hcompose
  have hparser : r.parser.Inv s.cfg := hcfg ▸ hr.parser
  have hm := hparser.rxbufWithin.1
  have hcount := txPayload_length s
  have hne : txPayload s ≠ [] := by
    intro hnil
    rw [hnil, List.length_nil] at hcount
    omega
  have hbad := composedFrame_set_payload e hne (hcount ▸ hj) b
  have hmismatch : ckOf s.cfg.ckMode ((txPayload s).set j b) ≠
      (ckField s.cfg (txPayload s)).foldl (shiftIn s.cfg.ckw) 0 := by
    rw [foldl_shiftIn_ckField]
    refine ckOf_set_ne hckm (hcount ▸ hj) ?_
    rw [txPayload, Memory.readRun_getElem?, if_pos hj, Nat.zero_add]
    exact fun h => hb (Option.some.inj h).symm
  have hdrop := receives_frame_of_fits hc (id := (resolveId e s).1) (typ := s.composer.txType)
    (len_fits hc hfits) (payload := (txPayload s).set j b) (by simpa using hne) (by simpa using hcount)
    (ckField_length s.cfg (txPayload s)) hfits hm
  rw [if_neg hmismatch] at hdrop
  have hdrop := hdrop.of_idleBehindCheck (idleBehindCheck_of_sof hparser hsof) (by simp [hne])
  rw [← txHeader, ← hbad, ← hbytes] at hdrop
  exact dropped_then_received hs' hcfg' hfits' hcompose' (Memory.writeRun_wf hm _ _) hcfg (hdrop.runs hc)

/-- With a marker an idle parser discards any other byte (R190). -/
theorem acceptByte_of_not_marker {c : Config} (hen : c.sofEn = true) {m : Memory} {p : Parser}
    (h : IdleBehindCheck c m p) {b : Byte} (hb : b ≠ c.sofVal) : acceptByte c b p = .ok (idleWith c m, none) := by
  rw [acceptByte, beforeByte, h, openFrame_of_marker hen, stepByte_sof rfl, if_neg hb]

theorem idle_runsOnParser {c : Config} (hc : c.wf = true) (hen : c.sofEn = true) (m : Memory) {bs : List Byte}
    (hbs : c.sofVal ∉ bs) : RunsOnParser c (acceptBuf bs) (idleWith c m) (idleWith c m) none := by
  induction bs with
  | nil => exact .nil c _
  | cons b bs ih =>
    rw [List.mem_cons, not_or] at hbs
    have hdiscard := acceptByte_of_not_marker hen (idleBehindCheck_idleWith c m) (Ne.symm hbs.1)
    exact (accept_actsOnParser hc hdiscard).runs.append (ih hbs.2)

/-- Bytes as many as ID, LEN and TYPE have are bytes of ID, LEN and TYPE. -/
theorem exists_headerFields {c : Config} {bs : List Byte} (h : bs.length = c.idw + c.lenw + c.typew) :
    ∃ ids lens types, bs = ids ++ (lens ++ types) ∧ HeaderFields c ids lens types := by
  refine ⟨bs.take c.idw, (bs.drop c.idw).take c.lenw, (bs.drop c.idw).drop c.lenw, by simp, ?_, ?_, ?_⟩
  all_goals
    simp only [List.length_take, List.length_drop]
    omega

/-- A header with one byte changed, of a field or of its checksum, is dropped at its last byte (R194, R212). -/
theorem receives_header_set {c : Config} (hc : c.wf = true) (hckm : c.ckMode ≠ .none) {m : Memory}
    {fields : List Byte} (hlen : fields.length = c.idw + c.lenw + c.typew) {hdr : List Byte}
    (hhdr : hdr = markerBytes c ++ fields) {j : Nat} {b : Byte} (hj : (markerBytes c).length ≤ j)
    (hb : (hdr ++ ckField c hdr)[j]? ≠ some b) (hlt : j < (hdr ++ ckField c hdr).length) :
    Receives c ((hdr ++ ckField c hdr).set j b) (idleWith c m) (idleWith c m) none := by
  by_cases hfield : j < hdr.length
  · rw [List.getElem?_append_left hfield] at hb
    have hne := ckOf_set_ne hckm hfield hb
    obtain ⟨ids, lens, types, hsplit, hf⟩ := exists_headerFields
      (bs := fields.set (j - (markerBytes c).length) b) (by rw [List.length_set, hlen])
    have hset : hdr.set j b = markerBytes c ++ (ids ++ (lens ++ types)) := by
      rw [hhdr, List.set_append_right _ _ hj, hsplit]
    rw [List.set_append_left _ _ hfield, hset]
    refine receives_header_of_ne hc hf (ckField_length c hdr) ?_
    rwa [foldl_shiftIn_ckField, ← hset]
  · have hfield := Nat.not_lt.1 hfield
    rw [List.getElem?_append_right hfield] at hb
    obtain ⟨ids, lens, types, rfl, hf⟩ := exists_headerFields hlen
    rw [List.set_append_right _ _ hfield, hhdr]
    refine receives_header_of_ne hc hf (by simp) ?_
    have hpos : 1 ≤ c.ckw := Nat.pos_of_ne_zero fun h => hckm (c.ckw_eq_zero.1 h)
    rw [← hhdr, ← foldl_shiftIn_ckField, Ne,
      foldl_shiftIn_inj hpos c.ckw_le (ckField_length c hdr) (by simp)]
    intro hsame
    refine hb ?_
    rw [hsame, List.getElem?_set_self]
    rw [List.length_append] at hlt
    omega

theorem txHeader_eq (e : Bool) (s : State) :
    ∃ fields, txHeader e s = markerBytes s.cfg ++ fields ∧ fields.length = s.cfg.idw + s.cfg.lenw + s.cfg.typew :=
  ⟨_, by rw [txHeader, headerBytes, List.append_assoc, List.append_assoc]; rfl, by simp [Nat.add_assoc]⟩

/-- A header byte stands in TXBUF at its index (R147). -/
theorem Wrote.header_getElem? {e : Bool} {s t : State} (h : Wrote e s t) {j : Nat} (hj : j < s.cfg.hdrBytes) :
    (txHeader e s ++ ckField s.cfg (txHeader e s))[j]? = some (t.composer.txbuf.read j) := by
  have hhead := txHeader_length e s
  have hcount : j < t.composer.txCount.toNat := by
    rw [h.count, composedFrame_eq, List.length_append]
    omega
  have hread : (composedFrame e s)[j]? = some (t.composer.txbuf.read j) := by
    rw [← h.bytes, Memory.readRun_getElem?, if_pos hcount, Nat.zero_add]
  rwa [composedFrame_eq, List.getElem?_append_left (by omega)] at hread

/-- Settles O59: behind the point of failure the parser is idle and discards what is left. -/
theorem headerCorruptionIsDropped : Obligations.HeaderCorruptionIsDropped := by
  intro e e' s t s' t' r j b bad hs hs' hr hcfg hcfg' hckm hen hfits hfits' hcompose hcompose' hsof hj hb hbad
    hquiet
  have hc := hs.configWf
  have hparser : r.parser.Inv s.cfg := hcfg ▸ hr.parser
  have hidle := idleBehindCheck_of_sof hparser hsof
  refine dropped_then_received hs' hcfg' hfits' hcompose' hparser.rxbufWithin.1 hcfg ?_
  have hwrote := compose_wrote hs hfits hcompose
  obtain ⟨fields, hhdr, hlen⟩ := txHeader_eq e s
  have hmarker : markerBytes s.cfg = [s.cfg.sofVal] := if_pos hen
  have hhead := txHeader_length e s
  have hchanged : (txHeader e s ++ ckField s.cfg (txHeader e s))[j]? ≠ some b := by
    rw [hwrote.header_getElem? hj]
    exact fun h => hb (Option.some.inj h).symm
  rw [hbad, hwrote.bytes, composedFrame_eq, List.set_append_left _ _ (by omega)] at hquiet ⊢
  by_cases hzero : j = 0
  · subst hzero
    rw [hhdr, hmarker] at hchanged hquiet ⊢
    have hfirst : b ≠ s.cfg.sofVal := by
      rintro rfl
      exact hchanged rfl
    exact (accept_actsOnParser hc (acceptByte_of_not_marker hen hidle hfirst)).runs.append
      (idle_runsOnParser hc hen _ hquiet)
  · have hbehind : (markerBytes s.cfg).length ≤ j := by
      rw [hmarker, List.length_singleton]
      omega
    have hne : txHeader e s ++ ckField s.cfg (txHeader e s) ≠ [] := by
      rw [← List.length_pos_iff]
      omega
    have hdrop := (receives_header_set hc hckm hlen hhdr (m := r.parser.rxbuf) hbehind hchanged
      (by omega)).of_idleBehindCheck hidle (by simpa only [Ne, List.set_eq_nil_iff] using hne)
    rw [if_neg hzero, List.drop_left' (by rw [List.length_set, hhead])] at hquiet
    rw [acceptBuf_append]
    exact (hdrop.runs hc).append (idle_runsOnParser hc hen _ hquiet)

end Sys2Proof.Machine
end

section
/-! PROOFS. No stuck state (42_parser.md R210): how many bytes an unfinished frame can still take. -/

namespace Sys2Proof.Machine

/-- The longest payload a length field can declare (R210). -/
def maxDeclared (c : Config) : Nat := 2 ^ c.lenBits - 1

/-- The most bytes that can still come before the parser is in SOF again: what is left of the current field, and all
of the fields behind it. In SOF a whole frame. -/
def bytesLeft (c : Config) (p : Parser) : Nat :=
  match p.pstate with
  | .sof => c.frameLen (maxDeclared c)
  | .id => (c.idw - p.rxi.toNat) + c.lenw + c.typew + c.ckw + maxDeclared c + c.ckw
  | .len => (c.lenw - p.rxi.toNat) + c.typew + c.ckw + maxDeclared c + c.ckw
  | .type => (c.typew - p.rxi.toNat) + c.ckw + maxDeclared c + c.ckw
  | .headCksum => (c.ckw - p.rxi.toNat) + maxDeclared c + c.ckw
  | .data => (p.rxLen.toNat - p.rxi.toNat) + c.ckw
  | .dataCksum => c.ckw - p.rxi.toNat

section
variable {c : Config} {p q : Parser} {ev : Option Frame}

theorem rxLen_le_maxDeclared (h : p.Inv c) : p.rxLen.toNat ≤ maxDeclared c := Nat.le_sub_one_of_lt h.rxLenFits

theorem maxDeclared_pos (hc : c.wf = true) : 0 < maxDeclared c :=
  have hr := Config.ranges hc
  hr.payloadPos.trans hr.payloadLen

/-- A whole frame is the most (R100, R210). -/
theorem bytesLeft_le (hc : c.wf = true) (h : p.Inv c) : bytesLeft c p ≤ c.frameLen (maxDeclared c) := by
  have hpos := maxDeclared_pos hc
  have hlen := rxLen_le_maxDeclared h
  unfold bytesLeft
  split <;> simp only [Config.frameLen, Config.hdrBytes, if_pos hpos] <;> omega

/-- There is always one more byte to come. -/
theorem bytesLeft_pos (hc : c.wf = true) (h : p.Inv c) : 0 < bytesLeft c p := by
  have hidw := (Config.ranges hc).idw
  have hrxi := h.rxiBelow
  unfold Parser.rxiBound at hrxi
  unfold bytesLeft
  cases hs : p.pstate <;> simp only [hs, Config.frameLen, Config.hdrBytes] at hrxi ⊢ <;> omega

/-- An event leaves the parser in SOF, and so does every other end of a frame (R199). -/
theorem endFrame_pstate {d : Bool} (h : endFrame c p d = .ok (q, ev)) : q.pstate = .sof := by
  obtain ⟨rfl, -⟩ := endFrame_ok.1 h
  rfl

/-- The end of the header leaves at most the declared payload and its checksum (R184). -/
theorem bytesLeft_enterData (hlen : p.rxLen.toNat ≤ maxDeclared c) (h : enterData c p = .ok (q, ev)) :
    q.pstate = .sof ∨ bytesLeft c q ≤ maxDeclared c + c.ckw := by
  by_cases hzero : p.rxLen = 0
  · rw [enterData_of_empty hzero] at h
    cases h
    exact .inl rfl
  · rw [enterData_of_nonempty hzero] at h
    cases h
    exact .inr (Nat.add_le_add_right ((Nat.sub_le _ _).trans hlen) _)

/-- Every state step takes a byte of what is left (R210). -/
theorem bytesLeft_stepByte (hc : c.wf = true) (hp : p.Inv c) (hsof : p.pstate = .sof → c.sofEn = true) {b : Byte}
    (h : stepByte c b p = .ok (q, ev)) : q.pstate = .sof ∨ bytesLeft c q < bytesLeft c p := by
  have hcount := succ_rxi_toNat hc hp
  have hlen := rxLen_le_maxDeclared hp
  have hbelow := hp.rxiBelow
  unfold Parser.rxiBound at hbelow
  cases hs : p.pstate with
  | sof =>
    have hpos := maxDeclared_pos hc
    rw [stepByte_sof hs] at h
    split at h
    · cases h
      simp [bytesLeft, hs, Config.frameLen, Config.hdrBytes, Config.sofb, hsof hs, hpos]
    · cases h
      exact .inl hs
  | id =>
    rw [stepByte_id hs] at h
    split at h <;> cases h <;> simp only [hs, bytesLeft, takeId, goTo_pstate, goTo_rxi] at hbelow ⊢ <;> omega
  | len =>
    rw [stepByte_len hs] at h
    split at h <;> cases h <;> simp only [hs, bytesLeft, takeLen, goTo_pstate, goTo_rxi] at hbelow ⊢ <;> omega
  | type =>
    rw [stepByte_type hs, endType] at h
    split at h
    · split at h
      · refine (bytesLeft_enterData (p := takeType c p b) hlen h).imp_right fun hle => hle.trans_lt ?_
        simp only [hs, bytesLeft] at hbelow ⊢
        omega
      · cases h
        simp only [hs, bytesLeft, goTo_pstate, goTo_rxi] at hbelow ⊢
        omega
    · cases h
      simp only [hs, bytesLeft, takeType] at hbelow ⊢
      omega
  | headCksum =>
    rw [stepByte_headCksum hs, endHead] at h
    split at h
    · split at h
      · refine (bytesLeft_enterData (p := takeRef c p b) hlen h).imp_right fun hle => hle.trans_lt ?_
        simp only [hs, bytesLeft] at hbelow ⊢
        omega
      · cases h
        exact .inl rfl
    · cases h
      simp only [hs, bytesLeft, takeRef] at hbelow ⊢
      omega
  | data =>
    rw [stepByte_data hs fun hd => (rxi_lt_maxPayload hp hs hd).2, endData] at h
    split at h
    · split at h
      · exact .inl (endFrame_pstate h)
      · cases h
        simp only [hs, bytesLeft, goTo_pstate, goTo_rxi] at hbelow ⊢
        omega
    · cases h
      simp only [hs, bytesLeft, takeData] at hbelow ⊢
      omega
  | dataCksum =>
    rw [stepByte_dataCksum hs, endDck] at h
    split at h
    · exact .inl (endFrame_pstate h)
    · cases h
      simp only [hs, bytesLeft, takeRef] at hbelow ⊢
      omega

/-- What a byte finds left behind the timeout check and the opening of a frame, it shortens (R210). -/
theorem bytesLeft_acceptByte (hc : c.wf = true) (hp : p.Inv c) {b : Byte} (h : acceptByte c b p = .ok (q, ev)) :
    q.pstate = .sof ∨ bytesLeft c q < bytesLeft c (beforeByte c p) :=
  bytesLeft_stepByte hc (beforeByte_inv hc hp) openFrame_sof h

/-- As many bytes as are left bring the parser to SOF, by induction on the bytes: one that does not leaves a running
session with fewer bytes left. -/
theorem receives_to_sof (hc : c.wf = true) {bs : List Byte} (hp : p.Inv c)
    (hlen : bytesLeft c (beforeByte c p) ≤ bs.length) :
    ∃ k q ev, 0 < k ∧ k ≤ bs.length ∧ Receives c (bs.take k) p q ev ∧ q.pstate = .sof := by
  induction bs generalizing p with
  | nil =>
    have hpos := bytesLeft_pos hc (beforeByte_inv hc hp)
    simp at hlen
    omega
  | cons b bs ih =>
    obtain ⟨q, ev, hq, hinv, -⟩ := acceptByte_good hc hp b
    by_cases hsof : q.pstate = .sof
    · exact ⟨1, q, ev, Nat.one_pos, by simp, .last hq, hsof⟩
    · obtain ⟨hticks, -, hev⟩ := acceptByte_leaves _ _ _ _ _ hq
      obtain rfl : ev = none := Option.eq_none_iff_forall_ne_some.2 fun f hf => hsof (hev f hf).1.1
      have hless := (bytesLeft_acceptByte hc hp hq).resolve_left hsof
      rw [List.length_cons] at hlen
      obtain ⟨k, r, ev, -, hk, hreceives, hr⟩ := ih hinv (by rw [beforeByte_of_awake hc hticks hsof]; omega)
      exact ⟨k + 1, r, ev, Nat.succ_pos k, by simpa using hk, .cons hq hsof hreceives, hr⟩

end

/-- Settles O57: no session of the invariant has more bytes left than the longest frame. -/
theorem parserReturnsToSof : Obligations.ParserReturnsToSof := by
  intro s bs hs _ hlen
  have hc := hs.configWf
  have hbound := bytesLeft_le hc (beforeByte_inv hc hs.parser)
  obtain ⟨k, q, ev, hpos, hk, hreceives, hq⟩ := receives_to_sof hc hs.parser (bs := bs) (hbound.trans hlen.ge)
  exact ⟨k, _, hpos, hk, hreceives.runs hc s rfl rfl, hq⟩

end Sys2Proof.Machine
end

section
/-! PROOFS. The control commands (43_control.md): RDREG over the register map (10_state.md R25, R41), INIT, and
WRREG on the operand registers and every other number. -/

namespace Sys2Proof.Machine

/-! ## The register map -/

/-- Every register is found by its own number: no two share one (R41). -/
theorem Reg.ofNumber_number (r : Reg) : Reg.ofNumber r.number = some r := by cases r <;> decide

/-- A number outside the map names no register (R41). -/
theorem Reg.ofNumber_of_unassigned {n : Addr} (h : n ∉ Reg.all.map Reg.number) : Reg.ofNumber n = none :=
  List.find?_eq_none.2 fun r hr hn => h (List.mem_map.2 ⟨r, hr, beq_iff_eq.1 hn⟩)

/-! ## RDREG -/

/-- RDREG of a register's number answers the register's value (R242). -/
theorem exec_rdreg_number {s : State} (hc : s.cfg.wf = true) (r : Reg) :
    exec (.rdreg r.number) s = .next (s.respond .ok (readReg s r)) := by
  rw [exec, execRdreg, whenConfigured_of_wf hc, Reg.ofNumber_number]
  rfl

/-- RDREG of a number outside the map answers BAD_REG (R242). -/
theorem exec_rdreg_of_unassigned {s : State} (hc : s.cfg.wf = true) {n : Addr} (hn : Reg.ofNumber n = none) :
    exec (.rdreg n) s = .next (s.respond .badReg 0) := by
  rw [exec, execRdreg, whenConfigured_of_wf hc, hn]
  rfl

/-- Settles O20, row by row of the map: the invariant says that each register of the configuration's widths fits
its width, so the truncation of the readback drops nothing. -/
theorem rdregReadsTheRegisterMap : Obligations.RdregReadsTheRegisterMap := by
  intro n s hs
  have hc := hs.configWf
  have reads (r : Reg) {v : Word} (hv : readReg s r = v) : exec (.rdreg r.number) s = .next (s.respond .ok v) :=
    hv ▸ exec_rdreg_number hc r
  refine ⟨decodeOfEncodeIsTheCommand (.rdreg n), ?rows, reads .cfg0 rfl, reads .cfg3 rfl,
    fun hn => exec_rdreg_of_unassigned hc (Reg.ofNumber_of_unassigned hn)⟩
  case rows =>
    simp only [List.forall_mem_cons]
    exact ⟨reads .cfg1 rfl, reads .cfg2 rfl, reads .peer rfl,
      reads .nextId (trunc_of_lt hs.nextIdFits),
      reads .txType (trunc_of_lt hs.composer.txTypeFits),
      reads .txLen rfl,
      reads .txId (trunc_of_lt hs.composer.txIdFits),
      reads .txCount rfl,
      reads .txLastId (trunc_of_lt hs.composer.txLastIdFits),
      reads .rxState rfl, reads .rxRxi rfl,
      reads .rxId (trunc_of_lt hs.parser.rxIdFits),
      reads .rxLen (trunc_of_lt hs.parser.rxLenFits),
      reads .rxType (trunc_of_lt hs.parser.rxTypeFits),
      reads .rxCk rfl,
      reads .rxRef (trunc_of_lt hs.parser.rxRefFits),
      reads .rxDiscard rfl, reads .rxTicks rfl, List.forall_mem_nil _⟩

/-! ## INIT -/

/-- INIT leaves each part of the block as reset does, with the peer bit it was given (R240). -/
theorem exec_init {s : State} (hc : s.cfg.wf = true) (p : Bool) :
    exec (.init p) s = .next (({ s with
      parser := Parser.reset s.cfg, idgen := IdGen.reset p, composer := Composer.reset } : State).respond .ok 0) :=
  whenConfigured_of_wf hc _

/-- Settles O17: the parts that INIT leaves hold the reset values, and their buffers list no byte. -/
theorem initInitialisesTheWholeBlock : Obligations.InitInitialisesTheWholeBlock := by
  intro p s hc
  refine ⟨decodeOfEncodeIsTheCommand (.init p), _, exec_init hc p, ?_⟩
  simp [Parser.reset, IdGen.reset, Composer.reset, State.respond]

/-! ## WRREG -/

/-- The registers other than TX_TYPE, TX_LEN and TX_ID are read-only (R31, R41). -/
theorem writeReg_eq_none (c : Config) (k : Composer) {r : Reg} (v : Word) (htype : r ≠ .txType)
    (hlen : r ≠ .txLen) (hid : r ≠ .txId) : writeReg c k r v = none := by
  cases r with
  | txType => exact absurd rfl htype
  | txLen => exact absurd rfl hlen
  | txId => exact absurd rfl hid
  | _ => rfl

/-- WRREG of a writable register's number writes that register (R241). -/
theorem exec_wrreg_number {s : State} (hc : s.cfg.wf = true) {r : Reg} {v : Word} {k : Composer}
    (hw : writeReg s.cfg s.composer r v = some k) :
    exec (.wrreg r.number v) s = .next (({ s with composer := k } : State).respond .ok 0) :=
  wrreg_actsOnComposer_of_write hc (Reg.ofNumber_number r) hw s.idgen s rfl rfl rfl

/-- WRREG of a number that names no writable register answers BAD_REG (R241). -/
theorem exec_wrreg_of_not_writable {s : State} (hc : s.cfg.wf = true) {n : Addr} {v : Word}
    (hn : ∀ r, Reg.ofNumber n = some r → writeReg s.cfg s.composer r v = none) :
    exec (.wrreg n v) s = .next (s.respond .badReg 0) := by
  rw [exec, execWrreg, whenConfigured_of_wf hc]
  cases hr : Reg.ofNumber n with
  | none => rfl
  | some r =>
    simp only [hn r hr]
    rfl

/-- Settles O19: the three writable registers each by its number; a number that is none of theirs names a
read-only register or no register at all. -/
theorem wrregWritesOperandRegistersOnly : Obligations.WrregWritesOperandRegistersOnly := by
  intro n v s hc
  refine ⟨decodeOfEncodeIsTheCommand (.wrreg n v), ?txType, ?txLen, ?txId, ?others⟩
  case txType =>
    rintro rfl
    exact exec_wrreg_number (r := .txType) hc rfl
  case txLen =>
    rintro rfl
    exact exec_wrreg_number (r := .txLen) hc rfl
  case txId =>
    rintro rfl
    exact exec_wrreg_number (r := .txId) hc rfl
  case others =>
    intro htype hlen hid
    refine exec_wrreg_of_not_writable hc fun r hr => ?_
    obtain rfl := Reg.number_of_ofNumber hr
    exact writeReg_eq_none _ _ v (fun h => htype (congrArg Reg.number h)) (fun h => hlen (congrArg Reg.number h))
      fun h => hid (congrArg Reg.number h)

end Sys2Proof.Machine
end

section
/-! PROOFS. Exceptions (60_exceptions.md R260-R262, R275): every step has an outcome, every command one response, and
an error status changes nothing and comes from the commands that the spec names. -/

namespace Sys2Proof.Machine

/-! ## Every step has a next state -/

/-- With nothing pending a step holds the state (R275, log 6). -/
theorem step_of_no_pending {s : State} (hc : s.cfg.wf = true) (hp : s.port.pending = []) : step s = .next s := by
  rw [step, takeCommand_eq_none.2 hp]
  exact whenConfigured_of_wf hc _

/-- Settles O7: with no word to take, only the configuration is checked. -/
theorem stepHoldsStateWithoutCommand : Obligations.StepHoldsStateWithoutCommand := fun _ => step_of_no_pending

/-- From a state of the invariant every command completes (R260). -/
theorem exec_next_of_inv {s : State} (hs : s.Inv) (i : Instr) : ∃ t, exec i s = .next t := by
  obtain ⟨t, -, h, -⟩ := exec_responds hs i
  exact ⟨t, h⟩

/-- Settles O11: a step holds, runs one command or answers ILLEGAL, and each has a next state. -/
theorem stepNeverStops : Obligations.StepNeverStops := by
  intro s hs
  obtain ⟨hp, -⟩ | ⟨w, rest, hp, ⟨i, -, hstep⟩ | ⟨r, hd, -⟩⟩ := step_cases s
  · exact ⟨s, step_of_no_pending hs.configWf hp⟩
  · rw [hstep]
    exact exec_next_of_inv (hs.withPending rest) i
  · exact ⟨_, step_of_decode_error hs.configWf hp hd⟩

/-! ## One response, and precise errors -/

/-- The effect of a command leaves the responses to its end (R84). -/
theorem Effect.responses {s u : State} {i : Instr} (h : Effect s i u) : u.port.responses = s.port.responses := by
  cases h <;> simp [composed]

/-- A command that completes adds one response; with an error that is all it does (R260). -/
theorem exec_precise {i : Instr} {s t : State} (h : exec i s = .next t) :
    ∃ r : Response, t.port.responses = s.port.responses ++ [r] ∧
      (r.status ≠ .ok → r.data = 0 ∧
        t = { s with port := { s.port with responses := s.port.responses ++ [r] } }) := by
  cases exec_answers h with
  | @error st => exact ⟨⟨st, 0⟩, rfl, fun _ => ⟨rfl, rfl⟩⟩
  | ok he d => exact ⟨⟨.ok, d⟩, by rw [respond_responses, he.responses], fun hne => absurd rfl hne⟩

/-- Settles O13: a pending word that decodes runs as its command, and any other word answers ILLEGAL. -/
theorem everyCommandAnswersAndErrorsArePrecise : Obligations.EveryCommandAnswersAndErrorsArePrecise := by
  refine ⟨?word, fun i s hs => exec_next_of_inv hs i, fun i s t h => exec_precise h⟩
  intro s w rest hs hp
  cases hd : decode w with
  | ok i =>
    obtain ⟨t, hexec⟩ := exec_next_of_inv (hs.withPending rest) i
    obtain ⟨r, hresp, herror⟩ := exec_precise hexec
    exact ⟨t, r, (stepRunsTheDecodedCommand s w rest i hp hd).trans hexec, hresp, herror⟩
  | error e => exact ⟨_, ⟨.illegal, 0⟩, step_of_decode_error hs.configWf hp hd, rfl, fun _ => ⟨rfl, rfl⟩⟩

/-! ## Which command raises which status -/

/-- The error statuses of each command (R85, R261). -/
inductive Raises : Instr → Status → Prop where
  | compose (e : Bool) : Raises (.compose e) .payloadTooLarge
  | wrreg (n : Addr) (v : Word) : Raises (.wrreg n v) .badReg
  | rdreg (n : Addr) : Raises (.rdreg n) .badReg
  | txpWr (k : Addr) (b : Byte) : Raises (.txpWr k b) .badAddr
  | txbRd (k : Addr) : Raises (.txbRd k) .badAddr
  | rxbRd (k : Addr) : Raises (.rxbRd k) .badAddr

/-- The status of an answer can be read off the responses. -/
theorem status_of_respond_eq {s u : State} {st st' : Status} {d d' : Word}
    (hu : u.port.responses = s.port.responses) (h : u.respond st d = s.respond st' d') : st = st' := by
  have hresp := congrArg (fun t : State => t.port.responses) h
  simp only [respond_responses, hu, List.append_cancel_left_eq, List.cons.injEq, Response.mk.injEq] at hresp
  exact hresp.1.1

section
variable {s : State} {st : Status}

theorem status_of_raise {st' : Status} (h : raise s st' = .next (s.respond st 0)) : st' = st :=
  status_of_respond_eq rfl (Host.Outcome.next.inj h)

/-- A command that succeeds does not answer an error. -/
theorem finish_ne_error (hst : st ≠ .ok) {u : State} {d : Word} (hu : u.port.responses = s.port.responses) :
    finish u d ≠ .next (s.respond st 0) :=
  fun h => hst (status_of_respond_eq hu (Host.Outcome.next.inj h)).symm

/-- The one error of a host's read of a buffer byte is BAD_ADDR (R262). -/
theorem status_of_readByteCommand (hst : st ≠ .ok) {sp : Space} {m : Memory} {k : Addr}
    (h : readByteCommand s sp m k = .next (s.respond st 0)) : st = .badAddr := by
  unfold readByteCommand at h
  split at h
  · exact absurd h (finish_ne_error hst rfl)
  · exact (status_of_raise h).symm

/-- A command that ends with an error ends with one of its own. -/
theorem raises_of_exec_error (hst : st ≠ .ok) {i : Instr} (h : exec i s = .next (s.respond st 0)) : Raises i st := by
  cases i with
  | init p => exact absurd (whenConfigured_next h).2 (finish_ne_error hst rfl)
  | accept b =>
    obtain ⟨-, h⟩ := whenConfigured_next h
    split at h
    · cases h
    · exact absurd h (finish_ne_error hst (by simp))
  | tick => exact absurd (whenConfigured_next h).2 (finish_ne_error hst rfl)
  | compose e =>
    obtain ⟨-, ⟨-, h⟩ | ⟨hlen, h⟩⟩ := execCompose_next h
    · exact status_of_respond_eq rfl h ▸ .compose e
    · exact absurd (status_of_respond_eq (Effect.compose hlen).responses h.symm).symm hst
  | wrreg n v =>
    obtain ⟨-, h⟩ := whenConfigured_next h
    split at h
    · exact status_of_raise h ▸ .wrreg n v
    · split at h
      · exact status_of_raise h ▸ .wrreg n v
      · exact absurd h (finish_ne_error hst rfl)
  | rdreg n =>
    obtain ⟨-, h⟩ := whenConfigured_next h
    split at h
    · exact status_of_raise h ▸ .rdreg n
    · exact absurd h (finish_ne_error hst rfl)
  | txpWr k b =>
    obtain ⟨-, h⟩ := whenConfigured_next h
    split at h
    · exact absurd h (finish_ne_error hst rfl)
    · exact status_of_raise h ▸ .txpWr k b
  | txbRd k => exact status_of_readByteCommand hst (whenConfigured_next h).2 ▸ .txbRd k
  | rxbRd k => exact status_of_readByteCommand hst (whenConfigured_next h).2 ▸ .rxbRd k

end

/-- The response that a completed command adds is OK, or an error of that command (R261). -/
theorem status_of_exec {i : Instr} {s t : State} {r : Response} (h : exec i s = .next t)
    (hr : t.port.responses = s.port.responses ++ [r]) : r.status = .ok ∨ Raises i r.status := by
  cases exec_answers h with
  | @error st hst =>
    obtain rfl : ⟨st, 0⟩ = r := by simpa using hr
    exact .inr (raises_of_exec_error hst h)
  | ok he d =>
    obtain rfl : ⟨.ok, d⟩ = r := by simpa [he.responses] using hr
    exact .inl rfl

/-- Settles O14: each row of `Raises` names its command. -/
theorem statusesBelongToTheirCommands : Obligations.StatusesBelongToTheirCommands := by
  intro i s t r h hr
  have hstatus := status_of_exec h hr
  generalize r.status = st at hstatus ⊢
  obtain rfl | hraises := hstatus
  · simp
  · cases hraises <;> simp

end Sys2Proof.Machine
end

section
/-! PROOFS. Streams of bytes (30_encoding.md R92, 70_reset_and_hazards.md R303): ACCEPTs of any bytes, what they make
of the session and the frames they emit, however they are cut into commands. -/

namespace Sys2Proof.Machine

/-! ## What a stream makes of the session -/

/-- The bytes take the session from `p` to `q` and emit the frames `fs`, over any number of frames. -/
inductive Streams (c : Config) : List Byte → Parser → Parser → List Frame → Prop where
  | nil (p : Parser) : Streams c [] p p []
  | cons {b : Byte} {bs : List Byte} {p q r : Parser} {ev : Option Frame} {fs : List Frame}
      (h : acceptByte c b p = .ok (q, ev)) (hbs : Streams c bs q r fs) : Streams c (b :: bs) p r (ev.toList ++ fs)

section
variable {c : Config} {bs : List Byte} {p q : Parser} {fs : List Frame}

/-- From a session of the invariant every stream is taken to its end, and the session it leaves is one again. -/
theorem Streams.exists_of_inv (hc : c.wf = true) (hp : p.Inv c) (bs : List Byte) :
    ∃ q fs, Streams c bs p q fs ∧ q.Inv c := by
  induction bs generalizing p with
  | nil => exact ⟨p, [], .nil p, hp⟩
  | cons b bs ih =>
    obtain ⟨q, ev, hb, hq, -⟩ := acceptByte_good hc hp b
    obtain ⟨r, fs, hrest, hr⟩ := ih hq
    exact ⟨r, ev.toList ++ fs, .cons hb hrest, hr⟩

/-- At most one frame for each byte (R206). -/
theorem Streams.frames_length_le (h : Streams c bs p q fs) : fs.length ≤ bs.length := by
  induction h with
  | nil => exact Nat.le_refl 0
  | @cons _ _ _ _ _ ev _ _ _ ih =>
    have hev : ev.toList.length ≤ 1 := by cases ev <;> simp
    simp only [List.length_append, List.length_cons]
    omega

/-- Every byte zeroes TICKS, and nothing in a stream counts it up again (R188, R200). -/
theorem Streams.ticks_eq_zero (h : Streams c bs p q fs) (hp : bs ≠ [] ∨ p.ticks = 0) : q.ticks = 0 := by
  induction h with
  | nil => simpa using hp
  | cons hb _ ih =>
    obtain ⟨hticks, -, -⟩ := acceptByte_leaves _ _ _ _ _ hb
    exact ih (.inr hticks)

end

/-! ## The commands that feed a stream -/

/-- `t` is `s` after `n` ACCEPTs that answered OK, left the session `p` and emitted the frames `fs`, and touched
nothing else that the block holds. -/
structure Streamed (s t : State) (n : Nat) (p : Parser) (fs : List Frame) : Prop where
  cfg : t.cfg = s.cfg
  idgen : t.idgen = s.idgen
  composer : t.composer = s.composer
  parser : t.parser = p
  responses : t.port.responses = s.port.responses ++ List.replicate n { status := .ok, data := 0 }
  frames : t.port.frames.map FrameEvent.frame = s.port.frames.map FrameEvent.frame ++ fs

theorem Streamed.refl (s : State) : Streamed s s 0 s.parser [] := ⟨rfl, rfl, rfl, rfl, by simp, by simp⟩

theorem Streamed.trans {s t u : State} {m n : Nat} {p q : Parser} {fs gs : List Frame} (h : Streamed s t m p fs)
    (h' : Streamed t u n q gs) : Streamed s u (m + n) q (fs ++ gs) where
  cfg := h'.cfg.trans h.cfg
  idgen := h'.idgen.trans h.idgen
  composer := h'.composer.trans h.composer
  parser := h'.parser
  responses := by rw [h'.responses, h.responses, List.append_assoc, List.replicate_append_replicate]
  frames := by rw [h'.frames, h.frames, List.append_assoc]

theorem streamed_accept (s : State) (p : Parser) (ev : Option Frame) :
    Streamed s ((({ s with parser := p } : State).emit ev).respond .ok 0) 1 p ev.toList := by
  constructor <;> simp

/-- What ACCEPTBUF does is decided by the configuration and the session (R78, R92). -/
theorem Streams.runs {c : Config} (hc : c.wf = true) {bs : List Byte} {p q : Parser} {fs : List Frame}
    (h : Streams c bs p q fs) {s : State} (hcfg : s.cfg = c) (hp : s.parser = p) :
    ∃ t, execAll (acceptBuf bs) s = .next t ∧ Streamed s t bs.length q fs := by
  induction h generalizing s with
  | nil =>
    subst hp
    exact ⟨s, rfl, .refl s⟩
  | @cons b bs _ q _ ev _ hb _ ih =>
    have hfirst := streamed_accept s q ev
    obtain ⟨t, hrun, hrest⟩ := ih (hfirst.cfg.trans hcfg) hfirst.parser
    refine ⟨t, (execAll_cons (accept_actsOnParser hc hb s hcfg hp) (acceptBuf bs)).trans hrun, ?_⟩
    rw [List.length_cons, Nat.add_comm]
    exact hfirst.trans hrest

/-- Settles O53: each part is one stream, the second from the session that the first left, and a run of both is the
run of the first and then of the second. -/
theorem chunkingDoesNotMatter : Obligations.ChunkingDoesNotMatter := by
  intro xs ys s hs
  have hc := hs.configWf
  obtain ⟨p, fx, hxs, hp⟩ := Streams.exists_of_inv hc hs.parser xs
  obtain ⟨q, fy, hys, -⟩ := Streams.exists_of_inv hc hp ys
  obtain ⟨t, hrunx, ht⟩ := hxs.runs hc rfl rfl
  obtain ⟨u, hruny, htu⟩ := hys.runs hc ht.cfg ht.parser
  have hu := ht.trans htu
  have hboth : execAll (acceptBuf (xs ++ ys)) s = .next u := by
    rw [acceptBuf_append, execAll_append hrunx, hruny]
  refine ⟨t, u, fx, fy, hrunx, hruny, hboth, ht.responses, hu.responses, ht.frames, hu.frames,
    hxs.frames_length_le, hys.frames_length_le, fun hne => ?ticks, hu.idgen, hu.composer, hu.cfg,
    fun r hr hparser => ?otherState⟩
  case ticks =>
    rw [ht.parser]
    exact hxs.ticks_eq_zero (.inl hne)
  case otherState =>
    obtain ⟨v, hrun, hv⟩ := hys.runs hc hr (hparser.trans ht.parser)
    exact ⟨v, hrun, hv.parser.trans hu.parser.symm, hv.frames⟩

end Sys2Proof.Machine
end

section
/-! PROOFS. Reset (70_reset_and_hazards.md R292): INIT beside power-on reset. -/

namespace Sys2Proof.Machine

/-- Settles O18: what INIT writes is what power-on reset holds, the peer bit apart. -/
theorem powerOnResetAndInitDifferOnlyInPeer : Obligations.PowerOnResetAndInitDifferOnlyInPeer := by
  intro p s t h
  cases (exec_init (cfg_wf_of_exec_next h) p).symm.trans h
  exact ⟨rfl, rfl, rfl, rfl, rfl, rfl⟩

end Sys2Proof.Machine
end
